-- ==== Sys2Proof/Word.lean ====
section
/-! DEFINITION. The value types of the WS frame codec: bytes, 32-bit words and the four-byte mask key. -/

namespace Sys2Proof

/-- A byte: 8 bits, bit 7 the most significant (00_scope R6). -/
abbrev Byte := BitVec 8

/-- A SHA-1 word: 32 bits, additions modulo `2^32` (40_handshake_signer section 2). -/
abbrev Word32 := BitVec 32

/-- A mask key: exactly four bytes, `k0` the first on the wire. It is a sequence and never a number
(20_memory R64 (c)). -/
structure Key where
  k0 : Byte
  k1 : Byte
  k2 : Byte
  k3 : Byte
deriving DecidableEq, Repr

/-- The key of four zero bytes. -/
def Key.zero : Key := ⟨0, 0, 0, 0⟩

end Sys2Proof
end

