-- ==== Sys2Proof/Config.lean ====
section
/-! DEFINITION. The parameters of one build of the block (00_scope R5) and the free values: what the spec leaves
open, as constants with no body. -/

namespace Sys2Proof

/-- `UNMASKED_POLICY` (00_scope R5, 92_eei_decisions D7): what `DEC` does when the mask-indicator bit is 0. -/
inductive UnmaskedPolicy where
  /-- the default: raise `MASK_BIT_CLEAR` -/
  | fault
  /-- D7's alternative: rule R165 is deleted and `L = byte1[6:0]` whatever `M` is -/
  | ignore
deriving DecidableEq, Repr

/-- The open build-time parameters of 00_scope R5. The width parameters stand at their defaults in the types of
the registers (log 5). -/
structure Params where
  /-- the two length bytes `ENC` emits when `n = 65536` (92_eei_decisions D11) -/
  encLen16At65536 : BitVec 16
  unmaskedPolicy : UnmaskedPolicy
deriving DecidableEq, Repr

/-- The defaults of 00_scope R5. -/
def Params.default : Params := ⟨0x0000, .fault⟩

/-- `N_CONN` at its default (00_scope R5): the number of independent instances. -/
def nConn : Nat := 1

/-- FREE VALUE (log 4): when a `CLOSE` beat and a data beat are both offered and State's `arbiter` list is empty,
whether the `CLOSE` goes first. The spec "fixes no order and a model admits both" (20_memory R63). -/
opaque Config.closeFirst : Nat → Bool

/-- FREE VALUE (log 7): the byte of the response at an index the response does not have. 30_encoding R97 gives
`HSRESP(token)[i]` for `i` in 0..127; `sgn_ridx` has 8 bits and never exceeds 127 in a reachable state (R36 item 9). -/
opaque Config.respByteBeyond : BitVec 8 → Byte

end Sys2Proof
end

