-- ==== Sys2Proof/Syntax.lean ====
section
/-! DEFINITION. The instructions of the WS frame codec: one constructor per row of spec/opcode_table.json (00_scope
R1: commands, incoming frame forms, outgoing frame forms; 00_scope R8: the byte steps; the response literal; reset). -/

namespace Sys2Proof

/-- One row of the opcode table with its operands. The byte of an `RX.*`, `HK.BYTE` or `TXP.BYTE` row is the beat
the step takes; a step that only emits has no operand. -/
inductive Instr where
  /-- `RXF.UNMASKED`: frame byte 1 with `M = 0` and low bits `l` (30_encoding R92 order 1, R165) -/
  | rxfUnmasked (l : BitVec 7)
  /-- `RXF.LEN64`: frame byte 1 with `L = 127` (R92 order 2, R164) -/
  | rxfLen64
  /-- `RXF.LEN16`: frame byte 1 with `L = 126` (R92 order 3, R163) -/
  | rxfLen16
  /-- `RXF.LEN7`: frame byte 1 with `L = l`, at most 125 (R92 order 4, R162) -/
  | rxfLen7 (l : BitVec 7)
  /-- `TXF.LEN7`: the whole outgoing frame with header `81 nn` (30_encoding R94, R202) -/
  | txfLen7 (n : BitVec 7)
  /-- `TXF.LEN16`: the whole outgoing frame with header `81 7E hh ll` (R94, R203) -/
  | txfLen16 (hh ll : Byte)
  /-- `CMD` with `op = 0`, reserved (30_encoding R96, R225) -/
  | cmdReserved0 (arg : BitVec 32)
  /-- `CMD` with `op = 1` (R132) -/
  | upgrade (klen : BitVec 32)
  /-- `CMD` with `op = 2` (R201) -/
  | encode (n : BitVec 32)
  /-- `CMD` with `op = 3`; `arg` is ignored (R224) -/
  | close (arg : BitVec 32)
  /-- `HK.BYTE` (R133) -/
  | hkByte (x : Byte)
  /-- `RESP.BYTE` (R135) -/
  | respByte
  /-- `RX.B0` (R161) -/
  | rxB0 (x : Byte)
  /-- `RX.B1`: dispatches to the four `RXF` forms (R92) -/
  | rxB1 (x : Byte)
  /-- `RX.X0` (R173) -/
  | rxX0 (x : Byte)
  /-- `RX.X1` (R174) -/
  | rxX1 (x : Byte)
  /-- `RX.K0` (R166) -/
  | rxK0 (x : Byte)
  /-- `RX.K1` (R166) -/
  | rxK1 (x : Byte)
  /-- `RX.K2` (R166) -/
  | rxK2 (x : Byte)
  /-- `RX.K3` (R167) -/
  | rxK3 (x : Byte)
  /-- `RX.PAY` (R168) -/
  | rxPay (x : Byte)
  /-- `UNM.LOAD` (R191) -/
  | unmLoad (key : Key)
  /-- `UNM.BYTE` (R192) -/
  | unmByte (x : Byte)
  /-- `TX.H0` (R205) -/
  | txH0
  /-- `TX.H1` (R205) -/
  | txH1
  /-- `TX.H2` (R205) -/
  | txH2
  /-- `TX.H3` (R205) -/
  | txH3
  /-- `TXP.BYTE` (R206) -/
  | txpByte (x : Byte)
  /-- `HSRESP`: the whole 128-byte response with this token (30_encoding R97, R131) -/
  | hsresp (token : Vector Byte 28)
  /-- `RESET` (R280) -/
  | reset
deriving DecidableEq, Repr

end Sys2Proof
end

