-- ==== Sys2Proof/WellFormed.lean ====
section
/-! DEFINITION. Which terms of `Instr` stand for words the encodings admit. -/

namespace Sys2Proof

/-- The two ranges the encodings put on operands: `RXF.LEN7` has `L <= 125` and `TXF.LEN7` has `n <= 125`
(30_encoding R92, R94). Every other operand takes every value of its type; in particular any two length bytes are an
encoding of `TXF.LEN16`, since `ENC_LEN16_AT_65536` may be any 16-bit value (92_eei_decisions D11). -/
def Instr.wf : Instr → Bool
  | .rxfUnmasked _ => true
  | .rxfLen64 => true
  | .rxfLen16 => true
  | .rxfLen7 l => decide (l.toNat ≤ 125)
  | .txfLen7 n => decide (n.toNat ≤ 125)
  | .txfLen16 _ _ => true
  | .cmdReserved0 _ => true
  | .upgrade _ => true
  | .encode _ => true
  | .close _ => true
  | .hkByte _ => true
  | .respByte => true
  | .rxB0 _ => true
  | .rxB1 _ => true
  | .rxX0 _ => true
  | .rxX1 _ => true
  | .rxK0 _ => true
  | .rxK1 _ => true
  | .rxK2 _ => true
  | .rxK3 _ => true
  | .rxPay _ => true
  | .unmLoad _ => true
  | .unmByte _ => true
  | .txH0 => true
  | .txH1 => true
  | .txH2 => true
  | .txH3 => true
  | .txpByte _ => true
  | .hsresp _ => true
  | .reset => true

end Sys2Proof
end

