-- ==== Sys2Proof/Decode.lean ====
section
/-! DEFINITION. The encodings of 30_encoding: bit fields, the decoder of each encoding space (total, rejecting by
name), and the encoder. -/

namespace Sys2Proof

/-! ### Bit fields (30_encoding R98, R99) -/

/-- `b[7]`: the mask-indicator bit `M` of frame byte 1, "value 128" (R91, R98). -/
def maskBit (x : Byte) : Bool := x.getLsbD 7

/-- `b[6:0]`: the length marker `L` of frame byte 1 (R98). -/
def lenMarker (x : Byte) : BitVec 7 := x.extractLsb' 0 7

/-- `be16(hi, lo) = hi * 256 + lo`: the earlier byte is the more significant (00_scope R6, 20_memory R64 (b)). -/
def be16 (hi lo : Byte) : BitVec 16 := hi ++ lo

/-- The high byte `n[15:8]` of a 16-bit value. -/
def hiByte (n : BitVec 16) : Byte := n.extractLsb' 8 8

/-- The low byte `n[7:0]` of a 16-bit value. -/
def loByte (n : BitVec 16) : Byte := n.extractLsb' 0 8

/-- Byte 1 of a frame from its mask-indicator bit and marker: `{M, L}`. -/
def frameByte1 (m : Bool) (l : BitVec 7) : Byte := BitVec.ofBool m ++ l

/-! ### Why a word has no instruction -/

/-- The names under which a decoder rejects. -/
inductive DecodeError where
  /-- fewer bytes than the form has, so far (for a stream: more are needed) -/
  | truncated
  /-- `TXF`: the first byte is not `0x81` (R93) -/
  | firstByteNotText
  /-- `TXF`: the mask bit is set, which `ENC` never does (R93, R94) -/
  | maskBitSet
  /-- `TXF`: the marker 127, which `ENC` never produces (R94) -/
  | marker127
  /-- a step's operand does not have the number of bytes the step takes -/
  | operandLength
  /-- `HSRESP`: not 128 bytes, or not the fixed prefix and suffix of R97 -/
  | notResponse
deriving DecidableEq, Repr

/-! ### `RXF`: the incoming frame forms (30_encoding R91, R92) -/

/-- The decoder's opcode map: the form selected by byte 1 alone, first match wins (R92). Under `UNMASKED_POLICY =
ignore` form 1 is deleted and `L = byte1[6:0]` whatever `M` is (92_eei_decisions D7). -/
def selectForm (pol : UnmaskedPolicy) (x : Byte) : Instr :=
  if pol = .fault ∧ maskBit x = false then .rxfUnmasked (lenMarker x)
  else if lenMarker x = 127#7 then .rxfLen64
  else if lenMarker x = 126#7 then .rxfLen16
  else .rxfLen7 (lenMarker x)

/-- One row of R92: the word `{b0, byte1}` belongs to the row when `word AND mask = value`. -/
structure RxfRow where
  mask  : BitVec 16
  value : BitVec 16
deriving DecidableEq, Repr

/-- Row 1 of R92, `RXF.UNMASKED`. -/
def rowUnmasked : RxfRow := ⟨0x0080, 0x0000⟩
/-- Row 2 of R92, `RXF.LEN64`. -/
def rowLen64 : RxfRow := ⟨0x00FF, 0x00FF⟩
/-- Row 3 of R92, `RXF.LEN16`. -/
def rowLen16 : RxfRow := ⟨0x00FF, 0x00FE⟩
/-- Row 4 of R92, `RXF.LEN7`, after orders 2 and 3. -/
def rowLen7 : RxfRow := ⟨0x0080, 0x0080⟩

/-- The word belongs to the row. -/
def RxfRow.hits (r : RxfRow) (w : BitVec 16) : Bool := w &&& r.mask == r.value

/-- The `RXF` decoder on a byte stream: byte 0 is not examined (R100), byte 1 selects the form, the rest of the stream
comes back untouched. -/
def decodeRxf (pol : UnmaskedPolicy) : List Byte → Except DecodeError (Instr × List Byte)
  | _ :: x :: rest => .ok (selectForm pol x, rest)
  | _ => .error .truncated

/-! ### `TXF`: the outgoing frame forms (30_encoding R93, R94, R101) -/

/-- What a reader of `TX` takes from the header of a frame, and the payload that follows. -/
def decodeTxf : List Byte → Except DecodeError (Instr × List Byte)
  | h0 :: h1 :: rest =>
    if h0 ≠ 0x81#8 then .error .firstByteNotText
    else if maskBit h1 = true then .error .maskBitSet
    else if lenMarker h1 = 127#7 then .error .marker127
    else if lenMarker h1 = 126#7 then
      match rest with
      | hh :: ll :: rest' => .ok (.txfLen16 hh ll, rest')
      | _ => .error .truncated
    else .ok (.txfLen7 (lenMarker h1), rest)
  | _ => .error .truncated

/-! ### `CMD`: the command beat (30_encoding R95, R96) -/

/-- `op`, bits 33:32. -/
def cmdOp (beat : BitVec 34) : BitVec 2 := beat.extractLsb' 32 2

/-- `arg`, bits 31:0. -/
def cmdArg (beat : BitVec 34) : BitVec 32 := beat.extractLsb' 0 32

/-- A beat from its two fields. -/
def cmdBeat (op : BitVec 2) (arg : BitVec 32) : BitVec 34 := op ++ arg

/-- Every 34-bit beat is one of the four rows (R96). -/
def decodeCmd (beat : BitVec 34) : Instr :=
  if cmdOp beat = 0#2 then .cmdReserved0 (cmdArg beat)
  else if cmdOp beat = 1#2 then .upgrade (cmdArg beat)
  else if cmdOp beat = 2#2 then .encode (cmdArg beat)
  else .close (cmdArg beat)

/-! ### `STEP`: raw bytes, whose row the phase registers select -/

/-- The `STEP` rows of the opcode table: which byte of which format is due. The words carry no opcode ("raw data with
no format", R90); the table's `selected_by` is the phase. -/
inductive Slot where
  | hk | resp | b0 | b1 | x0 | x1 | k0 | k1 | k2 | k3 | pay | unmLoad | unmByte | h0 | h1 | h2 | h3 | txp
deriving DecidableEq, Repr

/-- The step due in a slot on the byte it takes, if it takes one. -/
def decodeStep : Slot → List Byte → Except DecodeError Instr
  | .hk, [x] => .ok (.hkByte x)
  | .resp, [] => .ok .respByte
  | .b0, [x] => .ok (.rxB0 x)
  | .b1, [x] => .ok (.rxB1 x)
  | .x0, [x] => .ok (.rxX0 x)
  | .x1, [x] => .ok (.rxX1 x)
  | .k0, [x] => .ok (.rxK0 x)
  | .k1, [x] => .ok (.rxK1 x)
  | .k2, [x] => .ok (.rxK2 x)
  | .k3, [x] => .ok (.rxK3 x)
  | .pay, [x] => .ok (.rxPay x)
  | .unmLoad, [a, b, c, d] => .ok (.unmLoad ⟨a, b, c, d⟩)
  | .unmByte, [x] => .ok (.unmByte x)
  | .h0, [] => .ok .txH0
  | .h1, [] => .ok .txH1
  | .h2, [] => .ok .txH2
  | .h3, [] => .ok .txH3
  | .txp, [x] => .ok (.txpByte x)
  | _, _ => .error .operandLength

/-! ### `HSRESP`: the response literal (30_encoding R97) -/

/-- The 96 bytes before the token: status line, two whole header lines and `Sec-WebSocket-Accept:` with no space after
the colon (R97). -/
def respHead : List Byte :=
  [0x48, 0x54, 0x54, 0x50, 0x2F, 0x31, 0x2E, 0x31, 0x20, 0x31, 0x30, 0x31, 0x20, 0x53, 0x77, 0x69, 0x74,
   0x63, 0x68, 0x69, 0x6E, 0x67, 0x20, 0x50, 0x72, 0x6F, 0x74, 0x6F, 0x63, 0x6F, 0x6C, 0x73, 0x0D, 0x0A] ++
  [0x55, 0x70, 0x67, 0x72, 0x61, 0x64, 0x65, 0x3A, 0x20, 0x77, 0x65, 0x62, 0x73, 0x6F, 0x63, 0x6B, 0x65,
   0x74, 0x0D, 0x0A] ++
  [0x43, 0x6F, 0x6E, 0x6E, 0x65, 0x63, 0x74, 0x69, 0x6F, 0x6E, 0x3A, 0x20, 0x55, 0x70, 0x67, 0x72, 0x61,
   0x64, 0x65, 0x0D, 0x0A] ++
  [0x53, 0x65, 0x63, 0x2D, 0x57, 0x65, 0x62, 0x53, 0x6F, 0x63, 0x6B, 0x65, 0x74, 0x2D, 0x41, 0x63, 0x63,
   0x65, 0x70, 0x74, 0x3A]

/-- The 4 bytes after the token: CR LF CR LF (R97). -/
def respTail : List Byte := [0x0D, 0x0A, 0x0D, 0x0A]

/-- `HSRESP(token)`: the 128 response bytes (R97). -/
def respBytes (token : Vector Byte 28) : List Byte := respHead ++ token.toList ++ respTail

/-- 28 bytes of a list as a token; a missing byte reads as 0. -/
def toToken (l : List Byte) : Vector Byte 28 := Vector.ofFn fun i => l.getD i.val 0

/-- Reads the token out of a response; anything but the literal of R97 is rejected. -/
def decodeResp (bs : List Byte) : Except DecodeError Instr :=
  let token := toToken ((bs.drop 96).take 28)
  if bs = respBytes token then .ok (.hsresp token) else .error .notResponse

/-! ### All spaces together -/

/-- A word of one of the encoding spaces of 30_encoding R90, or a signal. -/
inductive Wire where
  /-- the bytes of an incoming frame, from byte 0 -/
  | rxf (bytes : List Byte)
  /-- the bytes of an outgoing frame, from byte 0 -/
  | txf (bytes : List Byte)
  /-- one command beat -/
  | cmd (beat : BitVec 34)
  /-- the byte (or bytes) of a step, in its slot -/
  | step (slot : Slot) (bytes : List Byte)
  /-- the response literal -/
  | resp (bytes : List Byte)
  /-- the signal `rst`, asserted -/
  | rst
deriving DecidableEq, Repr

/-- The decoder, total on any word of any space (at the default `UNMASKED_POLICY`; `decodeRxf` takes the policy). -/
def decode : Wire → Except DecodeError Instr
  | .rxf bs => (decodeRxf .fault bs).map Prod.fst
  | .txf bs => (decodeTxf bs).map Prod.fst
  | .cmd beat => .ok (decodeCmd beat)
  | .step slot bs => decodeStep slot bs
  | .resp bs => decodeResp bs
  | .rst => .ok .reset

/-- The encoder, from the tables of 30_encoding R92, R94, R96 and R97. Byte 0 of an `RXF` form is ignored by the
decoder (R100); the encoder writes `0x81` there (log 11). -/
def encode : Instr → Wire
  | .rxfUnmasked l => .rxf [0x81, frameByte1 false l]
  | .rxfLen64 => .rxf [0x81, 0xFF]
  | .rxfLen16 => .rxf [0x81, 0xFE]
  | .rxfLen7 l => .rxf [0x81, frameByte1 true l]
  | .txfLen7 n => .txf [0x81, frameByte1 false n]
  | .txfLen16 hh ll => .txf [0x81, 0x7E, hh, ll]
  | .cmdReserved0 arg => .cmd (cmdBeat 0 arg)
  | .upgrade klen => .cmd (cmdBeat 1 klen)
  | .encode n => .cmd (cmdBeat 2 n)
  | .close arg => .cmd (cmdBeat 3 arg)
  | .hkByte x => .step .hk [x]
  | .respByte => .step .resp []
  | .rxB0 x => .step .b0 [x]
  | .rxB1 x => .step .b1 [x]
  | .rxX0 x => .step .x0 [x]
  | .rxX1 x => .step .x1 [x]
  | .rxK0 x => .step .k0 [x]
  | .rxK1 x => .step .k1 [x]
  | .rxK2 x => .step .k2 [x]
  | .rxK3 x => .step .k3 [x]
  | .rxPay x => .step .pay [x]
  | .unmLoad k => .step .unmLoad [k.k0, k.k1, k.k2, k.k3]
  | .unmByte x => .step .unmByte [x]
  | .txH0 => .step .h0 []
  | .txH1 => .step .h1 []
  | .txH2 => .step .h2 []
  | .txH3 => .step .h3 []
  | .txpByte x => .step .txp [x]
  | .hsresp token => .resp (respBytes token)
  | .reset => .rst

/-! ### The table's words as numbers -/

/-- Byte `i` of a number, byte 0 the least significant. -/
def byteOf (w i : Nat) : Byte := BitVec.ofNat 8 (w / 256 ^ i)

/-- The first `n` bytes of a number whose words are single bytes: byte 0 first. -/
def bytesFromLow (n w : Nat) : List Byte := (List.range n).map (byteOf w)

/-- The two bytes of a 16-bit word `{b0, byte1}`: `b0` is the more significant and comes first (R91). -/
def wordBytes16 (w : Nat) : List Byte := [byteOf w 1, byteOf w 0]

/-- The four bytes of a 32-bit `TXF.LEN16` header word: first byte most significant (R94). -/
def wordBytes32 (w : Nat) : List Byte := [byteOf w 3, byteOf w 2, byteOf w 1, byteOf w 0]

/-- The bytes of a 16-bit table word are those of a `TXF.LEN7` header (`0xFF80` / `0x8100`, and not marker 126 or 127:
R94). -/
def isTxfLen7Word (w : Nat) : Bool :=
  byteOf w 1 == 0x81#8 && !maskBit (byteOf w 0) && decide ((lenMarker (byteOf w 0)).toNat ≤ 125)

/-- The instruction a table row's word decodes to. The width tells the space: 0 bits is the signal `rst`, 8 bits a
byte in the decoder's idle phase, 16 bits a `TXF.LEN7` header or an `RXF` form, 32 bits a `TXF.LEN16` header, 34 or 40
bits a command beat, 48 and 64 bits an `RXF` form with the header bytes that follow, 1024 bits the response (log 10). -/
def decodeTableWord (nbits w : Nat) : Option Instr :=
  if nbits = 0 then (decode .rst).toOption
  else if nbits = 8 then (decode (.step .b0 [byteOf w 0])).toOption
  else if nbits = 16 then
    (if isTxfLen7Word w then decode (.txf (wordBytes16 w)) else decode (.rxf (wordBytes16 w))).toOption
  else if nbits = 32 then (decode (.txf (wordBytes32 w))).toOption
  else if nbits = 34 ∨ nbits = 40 then
    if w < 2 ^ 34 then (decode (.cmd (BitVec.ofNat 34 w))).toOption else none
  else if nbits = 48 ∨ nbits = 64 then (decode (.rxf (wordBytes16 w))).toOption
  else if nbits = 1024 then (decode (.resp (bytesFromLow 128 w))).toOption
  else none

end Sys2Proof
end

