-- ==== Sys2Proof/Machine/State.lean ====
section
/-! DEFINITION. The state of one instance: its registers (10_state R23 to R30), the host's side of its channels
(20_memory R61), its build parameters, and the model's own fields; the state after reset; why a step can stop. -/

namespace Sys2Proof.Machine

/-- `conn_state` (R23); the codes 6 and 7 are unrepresentable, as R23 asks. -/
inductive ConnState where
  | awaitingUpgrade | handshaken | readingFrame | processing | writingFrame | terminated
deriving DecidableEq, Repr

/-- `err`, the fault cause (R24, 60_exceptions R250). -/
inductive Err where
  | none | unsupportedLength | payloadTooLarge | maskBitClear
deriving DecidableEq, Repr

/-- `sgn_phase` (R26). -/
inductive SgnPhase where
  | idle | key | resp
deriving DecidableEq, Repr

/-- `dec_phase` (R27): which byte of the incoming frame is due. -/
inductive DecPhase where
  | b0 | b1 | x0 | x1 | k0 | k1 | k2 | k3 | pay
deriving DecidableEq, Repr

/-- `enc_phase` (R30). -/
inductive EncPhase where
  | idle | h0 | h1 | h2 | h3 | pay
deriving DecidableEq, Repr

/-- `sgn_h[0..4]`: the SHA-1 chaining value (R26). -/
structure Hash where
  h0 : Word32
  h1 : Word32
  h2 : Word32
  h3 : Word32
  h4 : Word32
deriving DecidableEq, Repr

/-- Five zero words. -/
def Hash.zero : Hash := ⟨0, 0, 0, 0, 0⟩

/-- The registers of one instance: "The state of one instance is exactly the registers of rules R23 to R30" (R21). -/
structure Regs where
  connState : ConnState
  err       : Err
  sgnPhase  : SgnPhase
  sgnKrem   : BitVec 32
  sgnH      : Hash
  sgnBuf    : Vector Byte 64
  sgnCnt    : BitVec 64
  sgnToken  : Vector Byte 28
  sgnRidx   : BitVec 8
  decPhase  : DecPhase
  decLen    : BitVec 16
  decRem    : BitVec 16
  decKey    : Key
  unmKey    : Key
  unmIdx    : BitVec 2
  encPhase  : EncPhase
  encN      : BitVec 32
  encRem    : BitVec 17
deriving DecidableEq, Repr

/-- The reset values of R34: `AWAITING_UPGRADE`, `NONE`, every phase idle, every data register zero. -/
def Regs.reset : Regs where
  connState := .awaitingUpgrade
  err       := .none
  sgnPhase  := .idle
  sgnKrem   := 0
  sgnH      := .zero
  sgnBuf    := Vector.replicate 64 0
  sgnCnt    := 0
  sgnToken  := Vector.replicate 28 0
  sgnRidx   := 0
  decPhase  := .b0
  decLen    := 0
  decRem    := 0
  decKey    := .zero
  unmKey    := .zero
  unmIdx    := 0
  encPhase  := .idle
  encN      := 0
  encRem    := 0

/-- A beat of `AI` (20_memory R61). -/
structure AiBeat where
  len : BitVec 16
  key : Key
deriving DecidableEq, Repr

/-- A beat of `AP` (20_memory R61). -/
structure ApBeat where
  masked : Byte
  clear  : Byte
  last   : Bool
deriving DecidableEq, Repr

/-- A beat of `TX` (20_memory R61). -/
structure TxBeat where
  data : Byte
  last : Bool
deriving DecidableEq, Repr

/-- The host's side of the seven channels and of `rst` (20_memory R61, R62): beats offered and not yet taken, the next
one first; beats emitted, the oldest first; whether the host accepts on each output; the level of `rst` (log 1). -/
structure Io where
  cmd     : List (BitVec 34)
  hk      : List Byte
  rx      : List Byte
  txp     : List Byte
  ai      : List AiBeat
  ap      : List ApBeat
  tx      : List TxBeat
  aiReady : Bool
  apReady : Bool
  txReady : Bool
  rst     : Bool
deriving DecidableEq, Repr

/-- DESIGN CHOICE (log 2): nothing offered, nothing emitted, the host accepting everywhere, `rst` released. -/
def Io.reset : Io where
  cmd     := []
  hk      := []
  rx      := []
  txp     := []
  ai      := []
  ap      := []
  tx      := []
  aiReady := true
  apReady := true
  txReady := true
  rst     := false

/-- One instance with its host's side. `params` are the build-time parameters of 00_scope R5, which no step writes
(10_state R35; log 5). The last three fields are the model's own (log 4, log 14). -/
structure State where
  regs      : Regs
  io        : Io
  params    : Params
  /-- for the next steps at which a `CLOSE` and a data beat are both offered: does the `CLOSE` go first -/
  arbiter   : List Bool
  /-- how many such steps the free value `Config.closeFirst` has decided -/
  arbTick   : Nat
  /-- the "result c" of a stand-alone `UNM.BYTE` (R192); no other operation reads or writes it -/
  unmResult : Option Byte
deriving DecidableEq, Repr

/-- The machine right after reset (70 R280), at the default parameters. -/
def State.reset : State where
  regs      := .reset
  io        := .reset
  params    := .default
  arbiter   := []
  arbTick   := 0
  unmResult := none

/-- Why the machine could stop: it cannot. Every fault of the spec is a state (60_exceptions R255), and a beat that
may not be taken is a hold (20_memory R74), so there is no constructor. -/
inductive Fault where
deriving DecidableEq, Repr

/-- Why an instruction has no meaning. -/
inductive Refusal where
  /-- raised by `exec`'s own arm of an instruction the model gives no meaning yet; safe. No arm does so now. -/
  | notModelled (mnemonic : String)
deriving DecidableEq, Repr

end Sys2Proof.Machine
end

