-- ==== Sys2Proof/Machine/Sha1.lean ====
section
/-! DEFINITION. SHA-1 as 40_handshake_signer states it (R122 to R126, general knowledge by the spec's own mark, log
21) and the streaming form the signer uses (R128, R129). -/

namespace Sys2Proof.Machine

/-- `rotl(x, k) = ((x << k) | (x >> (32 - k))) mod 2^32` (section 2). -/
def rotl (x : Word32) (k : Nat) : Word32 := (x <<< k) ||| (x >>> (32 - k))

/-- The initial chaining value `IV` (R123). -/
def shaIV : Hash := ⟨0x67452301, 0xEFCDAB89, 0x98BADCFE, 0x10325476, 0xC3D2E1F0⟩

/-- The round constants `K(t)` (R123). -/
def shaK (t : Nat) : Word32 :=
  if t ≤ 19 then 0x5A827999
  else if t ≤ 39 then 0x6ED9EBA1
  else if t ≤ 59 then 0x8F1BBCDC
  else 0xCA62C1D6

/-- The round functions `f(t, b, c, d)` (R123). -/
def shaF (t : Nat) (b c d : Word32) : Word32 :=
  if t ≤ 19 then (b &&& c) ||| (~~~b &&& d)
  else if t ≤ 39 then b ^^^ c ^^^ d
  else if t ≤ 59 then (b &&& c) ||| (b &&& d) ||| (c &&& d)
  else b ^^^ c ^^^ d

/-- `W[t] = {B[4t], B[4t+1], B[4t+2], B[4t+3]}`, big-endian (R124). -/
def blockWords : List Byte → List Word32
  | a :: b :: c :: d :: rest => (a ++ b ++ c ++ d) :: blockWords rest
  | _ => []

/-- `W[t]` from the earlier words, the latest first: `rotl(W[t-3] XOR W[t-8] XOR W[t-14] XOR W[t-16], 1)` (R124). -/
def nextWord (r : List Word32) : Word32 :=
  rotl (r.getD 2 0 ^^^ r.getD 7 0 ^^^ r.getD 13 0 ^^^ r.getD 15 0) 1

/-- `n` further schedule words in front of the earlier ones, the latest first. -/
def extendSchedule : Nat → List Word32 → List Word32
  | 0, r => r
  | n + 1, r => extendSchedule n (nextWord r :: r)

/-- The schedule `W[0] .. W[79]` of a 64-byte block (R124). -/
def schedule (b : List Byte) : List Word32 := (extendSchedule 64 (blockWords b).reverse).reverse

/-- One round of R125 on `(a, b, c, d, e)`. -/
def shaRound (t : Nat) (w : Word32) (v : Hash) : Hash :=
  ⟨rotl v.h0 5 + shaF t v.h1 v.h2 v.h3 + v.h4 + shaK t + w, v.h0, rotl v.h1 30, v.h2, v.h3⟩

/-- The rounds from `t` on, one per schedule word. -/
def shaRounds : Nat → List Word32 → Hash → Hash
  | _, [], v => v
  | t, w :: ws, v => shaRounds (t + 1) ws (shaRound t w v)

/-- `compress(h, B)` (R125). -/
def compress (h : Hash) (b : List Byte) : Hash :=
  let v := shaRounds 0 (schedule b) h
  ⟨h.h0 + v.h0, h.h1 + v.h1, h.h2 + v.h2, h.h3 + v.h3, h.h4 + v.h4⟩

/-- A 32-bit word, most significant byte first. -/
def wordBytes (w : Word32) : List Byte :=
  [w.extractLsb' 24 8, w.extractLsb' 16 8, w.extractLsb' 8 8, w.extractLsb' 0 8]

/-- The 20 bytes of a chaining value (R126). -/
def hashBytes (h : Hash) : List Byte :=
  wordBytes h.h0 ++ wordBytes h.h1 ++ wordBytes h.h2 ++ wordBytes h.h3 ++ wordBytes h.h4

/-- A 64-bit number, most significant byte first. -/
def bytes64 (n : BitVec 64) : List Byte :=
  [n.extractLsb' 56 8, n.extractLsb' 48 8, n.extractLsb' 40 8, n.extractLsb' 32 8,
   n.extractLsb' 24 8, n.extractLsb' 16 8, n.extractLsb' 8 8, n.extractLsb' 0 8]

/-- The length of the run `z` of R122: the least number of zero bytes that makes `l + 1 + |z|` congruent to 56
modulo 64. -/
def padZeros (l : Nat) : Nat := (55 + 64 - l % 64) % 64

/-- `pad(m)` (R122). -/
def pad (m : List Byte) : List Byte :=
  m ++ [0x80#8] ++ List.replicate (padZeros m.length) 0#8 ++ bytes64 (BitVec.ofNat 64 (8 * m.length))

/-- `h = compress(h, B_i)` over the first `n` blocks of a padded message (R126). -/
def foldBlocks : Nat → Hash → List Byte → Hash
  | 0, h, _ => h
  | n + 1, h, m => foldBlocks n (compress h (m.take 64)) (m.drop 64)

/-- `SHA1(m)` (R126). -/
def sha1 (m : List Byte) : List Byte :=
  hashBytes (foldBlocks ((pad m).length / 64) shaIV (pad m))

/-! ### Streaming form (R128, R129) -/

/-- The triple `(sgn_h, sgn_buf, sgn_cnt)` of R128. -/
structure ShaState where
  h   : Hash
  buf : Vector Byte 64
  cnt : BitVec 64
deriving DecidableEq, Repr

/-- 64 zero bytes. -/
def zeroBuf : Vector Byte 64 := Vector.replicate 64 0

/-- `init = (IV, 64 zero bytes, 0)` (R128). -/
def shaInit : ShaState := ⟨shaIV, zeroBuf, 0⟩

/-- The fill of the buffer, `sgn_cnt mod 64` (R26). -/
def ShaState.fill (st : ShaState) : Nat := st.cnt.toNat % 64

/-- The buffer with `x` at the fill position. -/
def ShaState.put (st : ShaState) (x : Byte) : Vector Byte 64 :=
  st.buf.set st.fill x (Nat.mod_lt _ (by decide))

/-- `absorb(st, x)` (R128). -/
def absorb (st : ShaState) (x : Byte) : ShaState :=
  if st.fill = 63 then ⟨compress st.h (st.put x).toList, zeroBuf, st.cnt + 1⟩
  else ⟨st.h, st.put x, st.cnt + 1⟩

/-- `absorb_all(st, s)` (R128). -/
def absorbAll (st : ShaState) (s : List Byte) : ShaState := s.foldl absorb st

/-- The chaining value `finish` ends with (R129). -/
def finishHash (st : ShaState) : Hash :=
  let r := st.fill
  let b := st.buf.toList.take r ++ [0x80#8] ++ List.replicate (63 - r) 0#8
  let len := bytes64 (8 * st.cnt)
  if 56 ≤ r then compress (compress st.h b) (List.replicate 56 0#8 ++ len)
  else compress st.h (b.take 56 ++ len)

/-- `finish(st)`: the 20-byte digest (R129). -/
def finish (st : ShaState) : List Byte := hashBytes (finishHash st)

end Sys2Proof.Machine
end

