-- ==== Sys2Proof/Machine/Base64.lean ====
section
/-! DEFINITION. base64 (40_handshake_signer R127, general knowledge by the spec's own mark, log 21) and the accept
token (R120, R121). -/

namespace Sys2Proof.Machine

/-- The alphabet `A64`: `A`-`Z`, `a`-`z`, `0`-`9`, `+`, `/` at 0-25, 26-51, 52-61, 62, 63 (R127). -/
def a64 (i : BitVec 6) : Byte :=
  let n := i.toNat
  if n ≤ 25 then BitVec.ofNat 8 (0x41 + n)
  else if n ≤ 51 then BitVec.ofNat 8 (0x61 + (n - 26))
  else if n ≤ 61 then BitVec.ofNat 8 (0x30 + (n - 52))
  else if n = 62 then 0x2B
  else 0x2F

/-- The pad character `=`. -/
def a64Pad : Byte := 0x3D

/-- The four characters of the 24-bit number `v` (R127). -/
def a64Group (a b c : Byte) : List Byte :=
  let v : BitVec 24 := a ++ b ++ c
  [a64 (v.extractLsb' 18 6), a64 (v.extractLsb' 12 6), a64 (v.extractLsb' 6 6), a64 (v.extractLsb' 0 6)]

/-- `base64` by the general rule of R127: groups of 3 bytes give 4 characters; a final group of 2 bytes gives 3
characters and `=`, of 1 byte 2 characters and `==`. -/
def base64 : List Byte → List Byte
  | a :: b :: c :: rest => a64Group a b c ++ base64 rest
  | [a, b] => (a64Group a b 0).take 3 ++ [a64Pad]
  | [a] => (a64Group a 0 0).take 2 ++ [a64Pad, a64Pad]
  | [] => []

/-- `GUID`: the 36 ASCII bytes of R121. -/
def guid : List Byte :=
  [0x32, 0x35, 0x38, 0x45, 0x41, 0x46, 0x41, 0x35, 0x2D, 0x45, 0x39, 0x31, 0x34, 0x2D, 0x34, 0x37, 0x44, 0x41] ++
  [0x2D, 0x39, 0x35, 0x43, 0x41, 0x2D, 0x43, 0x35, 0x41, 0x42, 0x30, 0x44, 0x43, 0x38, 0x35, 0x42, 0x31, 0x31]

/-- `accept(key) = base64(SHA1(key ++ GUID))` (R120). -/
def accept (key : List Byte) : List Byte := base64 (sha1 (key ++ guid))

/-- The token register's new value, `base64(finish(st))` (R132, R133). -/
def tokenOf (st : ShaState) : Vector Byte 28 := toToken (base64 (finish st))

/-- `HSRESP(token)[i]` for the 8-bit index register (R97); beyond 127 the spec gives no byte: a free value (log 7). -/
def respByteAt (token : Vector Byte 28) (i : BitVec 8) : Byte :=
  match (respBytes token)[i.toNat]? with
  | some b => b
  | none => Config.respByteBeyond i

end Sys2Proof.Machine
end

