-- ==== Sys2Proof/Machine/Flags.lean ====
section
/-! DEFINITION. Flags and status. The block has no condition codes (10_state R31); what a host can read are three
outputs that mirror sequencer state (10_state R25). -/

namespace Sys2Proof.Machine

/-- The code of `conn_state` (R23). -/
def ConnState.code : ConnState → BitVec 3
  | .awaitingUpgrade => 0
  | .handshaken => 1
  | .readingFrame => 2
  | .processing => 3
  | .writingFrame => 4
  | .terminated => 5

/-- The code of `err` (R24, R250). -/
def Err.code : Err → BitVec 2
  | .none => 0
  | .unsupportedLength => 1
  | .payloadTooLarge => 2
  | .maskBitClear => 3

/-- The code of `sgn_phase` (R26). -/
def SgnPhase.code : SgnPhase → BitVec 2
  | .idle => 0
  | .key => 1
  | .resp => 2

/-- The code of `dec_phase` (R27). -/
def DecPhase.code : DecPhase → BitVec 4
  | .b0 => 0
  | .b1 => 1
  | .x0 => 2
  | .x1 => 3
  | .k0 => 4
  | .k1 => 5
  | .k2 => 6
  | .k3 => 7
  | .pay => 8

/-- The code of `enc_phase` (R30). -/
def EncPhase.code : EncPhase → BitVec 3
  | .idle => 0
  | .h0 => 1
  | .h1 => 2
  | .h2 => 3
  | .h3 => 4
  | .pay => 5

/-- `st_state[2:0] = conn_state` (R25). -/
def stState (s : State) : BitVec 3 := s.regs.connState.code

/-- `st_err[1:0] = err` (R25). -/
def stErr (s : State) : BitVec 2 := s.regs.err.code

/-- `fault = (conn_state == TERMINATED) and (err != 0)` (R25, 60_exceptions R258). -/
def faultOut (s : State) : Bool := s.regs.connState == .terminated && s.regs.err != .none

end Sys2Proof.Machine
end

