-- ==== Sys2Proof/Machine/Operands.lean ====
section
/-! DEFINITION. Operands: which step is due by the phase registers (20_memory R63), which beat it would take, whether
its sink accepts (R62), and the bytes of a key and of an outgoing header. -/

namespace Sys2Proof.Machine

/-- The slot of the `STEP` table that is due, by `conn_state` and the phase of the unit it enables: the table of R63.
In `HANDSHAKEN` only frame byte 0 is served (log 16). -/
def slotOf (r : Regs) : Option Slot :=
  match r.connState with
  | .awaitingUpgrade =>
    match r.sgnPhase with
    | .idle => none
    | .key => some .hk
    | .resp => some .resp
  | .handshaken => if r.decPhase = .b0 then some .b0 else none
  | .readingFrame =>
    match r.decPhase with
    | .b0 => some .b0
    | .b1 => some .b1
    | .x0 => some .x0
    | .x1 => some .x1
    | .k0 => some .k0
    | .k1 => some .k1
    | .k2 => some .k2
    | .k3 => some .k3
    | .pay => some .pay
  | .processing => none
  | .writingFrame =>
    match r.encPhase with
    | .idle => none
    | .h0 => some .h0
    | .h1 => some .h1
    | .h2 => some .h2
    | .h3 => some .h3
    | .pay => some .txp
  | .terminated => none

/-- The slot is the one due. -/
def due (slot : Slot) (s : State) : Bool := slotOf s.regs == some slot

/-- A step in the slot may emit: the host accepts on the channel it emits on, if any (R62, R63). -/
def sinkAccepts (slot : Slot) (io : Io) : Bool :=
  match slot with
  | .hk => true
  | .resp => io.txReady
  | .b0 => true
  | .b1 => true
  | .x0 => true
  | .x1 => true
  | .k0 => true
  | .k1 => true
  | .k2 => true
  | .k3 => io.aiReady
  | .pay => io.apReady
  | .unmLoad => true
  | .unmByte => true
  | .h0 => io.txReady
  | .h1 => io.txReady
  | .h2 => io.txReady
  | .h3 => io.txReady
  | .txp => io.txReady

/-- The `HK` byte `x` is at the head. -/
def hkOffers (x : Byte) (io : Io) : Bool := io.hk.head? == some x

/-- The `RX` byte `x` is at the head. -/
def rxOffers (x : Byte) (io : Io) : Bool := io.rx.head? == some x

/-- The `TXP` byte `x` is at the head. -/
def txpOffers (x : Byte) (io : Io) : Bool := io.txp.head? == some x

/-- A beat that decodes to command `i` is at the head of `CMD`. -/
def cmdOffers (i : Instr) (io : Io) : Bool := io.cmd.head?.map decodeCmd == some i

/-- A step that takes `x` from `RX` in this slot is enabled: due, offered and its sink accepting (R62). -/
def rxEnabled (slot : Slot) (x : Byte) (s : State) : Bool :=
  due slot s && rxOffers x s.io && sinkAccepts slot s.io

/-- The step that takes frame byte 1 in this form is enabled: due, and the byte offered selects the form (R92). -/
def formEnabled (i : Instr) (s : State) : Bool :=
  due .b1 s && (s.io.rx.head?.map (selectForm s.params.unmaskedPolicy) == some i)

/-- A step that only emits is enabled in this slot. -/
def emitEnabled (slot : Slot) (s : State) : Bool := due slot s && sinkAccepts slot s.io

/-- `UPGRADE` may be taken: `AWAITING_UPGRADE` with `sgn_phase == S_IDLE` (R132). -/
def upgradeLegal (s : State) : Bool := s.regs.connState == .awaitingUpgrade && s.regs.sgnPhase == .idle

/-- `ENCODE` may be taken: `PROCESSING` (R201). -/
def encodeLegal (s : State) : Bool := s.regs.connState == .processing

/-- The command may be taken in this state (R96): `op = 0` never, `UPGRADE` and `ENCODE` in their states, `CLOSE` in
every state. A row that is no command is never taken from `CMD`. -/
def cmdLegal (i : Instr) (s : State) : Bool :=
  match i with
  | .upgrade _ => upgradeLegal s
  | .encode _ => encodeLegal s
  | .close _ => true
  | _ => false

/-- `K[j]` for a 2-bit index. -/
def keyAt (k : Key) (j : BitVec 2) : Byte :=
  if j = 0#2 then k.k0 else if j = 1#2 then k.k1 else if j = 2#2 then k.k2 else k.k3

/-- `(XH, XL)` of an outgoing header: `(n[15:8], n[7:0])` up to 65535, else `ENC_LEN16_AT_65536` (R99, R205). -/
def encLen16 (p : Params) (n : BitVec 32) : BitVec 16 :=
  if n.toNat ≤ 65535 then n.setWidth 16 else p.encLen16At65536

end Sys2Proof.Machine
end

