-- ==== Sys2Proof/Machine/Ops.lean ====
section
/-! DEFINITION. The shared operations: a guarded step, `Take` and `Emit` (00_scope R7), writing registers, fault entry
(60_exceptions R255), and the ends of a handshake and of frames. There is no return from a fault (60_exceptions R259):
only reset, beside it here, leaves `TERMINATED`. -/

namespace Sys2Proof.Machine

/-- A step that happens when it is enabled. When it is not, nothing is taken or emitted and the state is kept: a hold
(20_memory R63, R74; log 3). -/
def performIf (enabled : Bool) (s t : State) : Host.Outcome State Fault Refusal :=
  if enabled then .next t else .next s

/-! ### `Take` and `Emit` -/

/-- `Take(CMD)`. -/
def takeCmd (s : State) : State := { s with io := { s.io with cmd := s.io.cmd.tail } }

/-- `Take(HK)`. -/
def takeHk (s : State) : State := { s with io := { s.io with hk := s.io.hk.tail } }

/-- `Take(RX)`. -/
def takeRx (s : State) : State := { s with io := { s.io with rx := s.io.rx.tail } }

/-- `Take(TXP)`. -/
def takeTxp (s : State) : State := { s with io := { s.io with txp := s.io.txp.tail } }

/-- `Emit(AI, beat)`. -/
def emitAi (beat : AiBeat) (s : State) : State := { s with io := { s.io with ai := s.io.ai ++ [beat] } }

/-- `Emit(AP, beat)`. -/
def emitAp (beat : ApBeat) (s : State) : State := { s with io := { s.io with ap := s.io.ap ++ [beat] } }

/-- `Emit(TX, beat)`. -/
def emitTx (beat : TxBeat) (s : State) : State := { s with io := { s.io with tx := s.io.tx ++ [beat] } }

/-- The registers after the step. -/
def setRegs (r : Regs) (s : State) : State := { s with regs := r }

/-! ### Fault entry, `CLOSE`, reset -/

/-- `TERMINATED` with this cause, every phase idle and every data register zero (R224, R255). -/
def terminated (e : Err) : Regs := { Regs.reset with connState := .terminated, err := e }

/-- `raise E`: fault entry, "after that step's `Take` and instead of all its other writes" (R255). -/
def raise (e : Err) (s : State) : State := setRegs (terminated e) s

/-- `rst`: every register at its reset value; the host's beats are not touched (70 R280, R281). -/
def resetRegs (s : State) : State := setRegs Regs.reset s

/-- The host drives `rst` to `level`. When an asserted `rst` is released "every register holds the reset value" (70 R280),
whether or not a step ran in between; asserting it, and releasing what is not asserted, write no register (log 8). -/
def driveRst (level : Bool) (s : State) : State :=
  let t : State := { s with io := { s.io with rst := level } }
  if s.io.rst && !level then resetRegs t else t

/-! ### Ends of operations -/

/-- Handshake end (R136). -/
def handshakeEnd (r : Regs) : Regs :=
  { r with
    connState := .handshaken, sgnPhase := .idle, sgnToken := Vector.replicate 28 0, sgnH := .zero,
    sgnBuf := zeroBuf, sgnCnt := 0, sgnKrem := 0, sgnRidx := 0 }

/-- Frame end of `DEC` (R169). -/
def decFrameEnd (r : Regs) : Regs :=
  { r with
    connState := .processing, decPhase := .b0, decLen := 0, decRem := 0, decKey := .zero,
    unmKey := .zero, unmIdx := 0 }

/-- Frame end of `ENC` (R207). -/
def encFrameEnd (r : Regs) : Regs :=
  { r with connState := .readingFrame, encPhase := .idle, encN := 0, encRem := 0 }

/-! ### The signer's message -/

/-- The triple `st` of R128. -/
def shaOf (r : Regs) : ShaState := ⟨r.sgnH, r.sgnBuf, r.sgnCnt⟩

/-- The registers hold the triple `st`. -/
def setSha (st : ShaState) (r : Regs) : Regs := { r with sgnH := st.h, sgnBuf := st.buf, sgnCnt := st.cnt }

/-- The whole key has been absorbed in `st`: append `GUID`, finish, keep the token and the digest words, and begin the
response (R132, R133). -/
def signKey (st : ShaState) (r : Regs) : Regs :=
  let st2 := absorbAll st guid
  { setSha ⟨finishHash st2, zeroBuf, st2.cnt⟩ r with
    sgnToken := tokenOf st2, sgnKrem := 0, sgnRidx := 0, sgnPhase := .resp }

/-- `k` repetitions of a state change. -/
def repeatOp (f : State → State) : Nat → State → State
  | 0, s => s
  | k + 1, s => repeatOp f k (f s)

end Sys2Proof.Machine
end

