-- ==== Sys2Proof/Machine/Unmasker.lean ====
section
/-! DEFINITION. `UNM`, the payload unmasker (42_payload_unmasker). -/

namespace Sys2Proof.Machine

/-- `unmask(P, K)[i] = P[i] XOR K[i mod 4]` (R190). -/
def unmask (p : List Byte) (k : Key) : List Byte :=
  p.mapIdx fun i x => x ^^^ keyAt k (BitVec.ofNat 2 i)

/-- `UNM.LOAD key` on the registers (R191). -/
def unmLoad (key : Key) (r : Regs) : Regs := { r with unmKey := key, unmIdx := 0 }

/-- The clear byte of `UNM.BYTE x` (R192). -/
def unmClear (x : Byte) (r : Regs) : Byte := x ^^^ keyAt r.unmKey r.unmIdx

/-- `UNM.BYTE` on the registers: the index moves on, 3 to 0 (R192). -/
def unmAdvance (r : Regs) : Regs := { r with unmIdx := r.unmIdx + 1 }

/-- `UNM.LOAD` (R191): "no input makes `UNM` fault, hold or refuse" (R195). -/
def execUnmLoad (key : Key) (s : State) : Host.Outcome State Fault Refusal :=
  .next (setRegs (unmLoad key s.regs) s)

/-- `UNM.BYTE` (R192); alone, its result stands in `unmResult` (log 14). -/
def execUnmByte (x : Byte) (s : State) : Host.Outcome State Fault Refusal :=
  .next { setRegs (unmAdvance s.regs) s with unmResult := some (unmClear x s.regs) }

end Sys2Proof.Machine
end

