-- ==== Sys2Proof/Machine/Decoder.lean ====
section
/-! DEFINITION. `DEC`, the frame decoder (41_frame_decoder): the byte steps and the four forms selected at byte 1. -/

namespace Sys2Proof.Machine

/-- `RX.B0 x`: the byte is discarded (R161). -/
def execRxB0 (x : Byte) (s : State) : Host.Outcome State Fault Refusal :=
  performIf (rxEnabled .b0 x s) s
    (setRegs { s.regs with decPhase := .b1, connState := .readingFrame } (takeRx s))

/-! ### Byte 1 -/

/-- `RXF.LEN7` with marker `l` (R162). -/
def len7Op (l : BitVec 7) (s : State) : State :=
  setRegs { s.regs with decLen := l.setWidth 16, decRem := l.setWidth 16, decPhase := .k0 } (takeRx s)

/-- `RXF.LEN16` (R163). -/
def len16Op (s : State) : State := setRegs { s.regs with decPhase := .x0 } (takeRx s)

/-- `RXF.LEN64` (R164). -/
def len64Op (s : State) : State := raise .unsupportedLength (takeRx s)

/-- `RXF.UNMASKED` (R165). -/
def unmaskedOp (s : State) : State := raise .maskBitClear (takeRx s)

/-- `RXF.UNMASKED` (R165). -/
def execRxfUnmasked (l : BitVec 7) (s : State) : Host.Outcome State Fault Refusal :=
  performIf (formEnabled (.rxfUnmasked l) s) s (unmaskedOp s)

/-- `RXF.LEN64` (R164). -/
def execRxfLen64 (s : State) : Host.Outcome State Fault Refusal :=
  performIf (formEnabled .rxfLen64 s) s (len64Op s)

/-- `RXF.LEN16` (R163). -/
def execRxfLen16 (s : State) : Host.Outcome State Fault Refusal :=
  performIf (formEnabled .rxfLen16 s) s (len16Op s)

/-- `RXF.LEN7` (R162). -/
def execRxfLen7 (l : BitVec 7) (s : State) : Host.Outcome State Fault Refusal :=
  performIf (formEnabled (.rxfLen7 l) s) s (len7Op l s)

/-- What taking byte 1 does, by the form it selects (R92; D7's policy). -/
def byte1Op (x : Byte) (s : State) : State :=
  if s.params.unmaskedPolicy = .fault ∧ maskBit x = false then unmaskedOp s
  else if lenMarker x = 127#7 then len64Op s
  else if lenMarker x = 126#7 then len16Op s
  else len7Op (lenMarker x) s

/-- `RX.B1 x`: "semantics are the four RXF rows" (R92). -/
def execRxB1 (x : Byte) (s : State) : Host.Outcome State Fault Refusal :=
  performIf (rxEnabled .b1 x s) s (byte1Op x s)

/-! ### Extended length -/

/-- `RX.X0 x` (R173). -/
def execRxX0 (x : Byte) (s : State) : Host.Outcome State Fault Refusal :=
  performIf (rxEnabled .x0 x s) s
    (setRegs { s.regs with decLen := be16 x 0, decPhase := .x1 } (takeRx s))

/-- `RX.X1 x` (R174). -/
def execRxX1 (x : Byte) (s : State) : Host.Outcome State Fault Refusal :=
  performIf (rxEnabled .x1 x s) s
    (setRegs
      { s.regs with
        decLen := be16 (hiByte s.regs.decLen) x, decRem := be16 (hiByte s.regs.decLen) x, decPhase := .k0 }
      (takeRx s))

/-! ### Mask key -/

/-- `RX.K0 x` (R166). -/
def execRxK0 (x : Byte) (s : State) : Host.Outcome State Fault Refusal :=
  performIf (rxEnabled .k0 x s) s
    (setRegs { s.regs with decKey := { s.regs.decKey with k0 := x }, decPhase := .k1 } (takeRx s))

/-- `RX.K1 x` (R166). -/
def execRxK1 (x : Byte) (s : State) : Host.Outcome State Fault Refusal :=
  performIf (rxEnabled .k1 x s) s
    (setRegs { s.regs with decKey := { s.regs.decKey with k1 := x }, decPhase := .k2 } (takeRx s))

/-- `RX.K2 x` (R166). -/
def execRxK2 (x : Byte) (s : State) : Host.Outcome State Fault Refusal :=
  performIf (rxEnabled .k2 x s) s
    (setRegs { s.regs with decKey := { s.regs.decKey with k2 := x }, decPhase := .k3 } (takeRx s))

/-- The registers after key byte 3 (R167, R169, R191). -/
def k3Regs (x : Byte) (r : Regs) : Regs :=
  if r.decLen = 0 then decFrameEnd r
  else unmLoad { r.decKey with k3 := x } { r with decKey := { r.decKey with k3 := x }, decPhase := .pay }

/-- `RX.K3 x`: emits the `AI` beat (R167). -/
def execRxK3 (x : Byte) (s : State) : Host.Outcome State Fault Refusal :=
  performIf (rxEnabled .k3 x s) s
    (setRegs (k3Regs x s.regs) (emitAi ⟨s.regs.decLen, { s.regs.decKey with k3 := x }⟩ (takeRx s)))

/-! ### Payload -/

/-- The registers after a payload byte (R168, R169, R192). -/
def payRegs (r : Regs) : Regs :=
  if r.decRem = 1 then decFrameEnd r else { unmAdvance r with decRem := r.decRem - 1 }

/-- `RX.PAY x`: emits the `AP` beat (R168). -/
def execRxPay (x : Byte) (s : State) : Host.Outcome State Fault Refusal :=
  performIf (rxEnabled .pay x s) s
    (setRegs (payRegs s.regs) (emitAp ⟨x, unmClear x s.regs, s.regs.decRem == 1⟩ (takeRx s)))

end Sys2Proof.Machine
end

