-- ==== Sys2Proof/Machine/Encoder.lean ====
section
/-! DEFINITION. `ENC`, the frame encoder (43_frame_encoder): `ENCODE`, the header steps, the payload step, and the two
frame forms. -/

namespace Sys2Proof.Machine

/-- `ENCODE n` once taken (R201, R204). -/
def encodeOp (n : BitVec 32) (s : State) : State :=
  if 65536 < n.toNat then raise .payloadTooLarge s
  else setRegs
    { s.regs with encN := n, encRem := n.setWidth 17, encPhase := .h0, connState := .writingFrame } s

/-- `ENCODE n` (R201). -/
def execEncode (n : BitVec 32) (s : State) : Host.Outcome State Fault Refusal :=
  performIf (encodeLegal s && cmdOffers (.encode n) s.io) s (encodeOp n (takeCmd s))

/-! ### Header steps (R205) -/

/-- `E_H0`: the constant `0x81`. -/
def h0Op (s : State) : State := setRegs { s.regs with encPhase := .h1 } (emitTx ⟨0x81, false⟩ s)

/-- `E_H1`: the length when at most 125, else the marker 126; with `enc_n = 0` the frame ends here. -/
def h1Op (s : State) : State :=
  if s.regs.encN.toNat ≤ 125 then
    setRegs (if s.regs.encN = 0 then encFrameEnd s.regs else { s.regs with encPhase := .pay })
      (emitTx ⟨s.regs.encN.setWidth 8, s.regs.encN == 0⟩ s)
  else setRegs { s.regs with encPhase := .h2 } (emitTx ⟨0x7E, false⟩ s)

/-- `E_H2`: the high length byte `XH`. -/
def h2Op (s : State) : State :=
  setRegs { s.regs with encPhase := .h3 } (emitTx ⟨hiByte (encLen16 s.params s.regs.encN), false⟩ s)

/-- `E_H3`: the low length byte `XL`. -/
def h3Op (s : State) : State :=
  setRegs { s.regs with encPhase := .pay } (emitTx ⟨loByte (encLen16 s.params s.regs.encN), false⟩ s)

/-- `TX.H0` (R205). -/
def execTxH0 (s : State) : Host.Outcome State Fault Refusal :=
  performIf (emitEnabled .h0 s) s (h0Op s)

/-- `TX.H1` (R205). -/
def execTxH1 (s : State) : Host.Outcome State Fault Refusal :=
  performIf (emitEnabled .h1 s) s (h1Op s)

/-- `TX.H2` (R205). -/
def execTxH2 (s : State) : Host.Outcome State Fault Refusal :=
  performIf (emitEnabled .h2 s) s (h2Op s)

/-- `TX.H3` (R205). -/
def execTxH3 (s : State) : Host.Outcome State Fault Refusal :=
  performIf (emitEnabled .h3 s) s (h3Op s)

/-! ### Payload step -/

/-- The registers after an outgoing payload byte (R206, R207). -/
def txpRegs (r : Regs) : Regs :=
  if r.encRem = 1 then encFrameEnd r else { r with encRem := r.encRem - 1 }

/-- The payload byte passes unchanged (R206). -/
def txpOp (x : Byte) (s : State) : State :=
  setRegs (txpRegs s.regs) (emitTx ⟨x, s.regs.encRem == 1⟩ (takeTxp s))

/-- A step that takes `x` from `TXP` is enabled (R206). -/
def txpEnabled (x : Byte) (s : State) : Bool := emitEnabled .txp s && txpOffers x s.io

/-- `TXP.BYTE x` (R206). -/
def execTxpByte (x : Byte) (s : State) : Host.Outcome State Fault Refusal :=
  performIf (txpEnabled x s) s (txpOp x s)

/-! ### Whole frames (log 13) -/

/-- `TXP.BYTE` on these bytes, one after the other, as long as the step is enabled: the rest of a frame, or as much of
it as `TXP` offers. -/
def passPayload : List Byte → State → State
  | [], s => s
  | x :: rest, s => if txpEnabled x s then passPayload rest (txpOp x s) else s

/-- The payload part of a frame, on the bytes `TXP` offers. -/
def payloadOp (s : State) : State := passPayload s.io.txp s

/-- `TXF.LEN7`: the frame with `enc_n = n`: `TX.H0`, `TX.H1`, then `n` times `TXP.BYTE` (R202). -/
def execTxfLen7 (n : BitVec 7) (s : State) : Host.Outcome State Fault Refusal :=
  performIf (emitEnabled .h0 s && s.regs.encN == n.setWidth 32 && decide (n.toNat ≤ 125)) s
    (payloadOp (h1Op (h0Op s)))

/-- `TXF.LEN16`: the frame whose length bytes are `hh ll`: `TX.H0` to `TX.H3`, then `enc_n` times `TXP.BYTE` (R203). -/
def execTxfLen16 (hh ll : Byte) (s : State) : Host.Outcome State Fault Refusal :=
  performIf
    (emitEnabled .h0 s && decide (126 ≤ s.regs.encN.toNat) && decide (s.regs.encN.toNat ≤ 65536) &&
      encLen16 s.params s.regs.encN == be16 hh ll) s
    (payloadOp (h3Op (h2Op (h1Op (h0Op s)))))

end Sys2Proof.Machine
end

