-- ==== Sys2Proof/Machine/Sequencer.lean ====
section
/-! DEFINITION. `SEQ`, the connection sequencer (44_connection_sequencer): `CLOSE`, the reserved command, and reset. -/

namespace Sys2Proof.Machine

/-- `CLOSE` once taken: to `TERMINATED` with `err` not written and everything cleared; in `TERMINATED` no change
(R224). -/
def closeRegs (r : Regs) : Regs :=
  if r.connState = .terminated then r else terminated r.err

/-- `CLOSE arg` (R224). -/
def execClose (arg : BitVec 32) (s : State) : Host.Outcome State Fault Refusal :=
  performIf (cmdOffers (.close arg) s.io) s (setRegs (closeRegs s.regs) (takeCmd s))

/-- `CMD` with `op = 0`: "never taken in that state: there is no step. It stays offered" in every state (R96, R225). -/
def execCmdReserved0 (arg : BitVec 32) (s : State) : Host.Outcome State Fault Refusal :=
  performIf (cmdLegal (.cmdReserved0 arg) s && cmdOffers (.cmdReserved0 arg) s.io) s (takeCmd s)

/-- `RESET` (70_reset_and_hazards R280, R281). -/
def execReset (s : State) : Host.Outcome State Fault Refusal := .next (resetRegs s)

end Sys2Proof.Machine
end

