-- ==== Sys2Proof/Machine/Signer.lean ====
section
/-! DEFINITION. `SGN`, the handshake signer (40_handshake_signer): `UPGRADE`, `HK.BYTE`, `RESP.BYTE`, `HSRESP`. -/

namespace Sys2Proof.Machine

/-- The registers after `UPGRADE klen` (R132). -/
def upgradeRegs (klen : BitVec 32) (r : Regs) : Regs :=
  if klen = 0 then signKey shaInit r
  else { setSha shaInit r with sgnKrem := klen, sgnPhase := .key }

/-- `UPGRADE klen` (R132). -/
def execUpgrade (klen : BitVec 32) (s : State) : Host.Outcome State Fault Refusal :=
  performIf (upgradeLegal s && cmdOffers (.upgrade klen) s.io) s
    (setRegs (upgradeRegs klen s.regs) (takeCmd s))

/-- The registers after a key byte (R133). -/
def hkRegs (x : Byte) (r : Regs) : Regs :=
  let st1 := absorb (shaOf r) x
  if r.sgnKrem = 1 then signKey st1 r
  else { setSha st1 r with sgnKrem := r.sgnKrem - 1 }

/-- `HK.BYTE x` (R133). -/
def execHkByte (x : Byte) (s : State) : Host.Outcome State Fault Refusal :=
  performIf (due .hk s && hkOffers x s.io) s (setRegs (hkRegs x s.regs) (takeHk s))

/-- The registers after a response byte (R135, R136). -/
def respRegs (r : Regs) : Regs :=
  if r.sgnRidx = 127 then handshakeEnd r else { r with sgnRidx := r.sgnRidx + 1 }

/-- The response byte at `sgn_ridx`, emitted (R135). -/
def respOp (s : State) : State :=
  setRegs (respRegs s.regs)
    (emitTx ⟨respByteAt s.regs.sgnToken s.regs.sgnRidx, s.regs.sgnRidx == 127⟩ s)

/-- `RESP.BYTE` (R135). -/
def execRespByte (s : State) : Host.Outcome State Fault Refusal :=
  performIf (emitEnabled .resp s) s (respOp s)

/-- `HSRESP token`: the whole response, "Written once, synchronously" (R131): 128 steps `RESP.BYTE` from index 0, when
the token register holds this token (log 13). -/
def execHsresp (token : Vector Byte 28) (s : State) : Host.Outcome State Fault Refusal :=
  performIf (emitEnabled .resp s && s.regs.sgnRidx == 0 && s.regs.sgnToken == token) s
    (repeatOp respOp 128 s)

end Sys2Proof.Machine
end

