-- ==== Sys2Proof/Machine/Dispatch.lean ====
section
/-! DEFINITION. The one dispatch from an instruction to its meaning. -/

namespace Sys2Proof.Machine

def exec (i : Instr) (s : State) : Host.Outcome State Fault Refusal :=
  match i with
  | .rxfUnmasked l => Sys2Proof.Machine.execRxfUnmasked l s
  | .rxfLen64 => Sys2Proof.Machine.execRxfLen64 s
  | .rxfLen16 => Sys2Proof.Machine.execRxfLen16 s
  | .rxfLen7 l => Sys2Proof.Machine.execRxfLen7 l s
  | .txfLen7 n => Sys2Proof.Machine.execTxfLen7 n s
  | .txfLen16 hh ll => Sys2Proof.Machine.execTxfLen16 hh ll s
  | .cmdReserved0 arg => Sys2Proof.Machine.execCmdReserved0 arg s
  | .upgrade klen => Sys2Proof.Machine.execUpgrade klen s
  | .encode n => Sys2Proof.Machine.execEncode n s
  | .close arg => Sys2Proof.Machine.execClose arg s
  | .hkByte x => Sys2Proof.Machine.execHkByte x s
  | .respByte => Sys2Proof.Machine.execRespByte s
  | .rxB0 x => Sys2Proof.Machine.execRxB0 x s
  | .rxB1 x => Sys2Proof.Machine.execRxB1 x s
  | .rxX0 x => Sys2Proof.Machine.execRxX0 x s
  | .rxX1 x => Sys2Proof.Machine.execRxX1 x s
  | .rxK0 x => Sys2Proof.Machine.execRxK0 x s
  | .rxK1 x => Sys2Proof.Machine.execRxK1 x s
  | .rxK2 x => Sys2Proof.Machine.execRxK2 x s
  | .rxK3 x => Sys2Proof.Machine.execRxK3 x s
  | .rxPay x => Sys2Proof.Machine.execRxPay x s
  | .unmLoad key => Sys2Proof.Machine.execUnmLoad key s
  | .unmByte x => Sys2Proof.Machine.execUnmByte x s
  | .txH0 => Sys2Proof.Machine.execTxH0 s
  | .txH1 => Sys2Proof.Machine.execTxH1 s
  | .txH2 => Sys2Proof.Machine.execTxH2 s
  | .txH3 => Sys2Proof.Machine.execTxH3 s
  | .txpByte x => Sys2Proof.Machine.execTxpByte x s
  | .hsresp token => Sys2Proof.Machine.execHsresp token s
  | .reset => Sys2Proof.Machine.execReset s

end Sys2Proof.Machine
end

