-- ==== Sys2Proof/Machine/Fetch.lean ====
section
/-! DEFINITION. Which instruction is next: the command at the head of `CMD` when the state takes it, the step the
phases call for when its beat is offered and its sink accepts, or neither (20_memory R62, R63); the open order between a
`CLOSE` and a data beat; and how a table word is laid where the next step finds it. -/

namespace Sys2Proof.Machine

/-- The bytes a step in the slot takes from its input channel: one from `HK`, `RX` or `TXP`, none for a step that only
emits; `none` when no beat is offered (R62). -/
def operandOf (slot : Slot) (io : Io) : Option (List Byte) :=
  match slot with
  | .hk => io.hk.head?.map fun x => [x]
  | .resp => some []
  | .b0 => io.rx.head?.map fun x => [x]
  | .b1 => io.rx.head?.map fun x => [x]
  | .x0 => io.rx.head?.map fun x => [x]
  | .x1 => io.rx.head?.map fun x => [x]
  | .k0 => io.rx.head?.map fun x => [x]
  | .k1 => io.rx.head?.map fun x => [x]
  | .k2 => io.rx.head?.map fun x => [x]
  | .k3 => io.rx.head?.map fun x => [x]
  | .pay => io.rx.head?.map fun x => [x]
  | .unmLoad => none
  | .unmByte => none
  | .h0 => some []
  | .h1 => some []
  | .h2 => some []
  | .h3 => some []
  | .txp => io.txp.head?.map fun x => [x]

/-- The instruction of the bytes in the slot: at frame byte 1 the opcode map of R92 selects the form, elsewhere the slot
alone selects the row. -/
def decodeDue (pol : UnmaskedPolicy) (slot : Slot) (bs : List Byte) : Option Instr :=
  match slot, bs with
  | .b1, [x] => some (selectForm pol x)
  | slot, bs => (decodeStep slot bs).toOption

/-- The data step that is enabled, if any. -/
def dataDue (s : State) : Option Instr :=
  match slotOf s.regs with
  | none => none
  | some slot =>
    if sinkAccepts slot s.io then
      match operandOf slot s.io with
      | some bs => decodeDue s.params.unmaskedPolicy slot bs
      | none => none
    else none

/-- The command at the head of `CMD`, if this state takes it (R96, R225). -/
def cmdDue (s : State) : Option Instr :=
  match s.io.cmd with
  | [] => none
  | beat :: _ => if cmdLegal (decodeCmd beat) s then some (decodeCmd beat) else none

/-- Both a command (it can only be a `CLOSE`) and a data step are enabled: "either step may happen first" (R63). -/
def contested (s : State) : Bool := !s.io.rst && (cmdDue s).isSome && (dataDue s).isSome

/-- Whether the `CLOSE` goes first: the next entry of `arbiter`, or the free value when it is empty (log 4). -/
def closeFirst (s : State) : Bool :=
  match s.arbiter with
  | b :: _ => b
  | [] => Config.closeFirst s.arbTick

/-- A contested step uses up one choice. -/
def takeTurn (s : State) : State :=
  if contested s then
    match s.arbiter with
    | _ :: rest => { s with arbiter := rest }
    | [] => { s with arbTick := s.arbTick + 1 }
  else s

/-- The instruction the next step runs; `none` is a hold (70 R289). `rst` overrides everything (60 R257). -/
def fetch (s : State) : Option Instr :=
  if s.io.rst then some .reset
  else
    match cmdDue s, dataDue s with
    | none, d => d
    | some c, none => some c
    | some c, some d => if closeFirst s then some c else some d

/-! ### Laying an instruction where the next step finds it (log 9, log 10) -/

/-- The registers with the slot due, nothing else changed. -/
def regsDue (slot : Slot) (r : Regs) : Regs :=
  match slot with
  | .hk => { r with connState := .awaitingUpgrade, sgnPhase := .key }
  | .resp => { r with connState := .awaitingUpgrade, sgnPhase := .resp }
  | .b0 => { r with connState := .handshaken, decPhase := .b0 }
  | .b1 => { r with connState := .readingFrame, decPhase := .b1 }
  | .x0 => { r with connState := .readingFrame, decPhase := .x0 }
  | .x1 => { r with connState := .readingFrame, decPhase := .x1 }
  | .k0 => { r with connState := .readingFrame, decPhase := .k0 }
  | .k1 => { r with connState := .readingFrame, decPhase := .k1 }
  | .k2 => { r with connState := .readingFrame, decPhase := .k2 }
  | .k3 => { r with connState := .readingFrame, decPhase := .k3 }
  | .pay => { r with connState := .readingFrame, decPhase := .pay }
  | .unmLoad => r
  | .unmByte => r
  | .h0 => { r with connState := .writingFrame, encPhase := .h0 }
  | .h1 => { r with connState := .writingFrame, encPhase := .h1 }
  | .h2 => { r with connState := .writingFrame, encPhase := .h2 }
  | .h3 => { r with connState := .writingFrame, encPhase := .h3 }
  | .txp => { r with connState := .writingFrame, encPhase := .pay }

/-- `rst` released and no command offered, so that a data step is not contested. -/
def quiet (s : State) : State := { s with io := { s.io with rst := false, cmd := [] } }

/-- These bytes next on `RX`, in this slot. -/
def offerRxIn (slot : Slot) (bs : List Byte) (s : State) : State :=
  { quiet s with
    regs := regsDue slot s.regs, io := { (quiet s).io with rx := bs, aiReady := true, apReady := true } }

/-- This beat next on `CMD`, in a state that has these registers. -/
def offerCmdIn (beat : BitVec 34) (r : Regs) (s : State) : State :=
  { quiet s with regs := r, io := { (quiet s).io with cmd := [beat] }, arbiter := true :: s.arbiter }

/-- This slot, which only emits, due and accepted. -/
def emitIn (slot : Slot) (r : Regs) (s : State) : State :=
  { quiet s with regs := regsDue slot r, io := { (quiet s).io with txReady := true } }

/-- An outgoing frame of `n` bytes about to start. -/
def frameStart (n : BitVec 32) (s : State) : State :=
  emitIn .h0 { s.regs with encN := n, encRem := n.setWidth 17 } s

/-- The state with the instruction next. For an `RXF` form `follow` are the header bytes after byte 1. `UNM.LOAD` and
`UNM.BYTE` are no steps (they happen inside `RX.K3` and `RX.PAY`), so nothing is laid for them. -/
def place (i : Instr) (follow : List Byte) (s : State) : State :=
  match i with
  | .rxfUnmasked l => offerRxIn .b1 (frameByte1 false l :: follow) s
  | .rxfLen64 => offerRxIn .b1 (0xFF :: follow) s
  | .rxfLen16 => offerRxIn .b1 (0xFE :: follow) s
  | .rxfLen7 l => offerRxIn .b1 (frameByte1 true l :: follow) s
  | .txfLen7 n => frameStart (n.setWidth 32) s
  | .txfLen16 hh ll =>
    if 126 ≤ (be16 hh ll).toNat then frameStart ((be16 hh ll).setWidth 32) s
    else frameStart 65536 { s with params := { s.params with encLen16At65536 := be16 hh ll } }
  | .cmdReserved0 arg => offerCmdIn (cmdBeat 0 arg) s.regs s
  | .upgrade klen =>
    offerCmdIn (cmdBeat 1 klen) { s.regs with connState := .awaitingUpgrade, sgnPhase := .idle } s
  | .encode n => offerCmdIn (cmdBeat 2 n) { s.regs with connState := .processing } s
  | .close arg => offerCmdIn (cmdBeat 3 arg) s.regs s
  | .hkByte x => { quiet s with regs := regsDue .hk s.regs, io := { (quiet s).io with hk := [x] } }
  | .respByte => emitIn .resp s.regs s
  | .rxB0 x => offerRxIn .b0 [x] s
  | .rxB1 x => offerRxIn .b1 [x] s
  | .rxX0 x => offerRxIn .x0 [x] s
  | .rxX1 x => offerRxIn .x1 [x] s
  | .rxK0 x => offerRxIn .k0 [x] s
  | .rxK1 x => offerRxIn .k1 [x] s
  | .rxK2 x => offerRxIn .k2 [x] s
  | .rxK3 x => offerRxIn .k3 [x] s
  | .rxPay x => offerRxIn .pay [x] s
  | .unmLoad _ => s
  | .unmByte _ => s
  | .txH0 => emitIn .h0 s.regs s
  | .txH1 => emitIn .h1 s.regs s
  | .txH2 => emitIn .h2 s.regs s
  | .txH3 => emitIn .h3 s.regs s
  | .txpByte x =>
    { quiet s with
      regs := regsDue .txp s.regs, io := { (quiet s).io with txp := [x], txReady := true } }
  | .hsresp token => emitIn .resp { s.regs with sgnToken := token, sgnRidx := 0 } s
  | .reset => { s with io := { s.io with rst := true } }

/-- The header bytes after byte 1 that a table word gives, zeros where it gives none: key bytes after `RXF.LEN7`,
length and key bytes after `RXF.LEN16`. -/
def followBytes (nbits w : Nat) : List Byte :=
  if nbits = 48 then [byteOf w 2, byteOf w 3, byteOf w 4, byteOf w 5]
  else if nbits = 64 then [byteOf w 3, byteOf w 2, byteOf w 4, byteOf w 5, byteOf w 6, byteOf w 7]
  else [0, 0, 0, 0, 0, 0]

/-- The state in which the next step runs the instruction of a table word; unchanged when the word decodes to none. -/
def placeWord (nbits w : Nat) (s : State) : State :=
  match decodeTableWord nbits w with
  | some i => place i (followBytes nbits w) s
  | none => s

end Sys2Proof.Machine
end

