-- ==== Sys2Proof/Machine/Step.lean ====
section
/-! DEFINITION. One step of an instance, and a table word laid where the next step runs it. -/

namespace Sys2Proof.Machine

/-- One step: the enabled instruction is executed; with none enabled the block holds and keeps its state (00_scope R8,
20_memory R74; log 3). Around `exec` a step only uses up the choice of a contested order (`takeTurn`). -/
def step (s : State) : Host.Outcome State Fault Refusal :=
  match fetch s with
  | some i => exec i (takeTurn s)
  | none => .next s

/-- The state with the instruction of a table word next (log 9, log 10). -/
def State.withFetchWord (s : State) (nbits w : Nat) : State := placeWord nbits w s

end Sys2Proof.Machine
end

