-- ==== Sys2Proof/Machine/Frames.lean ====
section
/-! DEFINITION. The functions whole frames compute: `decode(s)` (41_frame_decoder R172), `enc_header(n)` and
`encode(P)` (43_frame_encoder R200), and the client simulation (R210). The steps do not call them; claims about runs do. -/

namespace Sys2Proof.Machine

/-- What `decode(s)` returns (R172). -/
inductive FrameResult where
  | needMore
  | fault (e : Err)
  | frame (len : BitVec 16) (key : Key) (masked rest : List Byte)
deriving DecidableEq, Repr

/-- The part of R172 after the length is known: `s` begins with the four key bytes. -/
def decodeBody (len : BitVec 16) : List Byte → FrameResult
  | k0 :: k1 :: k2 :: k3 :: tail =>
    if tail.length < len.toNat then .needMore
    else .frame len ⟨k0, k1, k2, k3⟩ (tail.take len.toNat) (tail.drop len.toNat)
  | _ => .needMore

/-- `decode(s)` (R172), with the policy of 92_eei_decisions D7. -/
def decodeFrame (pol : UnmaskedPolicy) : List Byte → FrameResult
  | _ :: b1 :: tail =>
    if pol = .fault ∧ maskBit b1 = false then .fault .maskBitClear
    else if lenMarker b1 = 127#7 then .fault .unsupportedLength
    else if lenMarker b1 = 126#7 then
      match tail with
      | xh :: xl :: body => decodeBody (be16 xh xl) body
      | _ => .needMore
    else decodeBody ((lenMarker b1).setWidth 16) tail
  | _ => .needMore

/-- `enc_header(n)`; `none` is "fails with `PayloadTooLargeError`" (R200). -/
def encHeader (p : Params) (n : Nat) : Option (List Byte) :=
  if n ≤ 125 then some [0x81, BitVec.ofNat 8 n]
  else if n ≤ 65535 then some [0x81, 0x7E, BitVec.ofNat 8 (n / 256), BitVec.ofNat 8 n]
  else if n = 65536 then some [0x81, 0x7E, hiByte p.encLen16At65536, loByte p.encLen16At65536]
  else none

/-- `encode(P) = enc_header(|P|) ++ P` (R200). -/
def encodeFrame (p : Params) (payload : List Byte) : Option (List Byte) :=
  (encHeader p payload.length).map (· ++ payload)

/-- A run of `TX` beats that is one write: `last = 1` on the final beat alone (20_memory R72). -/
def txRun : List Byte → List TxBeat
  | [] => []
  | [x] => [⟨x, true⟩]
  | x :: rest => ⟨x, false⟩ :: txRun rest

/-- The `AP` beats of a frame with this masked payload and key, from payload index `i` on: `clear` is the unmasked
byte and `last` marks the final one (R168). -/
def apRun (k : Key) : Nat → List Byte → List ApBeat
  | _, [] => []
  | i, [x] => [⟨x, x ^^^ keyAt k (BitVec.ofNat 2 i), true⟩]
  | i, x :: rest => ⟨x, x ^^^ keyAt k (BitVec.ofNat 2 i), false⟩ :: apRun k (i + 1) rest

/-- The client simulation of R210 on a payload `t` and key `k`, for an encoder with these parameters: set the mask bit of
`enc_header(|t|)`, insert the key, mask the payload. -/
def clientFrame (p : Params) (first : Byte) (t : List Byte) (k : Key) : Option (List Byte) :=
  match encHeader p t.length with
  | some (_ :: h1 :: ext) => some (first :: (h1 ||| 0x80) :: ext ++ [k.k0, k.k1, k.k2, k.k3] ++ unmask t k)
  | _ => none

end Sys2Proof.Machine
end

