-- ==== Sys2Proof/Machine/Instances.lean ====
section
/-! DEFINITION. Several independent instances (44_connection_sequencer R229): each with its own copy of all state and
all channels, nothing shared. -/

namespace Sys2Proof.Machine

/-- The instances, each under its number. -/
structure System where
  instances : List State
deriving DecidableEq, Repr

/-- `N_CONN` instances right after reset. -/
def System.reset (n : Nat) : System := ⟨List.replicate n State.reset⟩

/-- One step of instance `k`; the others keep their state. An instance that does not exist does nothing. -/
def System.stepAt (k : Nat) (y : System) : System :=
  match y.instances[k]? with
  | some s =>
    match step s with
    | .next t => ⟨y.instances.set k t⟩
    | .fault _ => y
    | .refused _ => y
  | none => y

end Sys2Proof.Machine
end

