-- ==== Sys2Proof/Machine/Host.lean ====
section
/-! DEFINITION. The host's moves (44_connection_sequencer R230), between steps of the block, and the pseudo-instructions
of the textual notation (30_encoding R102) as lists of moves. -/

namespace Sys2Proof.Machine

/-- An input channel. -/
inductive InChannel where
  | cmd | hk | rx | txp
deriving DecidableEq, Repr

/-- An output channel. -/
inductive OutChannel where
  | ai | ap | tx
deriving DecidableEq, Repr

/-- One thing the host may do (R230). The one that changes registers is the release of an asserted `rst`, after which
they hold their reset values (70 R280). -/
inductive HostMove where
  /-- offer a `CMD` beat behind those already offered -/
  | offerCmd (beat : BitVec 34)
  /-- offer a byte on `HK` -/
  | offerHk (x : Byte)
  /-- offer a byte on `RX` -/
  | offerRx (x : Byte)
  /-- offer a byte on `TXP` -/
  | offerTxp (x : Byte)
  /-- accept, or stop accepting, on an output channel -/
  | accept (ch : OutChannel) (ready : Bool)
  /-- assert or release `rst` (70 R280, R230: "at any time") -/
  | setRst (level : Bool)
  /-- withdraw what is offered on a channel; only while `rst` is asserted (70 R281; otherwise an offered beat "does not
  change until taken", 20_memory R62) -/
  | withdraw (ch : InChannel)
  /-- settle the order of a later contested step (not the host's by the spec, which leaves it open; log 4) -/
  | order (closeFirst : Bool)
deriving DecidableEq, Repr

/-- Whether the host accepts on the channel. -/
def setReady (ch : OutChannel) (b : Bool) (io : Io) : Io :=
  match ch with
  | .ai => { io with aiReady := b }
  | .ap => { io with apReady := b }
  | .tx => { io with txReady := b }

/-- Nothing offered on the channel. -/
def clearChannel (ch : InChannel) (io : Io) : Io :=
  match ch with
  | .cmd => { io with cmd := [] }
  | .hk => { io with hk := [] }
  | .rx => { io with rx := [] }
  | .txp => { io with txp := [] }

/-- The state after a move of the host. -/
def hostMove (m : HostMove) (s : State) : State :=
  match m with
  | .offerCmd beat => { s with io := { s.io with cmd := s.io.cmd ++ [beat] } }
  | .offerHk x => { s with io := { s.io with hk := s.io.hk ++ [x] } }
  | .offerRx x => { s with io := { s.io with rx := s.io.rx ++ [x] } }
  | .offerTxp x => { s with io := { s.io with txp := s.io.txp ++ [x] } }
  | .accept ch b => { s with io := setReady ch b s.io }
  | .setRst b => driveRst b s
  | .withdraw ch => if s.io.rst then { s with io := clearChannel ch s.io } else s
  | .order b => { s with arbiter := s.arbiter ++ [b] }

/-- Several moves, first one first. -/
def hostMoves (ms : List HostMove) (s : State) : State := ms.foldl (fun t m => hostMove m t) s

/-- `UPGRADE "text"` of R102: `CMD UPGRADE |text|`, then `HK` with the bytes of `text`. -/
def hostUpgrade (text : List Byte) : List HostMove :=
  .offerCmd (cmdBeat 1 (BitVec.ofNat 32 text.length)) :: text.map .offerHk

/-- `SEND b b ...` of R102: `CMD ENCODE <count>`, then `TXP` with the bytes. -/
def hostSend (bs : List Byte) : List HostMove :=
  .offerCmd (cmdBeat 2 (BitVec.ofNat 32 bs.length)) :: bs.map .offerTxp

/-- `FRAME first key=.. payload=..` of R102: `RX` with the bytes of the masked frame, its length field the shortest that
fits. R102 has forms up to 65535 payload bytes; for more there is no frame and no move. -/
def hostFrame (first : Byte) (k : Key) (payload : List Byte) : List HostMove :=
  if payload.length ≤ 65535 then
    match clientFrame .default first payload k with
    | some bs => bs.map .offerRx
    | none => []
  else []

end Sys2Proof.Machine
end

