-- ==== Sys2Proof/Safety.lean ====
section
/-! DEFINITION. What counts as a safe state and a reachable one: the invariants of 10_state R36, in the form every step
keeps, what the block waits for, and the terms claims about runs use. -/

namespace Sys2Proof.Machine

/-! ### The items of R36 -/

/-- Item 1: `sgn_phase != S_IDLE` implies `AWAITING_UPGRADE`. -/
abbrev signerOnlyWhileAwaiting (r : Regs) : Prop := r.sgnPhase ≠ .idle → r.connState = .awaitingUpgrade

/-- Item 2: `dec_phase != D_B0` implies `READING_FRAME`. -/
abbrev decoderOnlyWhileReading (r : Regs) : Prop := r.decPhase ≠ .b0 → r.connState = .readingFrame

/-- Item 3: `enc_phase != E_IDLE` if and only if `WRITING_FRAME`. -/
abbrev encoderIffWriting (r : Regs) : Prop := r.encPhase ≠ .idle ↔ r.connState = .writingFrame

/-- Item 4: in `TERMINATED` every phase is idle and every data register but `err` is zero. -/
abbrev terminatedIsClear (r : Regs) : Prop := r.connState = .terminated → r = terminated r.err

/-- Item 5: `err != 0` implies `TERMINATED`. -/
abbrev errOnlyTerminated (r : Regs) : Prop := r.err ≠ .none → r.connState = .terminated

/-- Item 6: in `D_PAY`, `1 <= dec_rem <= dec_len`, `unm_idx == (dec_len - dec_rem) mod 4` and `unm_key == dec_key`. -/
abbrev payloadCounts (r : Regs) : Prop :=
  r.decPhase = .pay →
    1 ≤ r.decRem.toNat ∧ r.decRem.toNat ≤ r.decLen.toNat ∧
    r.unmIdx.toNat = (r.decLen.toNat - r.decRem.toNat) % 4 ∧ r.unmKey = r.decKey

/-- Item 7: in `E_PAY`, `1 <= enc_rem <= enc_n <= 65536`. -/
abbrev replyCounts (r : Regs) : Prop :=
  r.encPhase = .pay → 1 ≤ r.encRem.toNat ∧ r.encRem.toNat ≤ r.encN.toNat ∧ r.encN.toNat ≤ 65536

/-- Item 8: in `E_H2` and `E_H3`, `126 <= enc_n <= 65536`. -/
abbrev longHeaderRange (r : Regs) : Prop :=
  r.encPhase = .h2 ∨ r.encPhase = .h3 → 126 ≤ r.encN.toNat ∧ r.encN.toNat ≤ 65536

/-- Item 9, the counts: in `S_KEY`, `sgn_krem >= 1`; in `S_RESP`, `sgn_ridx <= 127`. -/
abbrev signerCounts (r : Regs) : Prop :=
  (r.sgnPhase = .key → 1 ≤ r.sgnKrem.toNat) ∧ (r.sgnPhase = .resp → r.sgnRidx.toNat ≤ 127)

/-- The registers of `DEC` and `UNM` are zero. -/
abbrev decoderClear (r : Regs) : Prop :=
  r.decKey = .zero ∧ r.unmKey = .zero ∧ r.decLen = 0 ∧ r.decRem = 0 ∧ r.unmIdx = 0

/-- The registers of `ENC` are zero. -/
abbrev encoderClear (r : Regs) : Prop := r.encN = 0 ∧ r.encRem = 0

/-- The registers of `SGN` are zero. -/
abbrev signerClear (r : Regs) : Prop :=
  r.sgnKrem = 0 ∧ r.sgnH = .zero ∧ r.sgnBuf = Vector.replicate 64 0 ∧ r.sgnCnt = 0 ∧
  r.sgnToken = Vector.replicate 28 0 ∧ r.sgnRidx = 0

/-- Item 10: in `AWAITING_UPGRADE`, `HANDSHAKEN` and `PROCESSING` with `sgn_phase == S_IDLE` the registers of `DEC`, `UNM`
and `ENC` and the token are zero. -/
abbrev idleIsClear (r : Regs) : Prop :=
  (r.connState = .awaitingUpgrade ∨ r.connState = .handshaken ∨ r.connState = .processing) →
  r.sgnPhase = .idle →
    decoderClear r ∧ encoderClear r ∧ r.sgnToken = Vector.replicate 28 0

/-- The items of R36 that speak of the registers alone. -/
structure R36 (r : Regs) : Prop where
  item1 : signerOnlyWhileAwaiting r
  item2 : decoderOnlyWhileReading r
  item3 : encoderIffWriting r
  item4 : terminatedIsClear r
  item5 : errOnlyTerminated r
  item6 : payloadCounts r
  item7 : replyCounts r
  item8 : longHeaderRange r
  item9 : signerCounts r
  item10 : idleIsClear r

/-- What must be added to R36 for a step to keep it: between the length and the payload `dec_rem` is `dec_len`; before
the payload `enc_rem` is `enc_n`; a unit that is not at work has zero registers. -/
structure Between (r : Regs) : Prop where
  keyPhase : (r.decPhase = .k0 ∨ r.decPhase = .k1 ∨ r.decPhase = .k2 ∨ r.decPhase = .k3) → r.decRem = r.decLen
  headerPhase : (r.encPhase = .h0 ∨ r.encPhase = .h1 ∨ r.encPhase = .h2 ∨ r.encPhase = .h3) →
    r.encRem.toNat = r.encN.toNat ∧ r.encN.toNat ≤ 65536
  decoderIdle : r.connState ≠ .readingFrame → decoderClear r
  encoderIdle : r.connState ≠ .writingFrame → encoderClear r
  signerDone : r.connState ≠ .awaitingUpgrade → signerClear r
  signerIdle : r.sgnPhase = .idle → signerClear r

/-- The register invariant: R36 with what makes it inductive. -/
structure RegsInv (r : Regs) : Prop where
  r36 : R36 r
  between : Between r

/-- The key bytes taken from `HK` since the last `UPGRADE`, after a step that ran this instruction: what R134 calls
`k`. It is no state of the machine: claims carry it beside the state. -/
def keyAfter (k : List Byte) (i : Option Instr) : List Byte :=
  match i with
  | some (.upgrade _) => []
  | some (.hkByte x) => k ++ [x]
  | _ => k

/-- Item 9, the values, for the key bytes `k` taken so far: in `S_KEY` the triple is what absorbing `k` gives, and `k`
and the bytes to come are fewer than `2^32`; in `S_RESP` the token is `accept(k)`. -/
structure SignerInv (k : List Byte) (r : Regs) : Prop where
  keyBytes : r.sgnPhase = .key →
    k.length + r.sgnKrem.toNat < 2 ^ 32 ∧ 1 ≤ r.sgnKrem.toNat ∧ shaOf r = absorbAll shaInit k
  token : r.sgnPhase = .resp → k.length < 2 ^ 32 ∧ r.sgnToken.toList = accept k

/-! ### What the block waits for -/

/-- A command out of place (44 R225): `op = 0`, `UPGRADE` when not `AWAITING_UPGRADE` with `sgn_phase == S_IDLE`, `ENCODE`
when not `PROCESSING`. -/
abbrev outOfPlace (r : Regs) (beat : BitVec 34) : Prop :=
  beat.toNat / 2 ^ 32 = 0 ∨
  (beat.toNat / 2 ^ 32 = 1 ∧ ¬(r.connState = .awaitingUpgrade ∧ r.sgnPhase = .idle)) ∨
  (beat.toNat / 2 ^ 32 = 2 ∧ r.connState ≠ .processing)

/-- No command can be taken: `CMD` is empty, or its head is out of place and everything waits behind it (44 R225). -/
abbrev noCommandTaken (s : State) : Prop := s.io.cmd = [] ∨ outOfPlace s.regs (s.io.cmd.headD 0)

/-- The rows of 70 R289: the state's beat is not offered, or its sink does not accept, or it waits for a command alone;
and `TERMINATED`, which waits for nothing. -/
abbrev waiting (s : State) : Prop :=
  (s.regs.connState = .awaitingUpgrade ∧ s.regs.sgnPhase = .idle) ∨
  (s.regs.connState = .awaitingUpgrade ∧ s.regs.sgnPhase = .key ∧ s.io.hk = []) ∨
  (s.regs.connState = .awaitingUpgrade ∧ s.regs.sgnPhase = .resp ∧ s.io.txReady = false) ∨
  ((s.regs.connState = .handshaken ∨ s.regs.connState = .readingFrame) ∧ s.io.rx = []) ∨
  (s.regs.connState = .readingFrame ∧ s.regs.decPhase = .k3 ∧ s.io.aiReady = false) ∨
  (s.regs.connState = .readingFrame ∧ s.regs.decPhase = .pay ∧ s.io.apReady = false) ∨
  s.regs.connState = .processing ∨
  (s.regs.connState = .writingFrame ∧ s.io.txReady = false) ∨
  (s.regs.connState = .writingFrame ∧ s.regs.encPhase = .pay ∧ s.io.txp = []) ∨
  s.regs.connState = .terminated

/-! ### Runs -/

/-- No instruction is enabled: the block holds (70 R289), or its run has ended (44 R231). -/
def holds (s : State) : Bool := (fetch s).isNone

/-- `k` steps of the block with no move of the host between them. -/
def runs (k : Nat) (s t : State) : Prop :=
  match k with
  | 0 => s = t
  | k + 1 => ∃ u, step s = .next u ∧ runs k u t

/-- What steps and moves of the host can reach from reset, at any parameters (00_scope R8, R20), with the key bytes
taken since the last `UPGRADE`. -/
inductive Reachable : List Byte → State → Prop where
  | start (p : Params) : Reachable [] { State.reset with params := p }
  | step {k : List Byte} {s t : State} (hs : Reachable k s) (h : step s = .next t) :
      Reachable (keyAfter k (fetch s)) t
  | host {k : List Byte} {s : State} (m : HostMove) (hs : Reachable k s) : Reachable k (hostMove m s)

end Sys2Proof.Machine
end

