-- ==== Sys2Proof/Certificates/Slice0/Obligations.lean ====
section
/-! DEFINITION. The statements for the provers: what the numbered rules of spec/ say an instruction, a step or a run
does. Hypotheses speak of the state's registers and channels, not of the model's own guards. -/

open Sys2Proof Sys2Proof.Machine

/-! ### Encodings -/

/-- 30_encoding R92, R94, R96, R101: words written out from the spec's encodings decode to the instruction they stand
for, one or more of each encoding space. -/
def Obligations.WrittenWordsDecode : Prop :=
  decode (.rxf [0x81, 0x87]) = .ok (.rxfLen7 7) ∧
  decode (.rxf [0x88, 0xFE]) = .ok .rxfLen16 ∧
  decode (.rxf [0x00, 0xFF]) = .ok .rxfLen64 ∧
  decode (.rxf [0x81, 0x7F]) = .ok (.rxfUnmasked 127) ∧
  decode (.txf [0x81, 0x7D]) = .ok (.txfLen7 125) ∧
  decode (.txf [0x81, 0x7E, 0x01, 0x2C]) = .ok (.txfLen16 0x01 0x2C) ∧
  decode (.cmd 0x100000018#34) = .ok (.upgrade 24) ∧
  decode (.cmd 0x200000007#34) = .ok (.encode 7) ∧
  decode (.cmd 0x3FFFFFFFF#34) = .ok (.close 0xFFFFFFFF) ∧
  decode (.step .k3 [0x3D]) = .ok (.rxK3 0x3D) ∧
  decode (.txf [0x80, 0x00]) = .error .firstByteNotText ∧
  decode (.txf [0x81, 0x7F]) = .error .marker127

/-- Decoding the encoding of a well-formed instruction gives it back, for every instruction and every operand. -/
def Obligations.DecodeOfEncode : Prop :=
  ∀ i : Instr, i.wf = true → decode (encode i) = .ok i

/-- 30_encoding R92, R100: over `{b0, byte1}` the masks and matches of the four rows, tried in order, select the form;
they are exhaustive; byte 0 has no effect; and what a form's row carries of byte 1 determines the byte (R98: `L = byte1
- 128` under `M = 1`). -/
def Obligations.FormsFollowTheirMasks : Prop :=
  ∀ (b0 x : Byte) (rest : List Byte),
    decodeRxf .fault (b0 :: x :: rest) =
      .ok (if rowUnmasked.hits (b0 ++ x) then .rxfUnmasked (BitVec.ofNat 7 x.toNat)
           else if rowLen64.hits (b0 ++ x) then .rxfLen64
           else if rowLen16.hits (b0 ++ x) then .rxfLen16
           else .rxfLen7 (BitVec.ofNat 7 (x.toNat - 128)), rest) ∧
    (rowUnmasked.hits (b0 ++ x) = false → rowLen64.hits (b0 ++ x) = false → rowLen16.hits (b0 ++ x) = false →
      rowLen7.hits (b0 ++ x) = true ∧ 128 ≤ x.toNat ∧ x.toNat ≤ 253)

/-- 30_encoding R95, R96: `op` is bits 33:32 and `arg` bits 31:0 of the beat, and every beat is one of the four rows. -/
def Obligations.CommandFields : Prop :=
  ∀ beat : BitVec 34,
    let arg := BitVec.ofNat 32 (beat.toNat % 2 ^ 32)
    (beat.toNat / 2 ^ 32 = 0 → decodeCmd beat = .cmdReserved0 arg) ∧
    (beat.toNat / 2 ^ 32 = 1 → decodeCmd beat = .upgrade arg) ∧
    (beat.toNat / 2 ^ 32 = 2 → decodeCmd beat = .encode arg) ∧
    (beat.toNat / 2 ^ 32 = 3 → decodeCmd beat = .close arg)

/-! ### Reset and status -/

/-- 10_state R34, 70 R280: the reset value of every register, the status outputs after reset, and that after reset no
data beat is taken and no output beat emitted, whatever the host offers: only `CMD` is served. -/
def Obligations.ResetValues : Prop :=
  let r := State.reset.regs
  (r.connState = .awaitingUpgrade ∧ r.err = .none ∧ r.sgnPhase = .idle ∧ r.sgnKrem = 0 ∧
   r.sgnH = ⟨0, 0, 0, 0, 0⟩ ∧ r.sgnBuf = Vector.replicate 64 0 ∧ r.sgnCnt = 0 ∧
   r.sgnToken = Vector.replicate 28 0 ∧ r.sgnRidx = 0 ∧ r.decPhase = .b0 ∧ r.decLen = 0 ∧ r.decRem = 0 ∧
   r.decKey = ⟨0, 0, 0, 0⟩ ∧ r.unmKey = ⟨0, 0, 0, 0⟩ ∧ r.unmIdx = 0 ∧ r.encPhase = .idle ∧ r.encN = 0 ∧ r.encRem = 0) ∧
  (stState State.reset = 0 ∧ stErr State.reset = 0 ∧ faultOut State.reset = false) ∧
  (∀ s t : State, s.regs = State.reset.regs → step s = .next t →
    t.io.hk = s.io.hk ∧ t.io.rx = s.io.rx ∧ t.io.txp = s.io.txp ∧
    t.io.ai = s.io.ai ∧ t.io.ap = s.io.ap ∧ t.io.tx = s.io.tx)

/-- 70 R280, R281: `RESET` from any state gives every register its reset value and leaves the host's beats alone; while
`rst` is asserted every step is that one and no other. When the host releases an asserted `rst` every register holds its
reset value, with or without a step under it: asserting and releasing it in any state is a reset. That a step under `rst`
is the reset step, and that asserting alone writes nothing, are the model's choice (log 8). -/
def Obligations.ResetFromAnyState : Prop :=
  ∀ s : State,
    exec .reset s = .next { s with regs := State.reset.regs } ∧
    (s.io.rst = true → step s = .next { s with regs := State.reset.regs }) ∧
    (s.io.rst = true → hostMove (.setRst false) s =
      { s with regs := State.reset.regs, io := { s.io with rst := false } }) ∧
    hostMoves [.setRst true, .setRst false] s =
      { s with regs := State.reset.regs, io := { s.io with rst := false } }

/-- 10_state R23, R24, R25: `st_state`, `st_err` and `fault` mirror `conn_state` and `err` with the spec's codes. -/
def Obligations.StatusOutputs : Prop :=
  ∀ s : State,
    (stState s).toNat =
      (match s.regs.connState with
       | .awaitingUpgrade => 0 | .handshaken => 1 | .readingFrame => 2
       | .processing => 3 | .writingFrame => 4 | .terminated => 5) ∧
    (stErr s).toNat =
      (match s.regs.err with
       | .none => 0 | .unsupportedLength => 1 | .payloadTooLarge => 2 | .maskBitClear => 3) ∧
    (faultOut s = true ↔ (stState s).toNat = 5 ∧ (stErr s).toNat ≠ 0)

/-! ### Which instruction a step runs -/

/-- A step is `exec` of the instruction fetched, on the same state but for the choice of order used up; with none
fetched it keeps the state. Spelled out: at frame byte 1 the form the byte selects, and for a command the beat's own
instruction when no data step competes. -/
def Obligations.StepRunsFetched : Prop :=
  ∀ s : State,
    (∀ i, fetch s = some i → step s = exec i (takeTurn s)) ∧
    (fetch s = none → step s = .next s) ∧
    ((takeTurn s).regs = s.regs ∧ (takeTurn s).io = s.io ∧ (takeTurn s).params = s.params ∧
      (takeTurn s).unmResult = s.unmResult) ∧
    (contested s = false → takeTurn s = s) ∧
    (∀ x rest, s.io.rst = false → s.io.cmd = [] → s.regs.connState = .readingFrame → s.regs.decPhase = .b1 →
      s.io.rx = x :: rest → step s = exec (selectForm s.params.unmaskedPolicy x) s) ∧
    (∀ beat rest, s.io.rst = false → s.io.cmd = beat :: rest → cmdLegal (decodeCmd beat) s = true →
      dataDue s = none → step s = exec (decodeCmd beat) s)

/-- 20_memory R62, R63, 44 R225 and 70 R289, the right column: with `rst` low, each hold is lifted by the beat, or the
acceptance, its row names, and the step then run is that row's. A row that waits for data goes on so whenever no command
can be taken: `CMD` empty, or its head a command out of place, which blocks `CMD` alone. A row that waits for a command
goes on with it, and in every hold a `CLOSE` at the head of `CMD` is taken. -/
def Obligations.OfferedBeatsAreTaken : Prop :=
  ∀ s : State, s.io.rst = false →
    (noCommandTaken s → ∀ (x : Byte) (rest : List Byte),
      (s.regs.connState = .awaitingUpgrade → s.regs.sgnPhase = .key → s.io.hk = x :: rest →
        fetch s = some (.hkByte x)) ∧
      (s.regs.connState = .awaitingUpgrade → s.regs.sgnPhase = .resp → s.io.txReady = true →
        fetch s = some .respByte) ∧
      (s.regs.connState = .handshaken ∨ s.regs.connState = .readingFrame → s.regs.decPhase = .b0 →
        s.io.rx = x :: rest → fetch s = some (.rxB0 x)) ∧
      (s.regs.connState = .readingFrame → s.io.rx = x :: rest →
        (s.regs.decPhase = .b1 → fetch s = some (selectForm s.params.unmaskedPolicy x)) ∧
        (s.regs.decPhase = .x0 → fetch s = some (.rxX0 x)) ∧
        (s.regs.decPhase = .x1 → fetch s = some (.rxX1 x)) ∧
        (s.regs.decPhase = .k0 → fetch s = some (.rxK0 x)) ∧
        (s.regs.decPhase = .k1 → fetch s = some (.rxK1 x)) ∧
        (s.regs.decPhase = .k2 → fetch s = some (.rxK2 x)) ∧
        (s.regs.decPhase = .k3 → s.io.aiReady = true → fetch s = some (.rxK3 x)) ∧
        (s.regs.decPhase = .pay → s.io.apReady = true → fetch s = some (.rxPay x))) ∧
      (s.regs.connState = .writingFrame → s.io.txReady = true →
        (s.regs.encPhase = .h0 → fetch s = some .txH0) ∧
        (s.regs.encPhase = .h1 → fetch s = some .txH1) ∧
        (s.regs.encPhase = .h2 → fetch s = some .txH2) ∧
        (s.regs.encPhase = .h3 → fetch s = some .txH3) ∧
        (s.regs.encPhase = .pay → s.io.txp = x :: rest → fetch s = some (.txpByte x)))) ∧
    (∀ (beat : BitVec 34) (later : List (BitVec 34)), s.io.cmd = beat :: later →
      let arg := BitVec.ofNat 32 (beat.toNat % 2 ^ 32)
      (s.regs.connState = .awaitingUpgrade → s.regs.sgnPhase = .idle → beat.toNat / 2 ^ 32 = 1 →
        fetch s = some (.upgrade arg)) ∧
      (s.regs.connState = .processing → beat.toNat / 2 ^ 32 = 2 → fetch s = some (.encode arg)) ∧
      (waiting s → beat.toNat / 2 ^ 32 = 3 → fetch s = some (.close arg)))

/-- 20_memory R62, R63, R74, 44 R225 and 70 R289: absent data and a sink that does not accept are holds, never errors:
with `rst` low, row by row of R289, the whole state is kept, whether `CMD` is empty or a command out of place stands at
its head. A hold is no step in the spec; that the model's step then answers the same state is its choice (log 3). -/
def Obligations.AbsentDataHolds : Prop :=
  ∀ s : State, s.io.rst = false → noCommandTaken s → waiting s → step s = .next s

/-- 20_memory R63, 60 R257, 93 U23: between an offered `CLOSE` and an offered data step both orders are admitted: the
model's `arbiter` (log 4) decides, either way. -/
def Obligations.CloseRacesData : Prop :=
  ∀ (s : State) (arg : BitVec 32) (rest : List (BitVec 34)) (d : Instr) (later : List Bool),
    s.io.rst = false → s.io.cmd = cmdBeat 3 arg :: rest → dataDue s = some d →
    step { s with arbiter := true :: later } = exec (.close arg) { s with arbiter := later } ∧
    step { s with arbiter := false :: later } = exec d { s with arbiter := later }

/-- Away from a step's own conditions an instruction does nothing: `exec` of a command or data step that is not due
keeps the whole state (20_memory R63, 44 R225; log 15). The three instructions that need no beat are `UNM.LOAD`,
`UNM.BYTE` and `RESET`. -/
def Obligations.OnlyDueInstructionsAct : Prop :=
  ∀ (i : Instr) (s t : State), exec i s = .next t → t ≠ s →
    (∃ k, i = .unmLoad k) ∨ (∃ x, i = .unmByte x) ∨ i = .reset ∨
    cmdDue s = some i ∨ dataDue s = some i ∨
    (∃ x, i = .rxB1 x ∧ dataDue s = some (selectForm s.params.unmaskedPolicy x)) ∨
    (dataDue s = some .txH0 ∧ ((∃ n, i = .txfLen7 n) ∨ (∃ hh ll, i = .txfLen16 hh ll))) ∨
    (dataDue s = some .respByte ∧ ∃ token, i = .hsresp token)

/-! ### `SGN` -/

/-- 40 R132: `UPGRADE klen` in `AWAITING_UPGRADE` with the signer idle. With `klen != 0` it loads `init` and waits for
`klen` key bytes; with `klen == 0` it signs the empty key at once. Nothing else changes. -/
def Obligations.UpgradeStartsSigner : Prop :=
  ∀ (s : State) (klen : BitVec 32) (rest : List (BitVec 34)),
    s.regs.connState = .awaitingUpgrade → s.regs.sgnPhase = .idle → s.io.cmd = cmdBeat 1 klen :: rest →
    (klen ≠ 0 → exec (.upgrade klen) s = .next { s with
      regs := { s.regs with
        sgnH := ⟨0x67452301, 0xEFCDAB89, 0x98BADCFE, 0x10325476, 0xC3D2E1F0⟩,
        sgnBuf := Vector.replicate 64 0, sgnCnt := 0, sgnKrem := klen, sgnPhase := .key }
      io := { s.io with cmd := rest } }) ∧
    (klen = 0 → exec (.upgrade klen) s = .next { s with
      regs := { s.regs with
        sgnToken := toToken (base64 (finish (absorbAll shaInit guid))),
        sgnH := finishHash (absorbAll shaInit guid), sgnBuf := Vector.replicate 64 0, sgnCnt := 36,
        sgnRidx := 0, sgnKrem := 0, sgnPhase := .resp }
      io := { s.io with cmd := rest } })

/-- 40 R133: `HK.BYTE`. The byte is absorbed and `sgn_krem` counts down; with the last one `GUID` is appended and the
token made. Nothing else changes. -/
def Obligations.KeyByteIsAbsorbed : Prop :=
  ∀ (s : State) (x : Byte) (rest : List Byte),
    s.regs.connState = .awaitingUpgrade → s.regs.sgnPhase = .key → s.io.hk = x :: rest →
    let st1 := absorb ⟨s.regs.sgnH, s.regs.sgnBuf, s.regs.sgnCnt⟩ x
    let st2 := absorbAll st1 guid
    (s.regs.sgnKrem ≠ 1 → exec (.hkByte x) s = .next { s with
      regs := { s.regs with sgnH := st1.h, sgnBuf := st1.buf, sgnCnt := st1.cnt, sgnKrem := s.regs.sgnKrem - 1 }
      io := { s.io with hk := rest } }) ∧
    (s.regs.sgnKrem = 1 → exec (.hkByte x) s = .next { s with
      regs := { s.regs with
        sgnToken := toToken (base64 (finish st2)), sgnH := finishHash st2, sgnBuf := Vector.replicate 64 0,
        sgnCnt := st2.cnt, sgnKrem := 0, sgnRidx := 0, sgnPhase := .resp }
      io := { s.io with hk := rest } })

/-- 40 R135, R136: `RESP.BYTE` emits byte `sgn_ridx` of `HSRESP(sgn_token)`; the last one carries `last = 1`, ends the
handshake and clears the signer. -/
def Obligations.ResponseByteIsEmitted : Prop :=
  ∀ s : State,
    s.regs.connState = .awaitingUpgrade → s.regs.sgnPhase = .resp → s.io.txReady = true →
    (s.regs.sgnRidx.toNat < 127 → exec .respByte s = .next { s with
      regs := { s.regs with sgnRidx := s.regs.sgnRidx + 1 }
      io := { s.io with
        tx := s.io.tx ++ [⟨(respBytes s.regs.sgnToken).getD s.regs.sgnRidx.toNat 0, false⟩] } }) ∧
    (s.regs.sgnRidx = 127 → exec .respByte s = .next { s with
      regs := { s.regs with
        connState := .handshaken, sgnPhase := .idle, sgnToken := Vector.replicate 28 0, sgnH := ⟨0, 0, 0, 0, 0⟩,
        sgnBuf := Vector.replicate 64 0, sgnCnt := 0, sgnKrem := 0, sgnRidx := 0 }
      io := { s.io with tx := s.io.tx ++ [⟨0x0A, true⟩] } })

/-- 40 R131, 30 R97: `HSRESP token` writes the whole 128-byte response, `last` on its final byte only, and ends the
handshake; the machine's own 128 steps do the same. -/
def Obligations.ResponseIsWrittenOnce : Prop :=
  ∀ s : State,
    s.regs.connState = .awaitingUpgrade → s.regs.sgnPhase = .resp → s.regs.sgnRidx = 0 → s.io.txReady = true →
    let t : State := { s with
      regs := { s.regs with
        connState := .handshaken, sgnPhase := .idle, sgnToken := Vector.replicate 28 0, sgnH := ⟨0, 0, 0, 0, 0⟩,
        sgnBuf := Vector.replicate 64 0, sgnCnt := 0, sgnKrem := 0, sgnRidx := 0 }
      io := { s.io with tx := s.io.tx ++ txRun (respBytes s.regs.sgnToken) } }
    exec (.hsresp s.regs.sgnToken) s = .next t ∧
    (s.io.rst = false → s.io.cmd = [] → runs 128 s t)

/-- 40 R127: base64. The alphabet; three bytes give four characters, a final group of one byte two characters and `==`,
of two bytes three characters and `=`; so a 20-byte digest gives 28 characters: six whole groups, then the last two
bytes. -/
def Obligations.TokenText : Prop :=
  ((List.range 64).map fun i => a64 (BitVec.ofNat 6 i)) =
    [0x41, 0x42, 0x43, 0x44, 0x45, 0x46, 0x47, 0x48, 0x49, 0x4A, 0x4B, 0x4C, 0x4D, 0x4E, 0x4F, 0x50, 0x51, 0x52, 0x53,
     0x54, 0x55, 0x56, 0x57, 0x58, 0x59, 0x5A] ++
    [0x61, 0x62, 0x63, 0x64, 0x65, 0x66, 0x67, 0x68, 0x69, 0x6A, 0x6B, 0x6C, 0x6D, 0x6E, 0x6F, 0x70, 0x71, 0x72, 0x73,
     0x74, 0x75, 0x76, 0x77, 0x78, 0x79, 0x7A] ++
    [0x30, 0x31, 0x32, 0x33, 0x34, 0x35, 0x36, 0x37, 0x38, 0x39, 0x2B, 0x2F] ∧
  (∀ (a b c : Byte) (rest : List Byte),
    let v := a.toNat * 65536 + b.toNat * 256 + c.toNat
    base64 (a :: b :: c :: rest) =
      [a64 (BitVec.ofNat 6 (v / 2 ^ 18)), a64 (BitVec.ofNat 6 (v / 2 ^ 12)), a64 (BitVec.ofNat 6 (v / 2 ^ 6)),
       a64 (BitVec.ofNat 6 v)] ++ base64 rest) ∧
  (∀ a b : Byte,
    let v := a.toNat * 65536 + b.toNat * 256
    base64 [a, b] =
      [a64 (BitVec.ofNat 6 (v / 2 ^ 18)), a64 (BitVec.ofNat 6 (v / 2 ^ 12)), a64 (BitVec.ofNat 6 (v / 2 ^ 6)), 0x3D]) ∧
  (∀ a : Byte,
    let v := a.toNat * 65536
    base64 [a] = [a64 (BitVec.ofNat 6 (v / 2 ^ 18)), a64 (BitVec.ofNat 6 (v / 2 ^ 12)), 0x3D, 0x3D]) ∧
  base64 [] = [] ∧
  ∀ d : List Byte, d.length = 20 →
    (base64 d).length = 28 ∧
    (∀ g, g < 6 →
      let v := (d.getD (3 * g) 0).toNat * 65536 + (d.getD (3 * g + 1) 0).toNat * 256 + (d.getD (3 * g + 2) 0).toNat
      (base64 d).getD (4 * g) 0 = a64 (BitVec.ofNat 6 (v / 2 ^ 18)) ∧
      (base64 d).getD (4 * g + 1) 0 = a64 (BitVec.ofNat 6 (v / 2 ^ 12)) ∧
      (base64 d).getD (4 * g + 2) 0 = a64 (BitVec.ofNat 6 (v / 2 ^ 6)) ∧
      (base64 d).getD (4 * g + 3) 0 = a64 (BitVec.ofNat 6 v)) ∧
    (let v := (d.getD 18 0).toNat * 65536 + (d.getD 19 0).toNat * 256
     (base64 d).getD 24 0 = a64 (BitVec.ofNat 6 (v / 2 ^ 18)) ∧
     (base64 d).getD 25 0 = a64 (BitVec.ofNat 6 (v / 2 ^ 12)) ∧
     (base64 d).getD 26 0 = a64 (BitVec.ofNat 6 (v / 2 ^ 6)) ∧
     (base64 d).getD 27 0 = 0x3D ∧
     ∃ q, q < 16 ∧ (base64 d).getD 26 0 = a64 (BitVec.ofNat 6 (4 * q)))

/-- 40 R130: the streaming form computes SHA-1: absorbing a message of fewer than `2^61` bytes and finishing gives the
digest of the padded message. Hence the token the hardware computes for a key is `accept` of it. -/
def Obligations.StreamingShaIsSha1 : Prop :=
  (∀ m : List Byte, m.length < 2 ^ 61 → finish (absorbAll shaInit m) = sha1 m) ∧
  (∀ key : List Byte, key.length < 2 ^ 32 →
    base64 (finish (absorbAll (absorbAll shaInit key) guid)) = accept key)

/-- 95 T1 (40 R134): the one handshake vector of the source: key `dGhlIHNhbXBsZSBub25jZQ==` gives token
`s3pPLMBiTxaQ9kYGzzhZRbK+xOo=`. -/
def Obligations.HandshakeVector : Prop :=
  base64 (finish (absorbAll shaInit
    ([0x64, 0x47, 0x68, 0x6C, 0x49, 0x48, 0x4E, 0x68, 0x62, 0x58, 0x42, 0x73, 0x5A, 0x53, 0x42, 0x75, 0x62, 0x32,
      0x35, 0x6A, 0x5A, 0x51, 0x3D, 0x3D] ++ guid))) =
    [0x73, 0x33, 0x70, 0x50, 0x4C, 0x4D, 0x42, 0x69, 0x54, 0x78, 0x61, 0x51, 0x39, 0x6B, 0x59, 0x47, 0x7A, 0x7A,
     0x68, 0x5A, 0x52, 0x62, 0x4B, 0x2B, 0x78, 0x4F, 0x6F, 0x3D]

/-- 40 R120, R131, R134, R137, R138: a whole handshake. From `AWAITING_UPGRADE` with the signer idle, `UPGRADE |k|` and
the bytes of any key `k` make the block emit `HSRESP(accept(k))` as one write and reach `HANDSHAKEN`, taking exactly
`|k|` key bytes; the beats depend on nothing but `k`. -/
def Obligations.HandshakeEmitsAccept : Prop :=
  ∀ (s : State) (k rest : List Byte), k.length < 2 ^ 32 →
    s.regs.connState = .awaitingUpgrade → s.regs.sgnPhase = .idle →
    s.io.rst = false → s.io.txReady = true →
    s.io.cmd = [cmdBeat 1 (BitVec.ofNat 32 k.length)] → s.io.hk = k ++ rest →
    ∃ t, runs (1 + k.length + 128) s t ∧ t.regs.connState = .handshaken ∧ t.regs.sgnPhase = .idle ∧
      t.io.hk = rest ∧ t.io.cmd = [] ∧ (accept k).length = 28 ∧
      t.io.tx = s.io.tx ++ txRun (respHead ++ accept k ++ respTail)

/-! ### `DEC` and `UNM` -/

/-- 41 R161: `RX.B0` discards the byte whatever it is, and the state becomes `READING_FRAME`. -/
def Obligations.ByteZeroIsDiscarded : Prop :=
  ∀ (s : State) (x : Byte) (rest : List Byte),
    s.regs.connState = .handshaken ∨ s.regs.connState = .readingFrame → s.regs.decPhase = .b0 →
    s.io.rx = x :: rest →
    exec (.rxB0 x) s = .next { s with
      regs := { s.regs with decPhase := .b1, connState := .readingFrame }
      io := { s.io with rx := rest } }

/-- 41 R162, R163: the two forms that go on, under the default policy: byte 1 in `0x80..0xFD` sets both length registers
to its low seven bits; `0xFE` goes on to the extended length. That `RX.B1`, as an instruction, does on the byte what the
form does is the model's choice (log 12). -/
def Obligations.LengthForms : Prop :=
  ∀ (s : State) (x : Byte) (rest : List Byte),
    s.params.unmaskedPolicy = .fault → s.regs.connState = .readingFrame → s.regs.decPhase = .b1 →
    s.io.rx = x :: rest →
    (∀ l : BitVec 7, l.toNat ≤ 125 → x.toNat = 128 + l.toNat →
      let t : State := { s with
        regs := { s.regs with
          decLen := BitVec.ofNat 16 l.toNat, decRem := BitVec.ofNat 16 l.toNat, decPhase := .k0 }
        io := { s.io with rx := rest } }
      exec (.rxfLen7 l) s = .next t ∧ exec (.rxB1 x) s = .next t) ∧
    (x = 0xFE →
      let t : State := { s with
        regs := { s.regs with decPhase := .x0 }
        io := { s.io with rx := rest } }
      exec .rxfLen16 s = .next t ∧ exec (.rxB1 x) s = .next t)

/-- 41 R164, R165, 60 R250, R255, R256, R257: the two forms that fault, under the default policy. Byte 1 equal to
`0xFF` raises `UNSUPPORTED_LENGTH`, byte 1 below `0x80` raises `MASK_BIT_CLEAR` (so `0x7F` does, the mask bit being tested
first). Fault entry: that byte taken, nothing emitted, `TERMINATED`, the cause in `err`, every phase idle and every data
register zero; `st_state = 5`, `st_err` the code, `fault = 1`. That `RX.B1`, as an instruction, does on the byte what the
form does is the model's choice (log 12). -/
def Obligations.FaultForms : Prop :=
  ∀ (s : State) (x : Byte) (rest : List Byte),
    s.params.unmaskedPolicy = .fault → s.regs.connState = .readingFrame → s.regs.decPhase = .b1 →
    s.io.rx = x :: rest →
    (x = 0xFF →
      let t : State := { s with
        regs := { State.reset.regs with connState := .terminated, err := .unsupportedLength }
        io := { s.io with rx := rest } }
      exec .rxfLen64 s = .next t ∧ exec (.rxB1 x) s = .next t ∧
        stState t = 5 ∧ stErr t = 1 ∧ faultOut t = true) ∧
    (∀ l : BitVec 7, x.toNat = l.toNat →
      let t : State := { s with
        regs := { State.reset.regs with connState := .terminated, err := .maskBitClear }
        io := { s.io with rx := rest } }
      exec (.rxfUnmasked l) s = .next t ∧ exec (.rxB1 x) s = .next t ∧
        stState t = 5 ∧ stErr t = 3 ∧ faultOut t = true)

/-- 92 D7: under `UNMASKED_POLICY = ignore` (as D7 describes it, log 6) the mask bit has no say: byte 1 behaves by its low
seven bits alone, and `RXF.UNMASKED` is never the form. The model's choice: `RX.B1` does what the form does (log 12), and
`exec` of a form that is not the byte's keeps the state (log 15). -/
def Obligations.IgnorePolicyForms : Prop :=
  ∀ (s : State) (x : Byte) (rest : List Byte),
    s.params.unmaskedPolicy = .ignore → s.regs.connState = .readingFrame → s.regs.decPhase = .b1 →
    s.io.rx = x :: rest →
    (∀ l : BitVec 7, l.toNat ≤ 125 → x.toNat % 128 = l.toNat →
      let t : State := { s with
        regs := { s.regs with
          decLen := BitVec.ofNat 16 l.toNat, decRem := BitVec.ofNat 16 l.toNat, decPhase := .k0 }
        io := { s.io with rx := rest } }
      exec (.rxfLen7 l) s = .next t ∧ exec (.rxB1 x) s = .next t) ∧
    (x.toNat % 128 = 126 →
      let t : State := { s with
        regs := { s.regs with decPhase := .x0 }
        io := { s.io with rx := rest } }
      exec .rxfLen16 s = .next t ∧ exec (.rxB1 x) s = .next t) ∧
    (x.toNat % 128 = 127 →
      let t : State := { s with
        regs := { State.reset.regs with connState := .terminated, err := .unsupportedLength }
        io := { s.io with rx := rest } }
      exec .rxfLen64 s = .next t ∧ exec (.rxB1 x) s = .next t) ∧
    (∀ l, exec (.rxfUnmasked l) s = .next s)

/-- 41 R173, R174: `RX.X0` puts the byte in the high half of `dec_len`; `RX.X1` completes the big-endian length in both
registers. -/
def Obligations.ExtendedLength : Prop :=
  ∀ (s : State) (x : Byte) (rest : List Byte),
    s.regs.connState = .readingFrame → s.io.rx = x :: rest →
    (s.regs.decPhase = .x0 → exec (.rxX0 x) s = .next { s with
      regs := { s.regs with decLen := BitVec.ofNat 16 (x.toNat * 256), decPhase := .x1 }
      io := { s.io with rx := rest } }) ∧
    (s.regs.decPhase = .x1 → exec (.rxX1 x) s = .next { s with
      regs := { s.regs with
        decLen := BitVec.ofNat 16 (s.regs.decLen.toNat / 256 * 256 + x.toNat),
        decRem := BitVec.ofNat 16 (s.regs.decLen.toNat / 256 * 256 + x.toNat), decPhase := .k0 }
      io := { s.io with rx := rest } })

/-- 41 R166: `RX.K0`, `RX.K1`, `RX.K2` store the byte as key byte 0, 1, 2 and move on. -/
def Obligations.KeyBytesAreKept : Prop :=
  ∀ (s : State) (x : Byte) (rest : List Byte),
    s.regs.connState = .readingFrame → s.io.rx = x :: rest →
    (s.regs.decPhase = .k0 → exec (.rxK0 x) s = .next { s with
      regs := { s.regs with
        decKey := ⟨x, s.regs.decKey.k1, s.regs.decKey.k2, s.regs.decKey.k3⟩, decPhase := .k1 }
      io := { s.io with rx := rest } }) ∧
    (s.regs.decPhase = .k1 → exec (.rxK1 x) s = .next { s with
      regs := { s.regs with
        decKey := ⟨s.regs.decKey.k0, x, s.regs.decKey.k2, s.regs.decKey.k3⟩, decPhase := .k2 }
      io := { s.io with rx := rest } }) ∧
    (s.regs.decPhase = .k2 → exec (.rxK2 x) s = .next { s with
      regs := { s.regs with
        decKey := ⟨s.regs.decKey.k0, s.regs.decKey.k1, x, s.regs.decKey.k3⟩, decPhase := .k3 }
      io := { s.io with rx := rest } })

/-- 41 R167, R169: `RX.K3` emits the `AI` beat with the length and the whole key; an empty frame ends here with `DEC` and
`UNM` cleared, any other loads the key into `UNM` and goes on to the payload. -/
def Obligations.KeyEndAnnouncesFrame : Prop :=
  ∀ (s : State) (x : Byte) (rest : List Byte),
    s.regs.connState = .readingFrame → s.regs.decPhase = .k3 → s.io.rx = x :: rest → s.io.aiReady = true →
    let key : Key := ⟨s.regs.decKey.k0, s.regs.decKey.k1, s.regs.decKey.k2, x⟩
    (s.regs.decLen = 0 → exec (.rxK3 x) s = .next { s with
      regs := { s.regs with
        connState := .processing, decPhase := .b0, decLen := 0, decRem := 0, decKey := ⟨0, 0, 0, 0⟩,
        unmKey := ⟨0, 0, 0, 0⟩, unmIdx := 0 }
      io := { s.io with rx := rest, ai := s.io.ai ++ [⟨0, key⟩] } }) ∧
    (s.regs.decLen ≠ 0 → exec (.rxK3 x) s = .next { s with
      regs := { s.regs with decKey := key, unmKey := key, unmIdx := 0, decPhase := .pay }
      io := { s.io with rx := rest, ai := s.io.ai ++ [⟨s.regs.decLen, key⟩] } })

/-- 41 R168, R169: `RX.PAY` emits the masked byte, the clear byte and `last`; the last byte ends the frame with `DEC` and
`UNM` cleared, any other moves the index on and counts down. -/
def Obligations.PayloadByteIsUnmasked : Prop :=
  ∀ (s : State) (x : Byte) (rest : List Byte),
    s.regs.connState = .readingFrame → s.regs.decPhase = .pay → s.io.rx = x :: rest → s.io.apReady = true →
    let keyByte : Byte :=
      match s.regs.unmIdx.toNat with
      | 0 => s.regs.unmKey.k0
      | 1 => s.regs.unmKey.k1
      | 2 => s.regs.unmKey.k2
      | _ => s.regs.unmKey.k3
    (s.regs.decRem = 1 → exec (.rxPay x) s = .next { s with
      regs := { s.regs with
        connState := .processing, decPhase := .b0, decLen := 0, decRem := 0, decKey := ⟨0, 0, 0, 0⟩,
        unmKey := ⟨0, 0, 0, 0⟩, unmIdx := 0 }
      io := { s.io with rx := rest, ap := s.io.ap ++ [⟨x, x ^^^ keyByte, true⟩] } }) ∧
    (s.regs.decRem ≠ 1 → exec (.rxPay x) s = .next { s with
      regs := { s.regs with unmIdx := s.regs.unmIdx + 1, decRem := s.regs.decRem - 1 }
      io := { s.io with rx := rest, ap := s.io.ap ++ [⟨x, x ^^^ keyByte, false⟩] } })

/-- 42 R191, R195: `UNM.LOAD` sets the key and zeroes the index and changes nothing else. In the machine it happens inside
`RX.K3` (`KeyEndAnnouncesFrame`); that a stand-alone one acts in every state is the model's choice (log 14). -/
def Obligations.UnmaskerLoads : Prop :=
  ∀ (s : State) (key : Key),
    exec (.unmLoad key) s = .next { s with regs := { s.regs with unmKey := key, unmIdx := 0 } }

/-- 42 R192, R195: `UNM.BYTE` gives the byte XORed with the key byte of the index and moves the index on, 3 to 0, in
every state. That a stand-alone one acts in every state, and where its result stands (`unmResult`), is the model's choice,
log 14. -/
def Obligations.UnmaskerXorsOneByte : Prop :=
  ∀ (s : State) (x : Byte),
    exec (.unmByte x) s = .next { s with
      regs := { s.regs with unmIdx := BitVec.ofNat 2 (s.regs.unmIdx.toNat + 1) }
      unmResult := some (x ^^^
        (match s.regs.unmIdx.toNat with
         | 0 => s.regs.unmKey.k0
         | 1 => s.regs.unmKey.k1
         | 2 => s.regs.unmKey.k2
         | _ => s.regs.unmKey.k3)) }

/-- 42 R190, R195: `unmask(P, K)[i] = P[i] XOR K[i mod 4]`, of the same length. -/
def Obligations.UnmaskPointwise : Prop :=
  ∀ (p : List Byte) (k : Key),
    (unmask p k).length = p.length ∧
    ∀ i, i < p.length →
      (unmask p k).getD i 0 = p.getD i 0 ^^^
        (match i % 4 with | 0 => k.k0 | 1 => k.k1 | 2 => k.k2 | _ => k.k3)

/-- 42 R193: masking is its own inverse. -/
def Obligations.UnmaskIsItsOwnInverse : Prop :=
  ∀ (p : List Byte) (k : Key), unmask (unmask p k) k = p

/-- 41 R172, R170, R160: the decoder computes `decode(s)`. From `HANDSHAKEN` or `READING_FRAME` at frame byte 0, with
every output accepted and `s` offered: a frame is announced and its payload passed beat by beat and no byte of the next
one taken; a fault takes two bytes and emits nothing; a short input is taken whole and held, with a prefix of the
frame's beats emitted. -/
def Obligations.DecoderComputesDecode : Prop :=
  ∀ (s : State) (bs : List Byte),
    s.regs.connState = .handshaken ∨ s.regs.connState = .readingFrame → s.regs.decPhase = .b0 →
    s.io.rst = false → s.io.cmd = [] → s.io.aiReady = true → s.io.apReady = true → s.io.rx = bs →
    (∀ len key masked rest, decodeFrame s.params.unmaskedPolicy bs = .frame len key masked rest →
      ∃ t, runs (bs.length - rest.length) s t ∧ t.regs.connState = .processing ∧ t.io.rx = rest ∧
        masked.length = len.toNat ∧
        t.io.ai = s.io.ai ++ [⟨len, key⟩] ∧ t.io.ap = s.io.ap ++ apRun key 0 masked ∧
        t.io.ap.map ApBeat.masked = s.io.ap.map ApBeat.masked ++ masked ∧
        t.io.ap.map ApBeat.clear = s.io.ap.map ApBeat.clear ++ unmask masked key ∧
        t.io.tx = s.io.tx ∧ t.regs.err = s.regs.err) ∧
    (∀ e, decodeFrame s.params.unmaskedPolicy bs = .fault e →
      ∃ t, runs 2 s t ∧ t.regs.connState = .terminated ∧ t.regs.err = e ∧ t.io.rx = bs.drop 2 ∧
        t.io.ai = s.io.ai ∧ t.io.ap = s.io.ap ∧ t.io.tx = s.io.tx) ∧
    (decodeFrame s.params.unmaskedPolicy bs = .needMore →
      ∃ t ais aps, runs bs.length s t ∧ holds t = true ∧ t.io.rx = [] ∧
        (t.regs.connState = .handshaken ∨ t.regs.connState = .readingFrame) ∧
        t.io.ai = s.io.ai ++ ais ∧ t.io.ap = s.io.ap ++ aps ∧ t.io.tx = s.io.tx ∧
        ∀ more len key masked rest,
          decodeFrame s.params.unmaskedPolicy (bs ++ more) = .frame len key masked rest →
          ais <+: [⟨len, key⟩] ∧ aps <+: apRun key 0 masked)

/-! ### `ENC` -/

/-- 43 R201, R204, 60 R252: `ENCODE n` in `PROCESSING`: up to 65536 the frame begins; above, `PAYLOAD_TOO_LARGE` is
raised in the step that takes the command, with nothing emitted and no `TXP` byte taken. -/
def Obligations.EncodeBeginsFrame : Prop :=
  ∀ (s : State) (n : BitVec 32) (rest : List (BitVec 34)),
    s.regs.connState = .processing → s.io.cmd = cmdBeat 2 n :: rest →
    (n.toNat ≤ 65536 → exec (.encode n) s = .next { s with
      regs := { s.regs with
        encN := n, encRem := BitVec.ofNat 17 n.toNat, encPhase := .h0, connState := .writingFrame }
      io := { s.io with cmd := rest } }) ∧
    (65537 ≤ n.toNat → exec (.encode n) s = .next { s with
      regs := { State.reset.regs with connState := .terminated, err := .payloadTooLarge }
      io := { s.io with cmd := rest } })

/-- 43 R205, R207, R99: the header steps. `81`; then `n` with the frame ended when `n = 0`, or `7E` when `n > 125`; then
the two length bytes, those of `n` up to 65535 and the parameter's above. -/
def Obligations.HeaderStepsEmit : Prop :=
  ∀ s : State,
    s.regs.connState = .writingFrame → s.io.txReady = true →
    let n := s.regs.encN.toNat
    let len : Nat := if n ≤ 65535 then n else s.params.encLen16At65536.toNat
    (s.regs.encPhase = .h0 → exec .txH0 s = .next { s with
      regs := { s.regs with encPhase := .h1 }
      io := { s.io with tx := s.io.tx ++ [⟨0x81, false⟩] } }) ∧
    (s.regs.encPhase = .h1 → n = 0 → exec .txH1 s = .next { s with
      regs := { s.regs with connState := .readingFrame, encPhase := .idle, encN := 0, encRem := 0 }
      io := { s.io with tx := s.io.tx ++ [⟨0x00, true⟩] } }) ∧
    (s.regs.encPhase = .h1 → 1 ≤ n → n ≤ 125 → exec .txH1 s = .next { s with
      regs := { s.regs with encPhase := .pay }
      io := { s.io with tx := s.io.tx ++ [⟨BitVec.ofNat 8 n, false⟩] } }) ∧
    (s.regs.encPhase = .h1 → 126 ≤ n → exec .txH1 s = .next { s with
      regs := { s.regs with encPhase := .h2 }
      io := { s.io with tx := s.io.tx ++ [⟨0x7E, false⟩] } }) ∧
    (s.regs.encPhase = .h2 → exec .txH2 s = .next { s with
      regs := { s.regs with encPhase := .h3 }
      io := { s.io with tx := s.io.tx ++ [⟨BitVec.ofNat 8 (len / 256), false⟩] } }) ∧
    (s.regs.encPhase = .h3 → exec .txH3 s = .next { s with
      regs := { s.regs with encPhase := .pay }
      io := { s.io with tx := s.io.tx ++ [⟨BitVec.ofNat 8 len, false⟩] } })

/-- 43 R206, R207: `TXP.BYTE` passes the byte unchanged; the last one carries `last = 1` and ends the frame. -/
def Obligations.PayloadBytePasses : Prop :=
  ∀ (s : State) (x : Byte) (rest : List Byte),
    s.regs.connState = .writingFrame → s.regs.encPhase = .pay → s.io.txp = x :: rest → s.io.txReady = true →
    (s.regs.encRem = 1 → exec (.txpByte x) s = .next { s with
      regs := { s.regs with connState := .readingFrame, encPhase := .idle, encN := 0, encRem := 0 }
      io := { s.io with txp := rest, tx := s.io.tx ++ [⟨x, true⟩] } }) ∧
    (s.regs.encRem ≠ 1 → exec (.txpByte x) s = .next { s with
      regs := { s.regs with encRem := s.regs.encRem - 1 }
      io := { s.io with txp := rest, tx := s.io.tx ++ [⟨x, false⟩] } })

/-- 43 R202: `TXF.LEN7`: with `enc_n = n` at most 125 and `n` bytes on `TXP`, the frame `81 nn` and the payload go out as
one write and the frame ends. -/
def Obligations.ShortFrameGoesOut : Prop :=
  ∀ (s : State) (n : BitVec 7) (payload rest : List Byte),
    s.regs.connState = .writingFrame → s.regs.encPhase = .h0 → s.io.txReady = true →
    n.toNat ≤ 125 → s.regs.encN.toNat = n.toNat → s.regs.encRem.toNat = n.toNat →
    payload.length = n.toNat → s.io.txp = payload ++ rest →
    exec (.txfLen7 n) s = .next { s with
      regs := { s.regs with connState := .readingFrame, encPhase := .idle, encN := 0, encRem := 0 }
      io := { s.io with
        txp := rest, tx := s.io.tx ++ txRun (0x81 :: BitVec.ofNat 8 n.toNat :: payload) } }

/-- 43 R203: `TXF.LEN16`: with `126 <= enc_n <= 65536` and that many bytes on `TXP`, the frame `81 7E hh ll` and the
payload go out as one write; `hh ll` is `enc_n` big-endian up to 65535 and the parameter at 65536. -/
def Obligations.LongFrameGoesOut : Prop :=
  ∀ (s : State) (hh ll : Byte) (payload rest : List Byte),
    s.regs.connState = .writingFrame → s.regs.encPhase = .h0 → s.io.txReady = true →
    126 ≤ s.regs.encN.toNat → s.regs.encN.toNat ≤ 65536 → s.regs.encRem.toNat = s.regs.encN.toNat →
    hh.toNat * 256 + ll.toNat =
      (if s.regs.encN.toNat ≤ 65535 then s.regs.encN.toNat else s.params.encLen16At65536.toNat) →
    payload.length = s.regs.encN.toNat → s.io.txp = payload ++ rest →
    exec (.txfLen16 hh ll) s = .next { s with
      regs := { s.regs with connState := .readingFrame, encPhase := .idle, encN := 0, encRem := 0 }
      io := { s.io with txp := rest, tx := s.io.tx ++ txRun (0x81 :: 0x7E :: hh :: ll :: payload) } }

/-- 43 R208: the encoder computes `encode(P)`. From `PROCESSING`, `ENCODE |P|` and the bytes of `P` make the block emit
the bytes of `encode(P)` as one write, `last` on the final beat alone, and await the next frame; exactly `|P|` bytes are
taken from `TXP`. The bytes are a header of 2 or 4 bytes and then `P`; the header begins with `81`, never has the mask bit
or the marker 127, and up to 65535 it encodes `|P|`. -/
def Obligations.EncoderComputesEncode : Prop :=
  ∀ (s : State) (payload rest bytes : List Byte),
    s.regs.connState = .processing → s.io.rst = false → s.io.txReady = true →
    payload.length ≤ 65536 →
    s.io.cmd = [cmdBeat 2 (BitVec.ofNat 32 payload.length)] → s.io.txp = payload ++ rest →
    encodeFrame s.params payload = some bytes →
    ∃ t, runs (1 + bytes.length) s t ∧ t.regs.connState = .readingFrame ∧ t.regs.encPhase = .idle ∧
      t.regs.encN = 0 ∧ t.regs.encRem = 0 ∧ t.io.txp = rest ∧ t.io.cmd = [] ∧
      t.io.tx = s.io.tx ++ txRun bytes ∧
      ∃ header, encHeader s.params payload.length = some header ∧ bytes = header ++ payload ∧
        (header.length = 2 ∨ header.length = 4) ∧ bytes.length = header.length + payload.length ∧
        header.getD 0 0 = 0x81 ∧ (header.getD 1 0).toNat < 127 ∧
        (payload.length ≤ 65535 →
          (header.length = 2 → (header.getD 1 0).toNat = payload.length) ∧
          (header.length = 4 →
            (header.getD 2 0).toNat * 256 + (header.getD 3 0).toNat = payload.length))

/-- 43 R209: the boundary table of `enc_header`, with the default parameters. -/
def Obligations.HeaderBoundaries : Prop :=
  encHeader .default 0 = some [0x81, 0x00] ∧
  encHeader .default 7 = some [0x81, 0x07] ∧
  encHeader .default 125 = some [0x81, 0x7D] ∧
  encHeader .default 126 = some [0x81, 0x7E, 0x00, 0x7E] ∧
  encHeader .default 127 = some [0x81, 0x7E, 0x00, 0x7F] ∧
  encHeader .default 255 = some [0x81, 0x7E, 0x00, 0xFF] ∧
  encHeader .default 256 = some [0x81, 0x7E, 0x01, 0x00] ∧
  encHeader .default 65535 = some [0x81, 0x7E, 0xFF, 0xFF] ∧
  encHeader .default 65536 = some [0x81, 0x7E, 0x00, 0x00] ∧
  encHeader .default 65537 = none ∧
  encHeader .default (2 ^ 32 - 1) = none

/-- 43 R210: the round trip through a masking client, up to 65535 bytes. At 65536 it fails whatever the two length bytes
are, and with the default `00 00` the frame decodes with length 0 and the whole payload is left over. Feeding `encode(T)`
itself to the decoder faults with `MASK_BIT_CLEAR`. -/
def Obligations.RoundTripThroughClient : Prop :=
  ∀ (p : Params) (first : Byte) (text : List Byte) (key : Key),
    (text.length ≤ 65535 →
      ∃ wire, clientFrame p first text key = some wire ∧
        decodeFrame .fault wire = .frame (BitVec.ofNat 16 text.length) key (unmask text key) [] ∧
        unmask (unmask text key) key = text) ∧
    (text.length = 65536 →
      (∃ wire, clientFrame p first text key = some wire ∧
        ∀ len k masked rest, decodeFrame .fault wire = .frame len k masked rest → masked.length < text.length) ∧
      (p.encLen16At65536 = 0 →
        ∃ wire, clientFrame p first text key = some wire ∧
          decodeFrame .fault wire = .frame 0 key [] (unmask text key))) ∧
    (∀ bytes, encodeFrame p text = some bytes → decodeFrame .fault bytes = .fault .maskBitClear)

/-! ### `SEQ` and the whole machine -/

/-- 44 R224, 60 R260: `CLOSE` in every state: outside `TERMINATED` it terminates with `err` as it was, every phase idle
and every data register zero; in `TERMINATED` no register changes. The other streams are not touched. -/
def Obligations.CloseTerminates : Prop :=
  ∀ (s : State) (arg : BitVec 32) (rest : List (BitVec 34)), s.io.cmd = cmdBeat 3 arg :: rest →
    (s.regs.connState ≠ .terminated → exec (.close arg) s = .next { s with
      regs := { State.reset.regs with connState := .terminated, err := s.regs.err }
      io := { s.io with cmd := rest } }) ∧
    (s.regs.connState = .terminated → exec (.close arg) s = .next { s with io := { s.io with cmd := rest } })

/-- 30 R96, 44 R225: a `CMD` beat with `op = 0` is never taken ("there is no step"), and stays offered. That `exec` of it
answers the same state, its whole effect, is the model's choice (log 15). -/
def Obligations.ReservedCommandIsNotTaken : Prop :=
  ∀ (s : State) (arg : BitVec 32), exec (.cmdReserved0 arg) s = .next s

/-- 44 R225: a command out of place is not taken by any step: it and everything behind it on `CMD` stay offered; it is
the next instruction once the state permits it; `op = 0` never is. -/
def Obligations.OutOfPlaceCommandsStay : Prop :=
  ∀ (s : State) (beat : BitVec 34) (rest : List (BitVec 34)), s.io.cmd = beat :: rest →
    let arg := BitVec.ofNat 32 (beat.toNat % 2 ^ 32)
    ((beat.toNat / 2 ^ 32 = 0 ∨
      (beat.toNat / 2 ^ 32 = 1 ∧ ¬(s.regs.connState = .awaitingUpgrade ∧ s.regs.sgnPhase = .idle)) ∨
      (beat.toNat / 2 ^ 32 = 2 ∧ s.regs.connState ≠ .processing)) →
      ∀ t, step s = .next t → t.io.cmd = s.io.cmd) ∧
    (s.io.rst = false → beat.toNat / 2 ^ 32 = 1 → s.regs.connState = .awaitingUpgrade → s.regs.sgnPhase = .idle →
      fetch s = some (.upgrade arg)) ∧
    (s.io.rst = false → beat.toNat / 2 ^ 32 = 2 → s.regs.connState = .processing → fetch s = some (.encode arg))

/-- 44 R221: every change of `conn_state` is one of the table's, made by the step the table names. -/
def Obligations.TransitionTable : Prop :=
  ∀ s t : State, step s = .next t → t.regs.connState ≠ s.regs.connState →
    (fetch s = some .reset ∧ s.io.rst = true ∧ t.regs.connState = .awaitingUpgrade) ∨
    (fetch s = some .respByte ∧ s.regs.connState = .awaitingUpgrade ∧ s.regs.sgnRidx = 127 ∧
      t.regs.connState = .handshaken) ∨
    ((∃ x, fetch s = some (.rxB0 x)) ∧ s.regs.connState = .handshaken ∧ t.regs.connState = .readingFrame) ∨
    ((∃ x, fetch s = some (.rxK3 x)) ∧ s.regs.connState = .readingFrame ∧ s.regs.decLen = 0 ∧
      t.regs.connState = .processing) ∨
    ((∃ x, fetch s = some (.rxPay x)) ∧ s.regs.connState = .readingFrame ∧ s.regs.decRem = 1 ∧
      t.regs.connState = .processing) ∨
    ((fetch s = some .rxfLen64 ∨ ∃ l, fetch s = some (.rxfUnmasked l)) ∧ s.regs.connState = .readingFrame ∧
      t.regs.connState = .terminated ∧ t.regs.err ≠ .none) ∨
    ((∃ n : BitVec 32, fetch s = some (.encode n) ∧ n.toNat ≤ 65536) ∧ s.regs.connState = .processing ∧
      t.regs.connState = .writingFrame) ∨
    ((∃ n : BitVec 32, fetch s = some (.encode n) ∧ 65536 < n.toNat) ∧ s.regs.connState = .processing ∧
      t.regs.connState = .terminated ∧ t.regs.err = .payloadTooLarge) ∨
    (fetch s = some .txH1 ∧ s.regs.connState = .writingFrame ∧ s.regs.encN = 0 ∧
      t.regs.connState = .readingFrame) ∨
    ((∃ x, fetch s = some (.txpByte x)) ∧ s.regs.connState = .writingFrame ∧ s.regs.encRem = 1 ∧
      t.regs.connState = .readingFrame) ∨
    ((∃ arg, fetch s = some (.close arg)) ∧ s.regs.connState ≠ .terminated ∧ t.regs.connState = .terminated ∧
      t.regs.err = s.regs.err)

/-- 10_state R24: the codes of `err`, and that it is written only by fault entry and by reset. -/
def Obligations.ErrIsWrittenOnlyByFaults : Prop :=
  (Err.code .none = 0 ∧ Err.code .unsupportedLength = 1 ∧ Err.code .payloadTooLarge = 2 ∧ Err.code .maskBitClear = 3) ∧
  ∀ s t : State, step s = .next t → t.regs.err ≠ s.regs.err →
    (s.io.rst = true ∧ t.regs.err = .none) ∨
    (t.regs.connState = .terminated ∧
      ((fetch s = some .rxfLen64 ∧ t.regs.err = .unsupportedLength) ∨
       ((∃ l, fetch s = some (.rxfUnmasked l)) ∧ t.regs.err = .maskBitClear) ∨
       ((∃ n : BitVec 32, fetch s = some (.encode n) ∧ 65536 < n.toNat) ∧ t.regs.err = .payloadTooLarge)))

/-- 60 R259, 44 R227, R231: there is no return from a fault: in `TERMINATED` with `rst` low a step changes no register and
touches no stream but to take a `CLOSE`. -/
def Obligations.TerminatedIsTerminal : Prop :=
  ∀ s t : State, s.regs.connState = .terminated → s.io.rst = false → step s = .next t →
    t.regs = s.regs ∧
    (t.io = s.io ∨ ∃ arg rest, s.io.cmd = cmdBeat 3 arg :: rest ∧ t.io = { s.io with cmd := rest })

/-- 20_memory R62, 00_scope R8: each stream is lossless and ordered, and a step is at most one beat taken and at most
one emitted: an input loses at most its head, an output gains at most one beat at its end; the host's readiness, `rst`
and the build parameters are not the block's to change. -/
def Obligations.StreamsAreOrdered : Prop :=
  ∀ s t : State, step s = .next t →
    (t.io.cmd = s.io.cmd ∨ ∃ b, s.io.cmd = b :: t.io.cmd) ∧
    (t.io.hk = s.io.hk ∨ ∃ b, s.io.hk = b :: t.io.hk) ∧
    (t.io.rx = s.io.rx ∨ ∃ b, s.io.rx = b :: t.io.rx) ∧
    (t.io.txp = s.io.txp ∨ ∃ b, s.io.txp = b :: t.io.txp) ∧
    (t.io.ai = s.io.ai ∨ ∃ b, t.io.ai = s.io.ai ++ [b]) ∧
    (t.io.ap = s.io.ap ∨ ∃ b, t.io.ap = s.io.ap ++ [b]) ∧
    (t.io.tx = s.io.tx ∨ ∃ b, t.io.tx = s.io.tx ++ [b]) ∧
    (s.io.cmd.length + s.io.hk.length + s.io.rx.length + s.io.txp.length ≤
      t.io.cmd.length + t.io.hk.length + t.io.rx.length + t.io.txp.length + 1) ∧
    (t.io.ai.length + t.io.ap.length + t.io.tx.length ≤
      s.io.ai.length + s.io.ap.length + s.io.tx.length + 1) ∧
    (t.io.aiReady = s.io.aiReady ∧ t.io.apReady = s.io.apReady ∧ t.io.txReady = s.io.txReady ∧
      t.io.rst = s.io.rst ∧ t.params = s.params)

/-- 20_memory R63, 44 R226: each channel moves only in the states the enable table lists for it, and an emitting step
only when its sink accepts; so at most one unit runs. -/
def Obligations.ChannelsMoveOnlyWhenEnabled : Prop :=
  ∀ s t : State, step s = .next t →
    (t.io.cmd ≠ s.io.cmd → ∃ beat, s.io.cmd = beat :: t.io.cmd ∧
      ((beat.toNat / 2 ^ 32 = 1 ∧ s.regs.connState = .awaitingUpgrade ∧ s.regs.sgnPhase = .idle) ∨
       (beat.toNat / 2 ^ 32 = 2 ∧ s.regs.connState = .processing) ∨ beat.toNat / 2 ^ 32 = 3)) ∧
    (t.io.hk ≠ s.io.hk → s.regs.connState = .awaitingUpgrade ∧ s.regs.sgnPhase = .key) ∧
    (t.io.rx ≠ s.io.rx →
      (s.regs.connState = .handshaken ∧ s.regs.decPhase = .b0) ∨ s.regs.connState = .readingFrame) ∧
    (t.io.ai ≠ s.io.ai → s.regs.connState = .readingFrame ∧ s.regs.decPhase = .k3 ∧ s.io.aiReady = true) ∧
    (t.io.ap ≠ s.io.ap → s.regs.connState = .readingFrame ∧ s.regs.decPhase = .pay ∧ s.io.apReady = true) ∧
    (t.io.txp ≠ s.io.txp → s.regs.connState = .writingFrame ∧ s.regs.encPhase = .pay ∧ s.io.txReady = true) ∧
    (t.io.tx ≠ s.io.tx → s.io.txReady = true ∧
      ((s.regs.connState = .awaitingUpgrade ∧ s.regs.sgnPhase = .resp) ∨
       (s.regs.connState = .writingFrame ∧ s.regs.encPhase ≠ .idle)))

/-- 10_state R33, 20_memory R71, R75, 41 R170: no look-ahead: beats the host offers behind a stream's head have no effect
on a step and come through it untouched. -/
def Obligations.NoLookAhead : Prop :=
  ∀ (s t : State) (moreCmd : List (BitVec 34)) (moreHk moreRx moreTxp : List Byte),
    step s = .next t →
    (s.io.cmd ≠ [] → step { s with io := { s.io with cmd := s.io.cmd ++ moreCmd } } =
      .next { t with io := { t.io with cmd := t.io.cmd ++ moreCmd } }) ∧
    (s.io.hk ≠ [] → step { s with io := { s.io with hk := s.io.hk ++ moreHk } } =
      .next { t with io := { t.io with hk := t.io.hk ++ moreHk } }) ∧
    (s.io.rx ≠ [] → step { s with io := { s.io with rx := s.io.rx ++ moreRx } } =
      .next { t with io := { t.io with rx := t.io.rx ++ moreRx } }) ∧
    (s.io.txp ≠ [] → step { s with io := { s.io with txp := s.io.txp ++ moreTxp } } =
      .next { t with io := { t.io with txp := t.io.txp ++ moreTxp } })

/-- 44 R230, 10_state R32, 70 R280: no move of the host writes a register or a parameter, but that registers hold their
reset values once an asserted `rst` is released. The moves are the model's form of R230's table (log 8, log 19). -/
def Obligations.HostWritesNoRegister : Prop :=
  ∀ (m : HostMove) (s : State),
    (hostMove m s).params = s.params ∧
    (¬(m = .setRst false ∧ s.io.rst = true) → (hostMove m s).regs = s.regs) ∧
    (m = .setRst false → s.io.rst = true → (hostMove m s).regs = State.reset.regs)

/-- 44 R229: instances share nothing: a step of one is that instance's own step and leaves every other as it was. -/
def Obligations.InstancesAreIndependent : Prop :=
  ∀ (y : System) (j k : Nat),
    (j ≠ k → (y.stepAt k).instances[j]? = y.instances[j]?) ∧
    (∀ s t, y.instances[k]? = some s → step s = .next t → (y.stepAt k).instances[k]? = some t)

/-! ### Invariants -/

/-- The register invariant (10_state R36 with what makes it inductive) holds at reset. -/
def Obligations.ResetMeetsRegsInv : Prop := RegsInv State.reset.regs

/-- Every step keeps the register invariant, from every state that meets it. -/
def Obligations.StepKeepsRegsInv : Prop :=
  ∀ s t : State, RegsInv s.regs → step s = .next t → RegsInv t.regs

/-- 40 R134 as an invariant: every step keeps the signer's invariant: the triple is what absorbing the key bytes taken
gives, and in `S_RESP` the token is `accept` of them. -/
def Obligations.StepKeepsSignerInv : Prop :=
  ∀ (k : List Byte) (s t : State), SignerInv k s.regs → step s = .next t →
    SignerInv (keyAfter k (fetch s)) t.regs

/-- 10_state R36: its ten items hold in every state that steps and moves of the host reach from reset, at any
parameters; the token of item 9 is `accept(key)` for the key bytes taken since the `UPGRADE`. -/
def Obligations.ReachableStatesMeetR36 : Prop :=
  ∀ (k : List Byte) (s : State), Reachable k s →
    R36 s.regs ∧ (s.regs.sgnPhase = .resp → s.regs.sgnToken.toList = accept k)
end

