-- ==== Sys2Proof/Laws/Decode.lean ====
section
/-! SUPPORT. What the bit-field functions of the encodings give back. -/

namespace Sys2Proof

@[simp] theorem maskBit_frameByte1 (m : Bool) (l : BitVec 7) : maskBit (frameByte1 m l) = m := by
  revert m l; decide

@[simp] theorem lenMarker_frameByte1 (m : Bool) (l : BitVec 7) : lenMarker (frameByte1 m l) = l := by
  revert m l; decide

@[simp] theorem frameByte1_fields (x : Byte) : frameByte1 (maskBit x) (lenMarker x) = x := by
  revert x; decide

/-- The high part of a concatenation. -/
theorem extract_append_high {n m : Nat} (a : BitVec n) (b : BitVec m) : (a ++ b).extractLsb' m n = a := by
  ext i hi
  simp [BitVec.getLsbD_append, BitVec.getLsbD_eq_getElem hi]

/-- The low part of a concatenation. -/
theorem extract_append_low {n m : Nat} (a : BitVec n) (b : BitVec m) : (a ++ b).extractLsb' 0 m = b := by
  ext i hi
  simp [BitVec.getLsbD_append, hi]

@[simp] theorem hiByte_be16 (hi lo : Byte) : hiByte (be16 hi lo) = hi := extract_append_high hi lo

@[simp] theorem loByte_be16 (hi lo : Byte) : loByte (be16 hi lo) = lo := extract_append_low hi lo

@[simp] theorem cmdOp_cmdBeat (op : BitVec 2) (arg : BitVec 32) : cmdOp (cmdBeat op arg) = op :=
  extract_append_high op arg

@[simp] theorem cmdArg_cmdBeat (op : BitVec 2) (arg : BitVec 32) : cmdArg (cmdBeat op arg) = arg :=
  extract_append_low op arg

/-- A beat is its two fields. -/
theorem cmdBeat_fields (beat : BitVec 34) : cmdBeat (cmdOp beat) (cmdArg beat) = beat := by
  apply BitVec.eq_of_toNat_eq
  simp only [cmdBeat, cmdOp, cmdArg, BitVec.toNat_append, BitVec.extractLsb'_toNat, Nat.shiftRight_zero]
  have := beat.isLt
  rw [← Nat.shiftLeft_add_eq_or_of_lt (by omega), Nat.shiftLeft_eq, Nat.shiftRight_eq_div_pow]
  omega

@[simp] theorem decodeCmd_reserved (arg : BitVec 32) : decodeCmd (cmdBeat 0#2 arg) = .cmdReserved0 arg := by
  simp [decodeCmd]

@[simp] theorem decodeCmd_upgrade (arg : BitVec 32) : decodeCmd (cmdBeat 1#2 arg) = .upgrade arg := by
  simp [decodeCmd]

@[simp] theorem decodeCmd_encode (arg : BitVec 32) : decodeCmd (cmdBeat 2#2 arg) = .encode arg := by
  simp [decodeCmd]

@[simp] theorem decodeCmd_close (arg : BitVec 32) : decodeCmd (cmdBeat 3#2 arg) = .close arg := by
  simp [decodeCmd]

end Sys2Proof
end

