-- ==== Sys2Proof/Laws/State.lean ====
section
/-! SUPPORT. One lemma per field per update of State, each true by unfolding the update. -/

namespace Sys2Proof.Machine

/-! ### `takeCmd` -/

@[simp] theorem takeCmd_regs (s : State) : (takeCmd s).regs = s.regs := rfl
@[simp] theorem takeCmd_params (s : State) : (takeCmd s).params = s.params := rfl
@[simp] theorem takeCmd_arbiter (s : State) : (takeCmd s).arbiter = s.arbiter := rfl
@[simp] theorem takeCmd_arbTick (s : State) : (takeCmd s).arbTick = s.arbTick := rfl
@[simp] theorem takeCmd_unmResult (s : State) : (takeCmd s).unmResult = s.unmResult := rfl
@[simp] theorem takeCmd_io_cmd (s : State) : (takeCmd s).io.cmd = s.io.cmd.tail := rfl
@[simp] theorem takeCmd_io_hk (s : State) : (takeCmd s).io.hk = s.io.hk := rfl
@[simp] theorem takeCmd_io_rx (s : State) : (takeCmd s).io.rx = s.io.rx := rfl
@[simp] theorem takeCmd_io_txp (s : State) : (takeCmd s).io.txp = s.io.txp := rfl
@[simp] theorem takeCmd_io_ai (s : State) : (takeCmd s).io.ai = s.io.ai := rfl
@[simp] theorem takeCmd_io_ap (s : State) : (takeCmd s).io.ap = s.io.ap := rfl
@[simp] theorem takeCmd_io_tx (s : State) : (takeCmd s).io.tx = s.io.tx := rfl
@[simp] theorem takeCmd_io_aiReady (s : State) : (takeCmd s).io.aiReady = s.io.aiReady := rfl
@[simp] theorem takeCmd_io_apReady (s : State) : (takeCmd s).io.apReady = s.io.apReady := rfl
@[simp] theorem takeCmd_io_txReady (s : State) : (takeCmd s).io.txReady = s.io.txReady := rfl
@[simp] theorem takeCmd_io_rst (s : State) : (takeCmd s).io.rst = s.io.rst := rfl

/-! ### `takeHk` -/

@[simp] theorem takeHk_regs (s : State) : (takeHk s).regs = s.regs := rfl
@[simp] theorem takeHk_params (s : State) : (takeHk s).params = s.params := rfl
@[simp] theorem takeHk_arbiter (s : State) : (takeHk s).arbiter = s.arbiter := rfl
@[simp] theorem takeHk_arbTick (s : State) : (takeHk s).arbTick = s.arbTick := rfl
@[simp] theorem takeHk_unmResult (s : State) : (takeHk s).unmResult = s.unmResult := rfl
@[simp] theorem takeHk_io_cmd (s : State) : (takeHk s).io.cmd = s.io.cmd := rfl
@[simp] theorem takeHk_io_hk (s : State) : (takeHk s).io.hk = s.io.hk.tail := rfl
@[simp] theorem takeHk_io_rx (s : State) : (takeHk s).io.rx = s.io.rx := rfl
@[simp] theorem takeHk_io_txp (s : State) : (takeHk s).io.txp = s.io.txp := rfl
@[simp] theorem takeHk_io_ai (s : State) : (takeHk s).io.ai = s.io.ai := rfl
@[simp] theorem takeHk_io_ap (s : State) : (takeHk s).io.ap = s.io.ap := rfl
@[simp] theorem takeHk_io_tx (s : State) : (takeHk s).io.tx = s.io.tx := rfl
@[simp] theorem takeHk_io_aiReady (s : State) : (takeHk s).io.aiReady = s.io.aiReady := rfl
@[simp] theorem takeHk_io_apReady (s : State) : (takeHk s).io.apReady = s.io.apReady := rfl
@[simp] theorem takeHk_io_txReady (s : State) : (takeHk s).io.txReady = s.io.txReady := rfl
@[simp] theorem takeHk_io_rst (s : State) : (takeHk s).io.rst = s.io.rst := rfl

/-! ### `takeRx` -/

@[simp] theorem takeRx_regs (s : State) : (takeRx s).regs = s.regs := rfl
@[simp] theorem takeRx_params (s : State) : (takeRx s).params = s.params := rfl
@[simp] theorem takeRx_arbiter (s : State) : (takeRx s).arbiter = s.arbiter := rfl
@[simp] theorem takeRx_arbTick (s : State) : (takeRx s).arbTick = s.arbTick := rfl
@[simp] theorem takeRx_unmResult (s : State) : (takeRx s).unmResult = s.unmResult := rfl
@[simp] theorem takeRx_io_cmd (s : State) : (takeRx s).io.cmd = s.io.cmd := rfl
@[simp] theorem takeRx_io_hk (s : State) : (takeRx s).io.hk = s.io.hk := rfl
@[simp] theorem takeRx_io_rx (s : State) : (takeRx s).io.rx = s.io.rx.tail := rfl
@[simp] theorem takeRx_io_txp (s : State) : (takeRx s).io.txp = s.io.txp := rfl
@[simp] theorem takeRx_io_ai (s : State) : (takeRx s).io.ai = s.io.ai := rfl
@[simp] theorem takeRx_io_ap (s : State) : (takeRx s).io.ap = s.io.ap := rfl
@[simp] theorem takeRx_io_tx (s : State) : (takeRx s).io.tx = s.io.tx := rfl
@[simp] theorem takeRx_io_aiReady (s : State) : (takeRx s).io.aiReady = s.io.aiReady := rfl
@[simp] theorem takeRx_io_apReady (s : State) : (takeRx s).io.apReady = s.io.apReady := rfl
@[simp] theorem takeRx_io_txReady (s : State) : (takeRx s).io.txReady = s.io.txReady := rfl
@[simp] theorem takeRx_io_rst (s : State) : (takeRx s).io.rst = s.io.rst := rfl

/-! ### `takeTxp` -/

@[simp] theorem takeTxp_regs (s : State) : (takeTxp s).regs = s.regs := rfl
@[simp] theorem takeTxp_params (s : State) : (takeTxp s).params = s.params := rfl
@[simp] theorem takeTxp_arbiter (s : State) : (takeTxp s).arbiter = s.arbiter := rfl
@[simp] theorem takeTxp_arbTick (s : State) : (takeTxp s).arbTick = s.arbTick := rfl
@[simp] theorem takeTxp_unmResult (s : State) : (takeTxp s).unmResult = s.unmResult := rfl
@[simp] theorem takeTxp_io_cmd (s : State) : (takeTxp s).io.cmd = s.io.cmd := rfl
@[simp] theorem takeTxp_io_hk (s : State) : (takeTxp s).io.hk = s.io.hk := rfl
@[simp] theorem takeTxp_io_rx (s : State) : (takeTxp s).io.rx = s.io.rx := rfl
@[simp] theorem takeTxp_io_txp (s : State) : (takeTxp s).io.txp = s.io.txp.tail := rfl
@[simp] theorem takeTxp_io_ai (s : State) : (takeTxp s).io.ai = s.io.ai := rfl
@[simp] theorem takeTxp_io_ap (s : State) : (takeTxp s).io.ap = s.io.ap := rfl
@[simp] theorem takeTxp_io_tx (s : State) : (takeTxp s).io.tx = s.io.tx := rfl
@[simp] theorem takeTxp_io_aiReady (s : State) : (takeTxp s).io.aiReady = s.io.aiReady := rfl
@[simp] theorem takeTxp_io_apReady (s : State) : (takeTxp s).io.apReady = s.io.apReady := rfl
@[simp] theorem takeTxp_io_txReady (s : State) : (takeTxp s).io.txReady = s.io.txReady := rfl
@[simp] theorem takeTxp_io_rst (s : State) : (takeTxp s).io.rst = s.io.rst := rfl

/-! ### `emitAi` -/

@[simp] theorem emitAi_regs (b : AiBeat) (s : State) : (emitAi b s).regs = s.regs := rfl
@[simp] theorem emitAi_params (b : AiBeat) (s : State) : (emitAi b s).params = s.params := rfl
@[simp] theorem emitAi_arbiter (b : AiBeat) (s : State) : (emitAi b s).arbiter = s.arbiter := rfl
@[simp] theorem emitAi_arbTick (b : AiBeat) (s : State) : (emitAi b s).arbTick = s.arbTick := rfl
@[simp] theorem emitAi_unmResult (b : AiBeat) (s : State) : (emitAi b s).unmResult = s.unmResult := rfl
@[simp] theorem emitAi_io_cmd (b : AiBeat) (s : State) : (emitAi b s).io.cmd = s.io.cmd := rfl
@[simp] theorem emitAi_io_hk (b : AiBeat) (s : State) : (emitAi b s).io.hk = s.io.hk := rfl
@[simp] theorem emitAi_io_rx (b : AiBeat) (s : State) : (emitAi b s).io.rx = s.io.rx := rfl
@[simp] theorem emitAi_io_txp (b : AiBeat) (s : State) : (emitAi b s).io.txp = s.io.txp := rfl
@[simp] theorem emitAi_io_ai (b : AiBeat) (s : State) : (emitAi b s).io.ai = s.io.ai ++ [b] := rfl
@[simp] theorem emitAi_io_ap (b : AiBeat) (s : State) : (emitAi b s).io.ap = s.io.ap := rfl
@[simp] theorem emitAi_io_tx (b : AiBeat) (s : State) : (emitAi b s).io.tx = s.io.tx := rfl
@[simp] theorem emitAi_io_aiReady (b : AiBeat) (s : State) : (emitAi b s).io.aiReady = s.io.aiReady := rfl
@[simp] theorem emitAi_io_apReady (b : AiBeat) (s : State) : (emitAi b s).io.apReady = s.io.apReady := rfl
@[simp] theorem emitAi_io_txReady (b : AiBeat) (s : State) : (emitAi b s).io.txReady = s.io.txReady := rfl
@[simp] theorem emitAi_io_rst (b : AiBeat) (s : State) : (emitAi b s).io.rst = s.io.rst := rfl

/-! ### `emitAp` -/

@[simp] theorem emitAp_regs (b : ApBeat) (s : State) : (emitAp b s).regs = s.regs := rfl
@[simp] theorem emitAp_params (b : ApBeat) (s : State) : (emitAp b s).params = s.params := rfl
@[simp] theorem emitAp_arbiter (b : ApBeat) (s : State) : (emitAp b s).arbiter = s.arbiter := rfl
@[simp] theorem emitAp_arbTick (b : ApBeat) (s : State) : (emitAp b s).arbTick = s.arbTick := rfl
@[simp] theorem emitAp_unmResult (b : ApBeat) (s : State) : (emitAp b s).unmResult = s.unmResult := rfl
@[simp] theorem emitAp_io_cmd (b : ApBeat) (s : State) : (emitAp b s).io.cmd = s.io.cmd := rfl
@[simp] theorem emitAp_io_hk (b : ApBeat) (s : State) : (emitAp b s).io.hk = s.io.hk := rfl
@[simp] theorem emitAp_io_rx (b : ApBeat) (s : State) : (emitAp b s).io.rx = s.io.rx := rfl
@[simp] theorem emitAp_io_txp (b : ApBeat) (s : State) : (emitAp b s).io.txp = s.io.txp := rfl
@[simp] theorem emitAp_io_ai (b : ApBeat) (s : State) : (emitAp b s).io.ai = s.io.ai := rfl
@[simp] theorem emitAp_io_ap (b : ApBeat) (s : State) : (emitAp b s).io.ap = s.io.ap ++ [b] := rfl
@[simp] theorem emitAp_io_tx (b : ApBeat) (s : State) : (emitAp b s).io.tx = s.io.tx := rfl
@[simp] theorem emitAp_io_aiReady (b : ApBeat) (s : State) : (emitAp b s).io.aiReady = s.io.aiReady := rfl
@[simp] theorem emitAp_io_apReady (b : ApBeat) (s : State) : (emitAp b s).io.apReady = s.io.apReady := rfl
@[simp] theorem emitAp_io_txReady (b : ApBeat) (s : State) : (emitAp b s).io.txReady = s.io.txReady := rfl
@[simp] theorem emitAp_io_rst (b : ApBeat) (s : State) : (emitAp b s).io.rst = s.io.rst := rfl

/-! ### `emitTx` -/

@[simp] theorem emitTx_regs (b : TxBeat) (s : State) : (emitTx b s).regs = s.regs := rfl
@[simp] theorem emitTx_params (b : TxBeat) (s : State) : (emitTx b s).params = s.params := rfl
@[simp] theorem emitTx_arbiter (b : TxBeat) (s : State) : (emitTx b s).arbiter = s.arbiter := rfl
@[simp] theorem emitTx_arbTick (b : TxBeat) (s : State) : (emitTx b s).arbTick = s.arbTick := rfl
@[simp] theorem emitTx_unmResult (b : TxBeat) (s : State) : (emitTx b s).unmResult = s.unmResult := rfl
@[simp] theorem emitTx_io_cmd (b : TxBeat) (s : State) : (emitTx b s).io.cmd = s.io.cmd := rfl
@[simp] theorem emitTx_io_hk (b : TxBeat) (s : State) : (emitTx b s).io.hk = s.io.hk := rfl
@[simp] theorem emitTx_io_rx (b : TxBeat) (s : State) : (emitTx b s).io.rx = s.io.rx := rfl
@[simp] theorem emitTx_io_txp (b : TxBeat) (s : State) : (emitTx b s).io.txp = s.io.txp := rfl
@[simp] theorem emitTx_io_ai (b : TxBeat) (s : State) : (emitTx b s).io.ai = s.io.ai := rfl
@[simp] theorem emitTx_io_ap (b : TxBeat) (s : State) : (emitTx b s).io.ap = s.io.ap := rfl
@[simp] theorem emitTx_io_tx (b : TxBeat) (s : State) : (emitTx b s).io.tx = s.io.tx ++ [b] := rfl
@[simp] theorem emitTx_io_aiReady (b : TxBeat) (s : State) : (emitTx b s).io.aiReady = s.io.aiReady := rfl
@[simp] theorem emitTx_io_apReady (b : TxBeat) (s : State) : (emitTx b s).io.apReady = s.io.apReady := rfl
@[simp] theorem emitTx_io_txReady (b : TxBeat) (s : State) : (emitTx b s).io.txReady = s.io.txReady := rfl
@[simp] theorem emitTx_io_rst (b : TxBeat) (s : State) : (emitTx b s).io.rst = s.io.rst := rfl

/-! ### `setRegs` -/

@[simp] theorem setRegs_regs (r : Regs) (s : State) : (setRegs r s).regs = r := rfl
@[simp] theorem setRegs_params (r : Regs) (s : State) : (setRegs r s).params = s.params := rfl
@[simp] theorem setRegs_arbiter (r : Regs) (s : State) : (setRegs r s).arbiter = s.arbiter := rfl
@[simp] theorem setRegs_arbTick (r : Regs) (s : State) : (setRegs r s).arbTick = s.arbTick := rfl
@[simp] theorem setRegs_unmResult (r : Regs) (s : State) : (setRegs r s).unmResult = s.unmResult := rfl
@[simp] theorem setRegs_io (r : Regs) (s : State) : (setRegs r s).io = s.io := rfl

/-! ### `raise` -/

@[simp] theorem raise_regs (e : Err) (s : State) : (raise e s).regs = terminated e := rfl
@[simp] theorem raise_params (e : Err) (s : State) : (raise e s).params = s.params := rfl
@[simp] theorem raise_arbiter (e : Err) (s : State) : (raise e s).arbiter = s.arbiter := rfl
@[simp] theorem raise_arbTick (e : Err) (s : State) : (raise e s).arbTick = s.arbTick := rfl
@[simp] theorem raise_unmResult (e : Err) (s : State) : (raise e s).unmResult = s.unmResult := rfl
@[simp] theorem raise_io (e : Err) (s : State) : (raise e s).io = s.io := rfl

/-! ### `resetRegs` -/

@[simp] theorem resetRegs_regs (s : State) : (resetRegs s).regs = Regs.reset := rfl
@[simp] theorem resetRegs_params (s : State) : (resetRegs s).params = s.params := rfl
@[simp] theorem resetRegs_arbiter (s : State) : (resetRegs s).arbiter = s.arbiter := rfl
@[simp] theorem resetRegs_arbTick (s : State) : (resetRegs s).arbTick = s.arbTick := rfl
@[simp] theorem resetRegs_unmResult (s : State) : (resetRegs s).unmResult = s.unmResult := rfl
@[simp] theorem resetRegs_io (s : State) : (resetRegs s).io = s.io := rfl

end Sys2Proof.Machine
end

