-- ==== Sys2Proof/Laws/Ops.lean ====
section
/-! SUPPORT. What the shared operations of a step can do, said once. -/

namespace Sys2Proof.Machine

/-! ### The guarded step -/

@[simp] theorem performIf_true (s t : State) : performIf true s t = .next t := rfl

@[simp] theorem performIf_false (s t : State) : performIf false s t = .next s := rfl

theorem performIf_isNext (c : Bool) (s t : State) : ∃ u, performIf c s t = .next u := by
  cases c <;> simp

/-- A guarded step answers the new state when enabled and the old one when not. -/
theorem performIf_cases {c : Bool} {s t u : State} (h : performIf c s t = .next u) :
    (c = true ∧ u = t) ∨ (c = false ∧ u = s) := by
  cases c <;> simp_all

/-- Every instruction answers a next state: the model's `Fault` has no constructor and no arm refuses. -/
theorem exec_isNext (i : Instr) (s : State) : ∃ t, exec i s = .next t := by
  cases i
  case unmLoad => exact ⟨_, rfl⟩
  case unmByte => exact ⟨_, rfl⟩
  case reset => exact ⟨_, rfl⟩
  case cmdReserved0 => exact ⟨_, rfl⟩
  all_goals exact performIf_isNext _ _ _

/-! ### Choosing the order -/

@[simp] theorem takeTurn_regs (s : State) : (takeTurn s).regs = s.regs := by
  unfold takeTurn; split
  · split <;> rfl
  · rfl

@[simp] theorem takeTurn_io (s : State) : (takeTurn s).io = s.io := by
  unfold takeTurn; split
  · split <;> rfl
  · rfl

@[simp] theorem takeTurn_params (s : State) : (takeTurn s).params = s.params := by
  unfold takeTurn; split
  · split <;> rfl
  · rfl

@[simp] theorem takeTurn_unmResult (s : State) : (takeTurn s).unmResult = s.unmResult := by
  unfold takeTurn; split
  · split <;> rfl
  · rfl

theorem takeTurn_uncontested {s : State} (h : contested s = false) : takeTurn s = s := by
  simp [takeTurn, h]

/-! ### Fetch -/

/-- Where the fetched instruction comes from. -/
theorem fetch_cases {s : State} {i : Instr} (h : fetch s = some i) :
    (s.io.rst = true ∧ i = .reset) ∨
    (s.io.rst = false ∧ cmdDue s = some i) ∨
    (s.io.rst = false ∧ dataDue s = some i) := by
  unfold fetch at h
  split at h
  · exact .inl ⟨‹_›, by simpa using h.symm⟩
  · have hr : s.io.rst = false := by simpa using ‹¬s.io.rst = true›
    split at h
    · exact .inr (.inr ⟨hr, h⟩)
    · exact .inr (.inl ⟨hr, by simp_all⟩)
    · split at h
      · exact .inr (.inl ⟨hr, by simp_all⟩)
      · exact .inr (.inr ⟨hr, by simp_all⟩)

/-- Without a command to take, the data step is fetched. -/
theorem fetch_of_no_cmd {s : State} (hr : s.io.rst = false) (hc : cmdDue s = none) : fetch s = dataDue s := by
  simp [fetch, hr, hc]

/-- Without a data step, the command is fetched. -/
theorem fetch_of_no_data {s : State} (hr : s.io.rst = false) (hd : dataDue s = none) : fetch s = cmdDue s := by
  unfold fetch
  rw [hd]
  cases h : cmdDue s <;> simp [hr]

@[simp] theorem cmdDue_of_nil {s : State} (h : s.io.cmd = []) : cmdDue s = none := by
  simp [cmdDue, h]

theorem contested_of_no_cmd {s : State} (hc : cmdDue s = none) : contested s = false := by
  simp [contested, hc]

theorem contested_of_no_data {s : State} (hd : dataDue s = none) : contested s = false := by
  simp [contested, hd]

/-- The command due is one of the three that can be taken, in a state that takes it. -/
theorem cmdDue_cases {s : State} {i : Instr} (h : cmdDue s = some i) :
    ∃ beat rest, s.io.cmd = beat :: rest ∧ decodeCmd beat = i ∧
      ((∃ klen, i = .upgrade klen ∧ s.regs.connState = .awaitingUpgrade ∧ s.regs.sgnPhase = .idle) ∨
       (∃ n, i = .encode n ∧ s.regs.connState = .processing) ∨
       (∃ arg, i = .close arg)) := by
  unfold cmdDue at h
  split at h
  · cases h
  · rename_i beat rest hcmd
    split at h
    · rename_i hl
      injection h with h
      refine ⟨beat, rest, hcmd, h, ?_⟩
      rw [h] at hl
      unfold cmdLegal at hl
      split at hl
      · exact .inl ⟨_, rfl, by simpa [upgradeLegal] using hl⟩
      · exact .inr (.inl ⟨_, rfl, by simpa [encodeLegal] using hl⟩)
      · exact .inr (.inr ⟨_, rfl⟩)
      · cases hl
    · cases h

/-- The slot due, read back as the registers that make it due (20_memory R63). -/
theorem slotOf_cases {r : Regs} {slot : Slot} (h : slotOf r = some slot) :
    (r.connState = .awaitingUpgrade ∧ ((r.sgnPhase = .key ∧ slot = .hk) ∨ (r.sgnPhase = .resp ∧ slot = .resp))) ∨
    (r.connState = .handshaken ∧ r.decPhase = .b0 ∧ slot = .b0) ∨
    (r.connState = .readingFrame ∧
      ((r.decPhase = .b0 ∧ slot = .b0) ∨ (r.decPhase = .b1 ∧ slot = .b1) ∨ (r.decPhase = .x0 ∧ slot = .x0) ∨
       (r.decPhase = .x1 ∧ slot = .x1) ∨ (r.decPhase = .k0 ∧ slot = .k0) ∨ (r.decPhase = .k1 ∧ slot = .k1) ∨
       (r.decPhase = .k2 ∧ slot = .k2) ∨ (r.decPhase = .k3 ∧ slot = .k3) ∨ (r.decPhase = .pay ∧ slot = .pay))) ∨
    (r.connState = .writingFrame ∧
      ((r.encPhase = .h0 ∧ slot = .h0) ∨ (r.encPhase = .h1 ∧ slot = .h1) ∨ (r.encPhase = .h2 ∧ slot = .h2) ∨
       (r.encPhase = .h3 ∧ slot = .h3) ∨ (r.encPhase = .pay ∧ slot = .txp))) := by
  unfold slotOf at h
  cases hc : r.connState <;> cases hs : r.sgnPhase <;> cases hd : r.decPhase <;> cases he : r.encPhase <;>
    simp_all

end Sys2Proof.Machine
end

