-- ==== Sys2Proof/Laws/Regs.lean ====
section
/-! SUPPORT. Which registers each register update of a step leaves as they were, field by field, so that no proof unfolds
one (`signKey` carries the whole `GUID` inside). -/

namespace Sys2Proof.Machine

/-! ### `setSha` (R128) -/

@[simp] theorem setSha_connState (st : ShaState) (r : Regs) : (setSha st r).connState = r.connState := by
  rfl
@[simp] theorem setSha_err (st : ShaState) (r : Regs) : (setSha st r).err = r.err := by
  rfl
@[simp] theorem setSha_sgnPhase (st : ShaState) (r : Regs) : (setSha st r).sgnPhase = r.sgnPhase := by
  rfl
@[simp] theorem setSha_sgnKrem (st : ShaState) (r : Regs) : (setSha st r).sgnKrem = r.sgnKrem := by
  rfl
@[simp] theorem setSha_sgnToken (st : ShaState) (r : Regs) : (setSha st r).sgnToken = r.sgnToken := by
  rfl
@[simp] theorem setSha_sgnRidx (st : ShaState) (r : Regs) : (setSha st r).sgnRidx = r.sgnRidx := by
  rfl
@[simp] theorem setSha_decPhase (st : ShaState) (r : Regs) : (setSha st r).decPhase = r.decPhase := by
  rfl
@[simp] theorem setSha_decLen (st : ShaState) (r : Regs) : (setSha st r).decLen = r.decLen := by
  rfl
@[simp] theorem setSha_decRem (st : ShaState) (r : Regs) : (setSha st r).decRem = r.decRem := by
  rfl
@[simp] theorem setSha_decKey (st : ShaState) (r : Regs) : (setSha st r).decKey = r.decKey := by
  rfl
@[simp] theorem setSha_unmKey (st : ShaState) (r : Regs) : (setSha st r).unmKey = r.unmKey := by
  rfl
@[simp] theorem setSha_unmIdx (st : ShaState) (r : Regs) : (setSha st r).unmIdx = r.unmIdx := by
  rfl
@[simp] theorem setSha_encPhase (st : ShaState) (r : Regs) : (setSha st r).encPhase = r.encPhase := by
  rfl
@[simp] theorem setSha_encN (st : ShaState) (r : Regs) : (setSha st r).encN = r.encN := by
  rfl
@[simp] theorem setSha_encRem (st : ShaState) (r : Regs) : (setSha st r).encRem = r.encRem := by
  rfl

/-! ### `signKey` (R132, R133) -/

@[simp] theorem signKey_connState (st : ShaState) (r : Regs) : (signKey st r).connState = r.connState := by
  simp only [signKey, setSha]
@[simp] theorem signKey_err (st : ShaState) (r : Regs) : (signKey st r).err = r.err := by
  simp only [signKey, setSha]
@[simp] theorem signKey_decPhase (st : ShaState) (r : Regs) : (signKey st r).decPhase = r.decPhase := by
  simp only [signKey, setSha]
@[simp] theorem signKey_decLen (st : ShaState) (r : Regs) : (signKey st r).decLen = r.decLen := by
  simp only [signKey, setSha]
@[simp] theorem signKey_decRem (st : ShaState) (r : Regs) : (signKey st r).decRem = r.decRem := by
  simp only [signKey, setSha]
@[simp] theorem signKey_decKey (st : ShaState) (r : Regs) : (signKey st r).decKey = r.decKey := by
  simp only [signKey, setSha]
@[simp] theorem signKey_unmKey (st : ShaState) (r : Regs) : (signKey st r).unmKey = r.unmKey := by
  simp only [signKey, setSha]
@[simp] theorem signKey_unmIdx (st : ShaState) (r : Regs) : (signKey st r).unmIdx = r.unmIdx := by
  simp only [signKey, setSha]
@[simp] theorem signKey_encPhase (st : ShaState) (r : Regs) : (signKey st r).encPhase = r.encPhase := by
  simp only [signKey, setSha]
@[simp] theorem signKey_encN (st : ShaState) (r : Regs) : (signKey st r).encN = r.encN := by
  simp only [signKey, setSha]
@[simp] theorem signKey_encRem (st : ShaState) (r : Regs) : (signKey st r).encRem = r.encRem := by
  simp only [signKey, setSha]

/-! ### `upgradeRegs` (R132) -/

@[simp] theorem upgradeRegs_connState (klen : BitVec 32) (r : Regs) : (upgradeRegs klen r).connState = r.connState := by
  unfold upgradeRegs; split <;> simp
@[simp] theorem upgradeRegs_err (klen : BitVec 32) (r : Regs) : (upgradeRegs klen r).err = r.err := by
  unfold upgradeRegs; split <;> simp
@[simp] theorem upgradeRegs_decPhase (klen : BitVec 32) (r : Regs) : (upgradeRegs klen r).decPhase = r.decPhase := by
  unfold upgradeRegs; split <;> simp
@[simp] theorem upgradeRegs_decLen (klen : BitVec 32) (r : Regs) : (upgradeRegs klen r).decLen = r.decLen := by
  unfold upgradeRegs; split <;> simp
@[simp] theorem upgradeRegs_decRem (klen : BitVec 32) (r : Regs) : (upgradeRegs klen r).decRem = r.decRem := by
  unfold upgradeRegs; split <;> simp
@[simp] theorem upgradeRegs_decKey (klen : BitVec 32) (r : Regs) : (upgradeRegs klen r).decKey = r.decKey := by
  unfold upgradeRegs; split <;> simp
@[simp] theorem upgradeRegs_unmKey (klen : BitVec 32) (r : Regs) : (upgradeRegs klen r).unmKey = r.unmKey := by
  unfold upgradeRegs; split <;> simp
@[simp] theorem upgradeRegs_unmIdx (klen : BitVec 32) (r : Regs) : (upgradeRegs klen r).unmIdx = r.unmIdx := by
  unfold upgradeRegs; split <;> simp
@[simp] theorem upgradeRegs_encPhase (klen : BitVec 32) (r : Regs) : (upgradeRegs klen r).encPhase = r.encPhase := by
  unfold upgradeRegs; split <;> simp
@[simp] theorem upgradeRegs_encN (klen : BitVec 32) (r : Regs) : (upgradeRegs klen r).encN = r.encN := by
  unfold upgradeRegs; split <;> simp
@[simp] theorem upgradeRegs_encRem (klen : BitVec 32) (r : Regs) : (upgradeRegs klen r).encRem = r.encRem := by
  unfold upgradeRegs; split <;> simp

/-! ### `hkRegs` (R133) -/

@[simp] theorem hkRegs_connState (x : Byte) (r : Regs) : (hkRegs x r).connState = r.connState := by
  unfold hkRegs; dsimp only; split <;> simp
@[simp] theorem hkRegs_err (x : Byte) (r : Regs) : (hkRegs x r).err = r.err := by
  unfold hkRegs; dsimp only; split <;> simp
@[simp] theorem hkRegs_decPhase (x : Byte) (r : Regs) : (hkRegs x r).decPhase = r.decPhase := by
  unfold hkRegs; dsimp only; split <;> simp
@[simp] theorem hkRegs_decLen (x : Byte) (r : Regs) : (hkRegs x r).decLen = r.decLen := by
  unfold hkRegs; dsimp only; split <;> simp
@[simp] theorem hkRegs_decRem (x : Byte) (r : Regs) : (hkRegs x r).decRem = r.decRem := by
  unfold hkRegs; dsimp only; split <;> simp
@[simp] theorem hkRegs_decKey (x : Byte) (r : Regs) : (hkRegs x r).decKey = r.decKey := by
  unfold hkRegs; dsimp only; split <;> simp
@[simp] theorem hkRegs_unmKey (x : Byte) (r : Regs) : (hkRegs x r).unmKey = r.unmKey := by
  unfold hkRegs; dsimp only; split <;> simp
@[simp] theorem hkRegs_unmIdx (x : Byte) (r : Regs) : (hkRegs x r).unmIdx = r.unmIdx := by
  unfold hkRegs; dsimp only; split <;> simp
@[simp] theorem hkRegs_encPhase (x : Byte) (r : Regs) : (hkRegs x r).encPhase = r.encPhase := by
  unfold hkRegs; dsimp only; split <;> simp
@[simp] theorem hkRegs_encN (x : Byte) (r : Regs) : (hkRegs x r).encN = r.encN := by
  unfold hkRegs; dsimp only; split <;> simp
@[simp] theorem hkRegs_encRem (x : Byte) (r : Regs) : (hkRegs x r).encRem = r.encRem := by
  unfold hkRegs; dsimp only; split <;> simp

/-! ### `respRegs` (R135, R136) -/

@[simp] theorem respRegs_err (r : Regs) : (respRegs r).err = r.err := by
  unfold respRegs; split <;> rfl
@[simp] theorem respRegs_decPhase (r : Regs) : (respRegs r).decPhase = r.decPhase := by
  unfold respRegs; split <;> rfl
@[simp] theorem respRegs_decLen (r : Regs) : (respRegs r).decLen = r.decLen := by
  unfold respRegs; split <;> rfl
@[simp] theorem respRegs_decRem (r : Regs) : (respRegs r).decRem = r.decRem := by
  unfold respRegs; split <;> rfl
@[simp] theorem respRegs_decKey (r : Regs) : (respRegs r).decKey = r.decKey := by
  unfold respRegs; split <;> rfl
@[simp] theorem respRegs_unmKey (r : Regs) : (respRegs r).unmKey = r.unmKey := by
  unfold respRegs; split <;> rfl
@[simp] theorem respRegs_unmIdx (r : Regs) : (respRegs r).unmIdx = r.unmIdx := by
  unfold respRegs; split <;> rfl
@[simp] theorem respRegs_encPhase (r : Regs) : (respRegs r).encPhase = r.encPhase := by
  unfold respRegs; split <;> rfl
@[simp] theorem respRegs_encN (r : Regs) : (respRegs r).encN = r.encN := by
  unfold respRegs; split <;> rfl
@[simp] theorem respRegs_encRem (r : Regs) : (respRegs r).encRem = r.encRem := by
  unfold respRegs; split <;> rfl

/-! ### `k3Regs` (R167, R169) -/

@[simp] theorem k3Regs_err (x : Byte) (r : Regs) : (k3Regs x r).err = r.err := by
  unfold k3Regs; split <;> rfl
@[simp] theorem k3Regs_sgnPhase (x : Byte) (r : Regs) : (k3Regs x r).sgnPhase = r.sgnPhase := by
  unfold k3Regs; split <;> rfl
@[simp] theorem k3Regs_sgnKrem (x : Byte) (r : Regs) : (k3Regs x r).sgnKrem = r.sgnKrem := by
  unfold k3Regs; split <;> rfl
@[simp] theorem k3Regs_sgnH (x : Byte) (r : Regs) : (k3Regs x r).sgnH = r.sgnH := by
  unfold k3Regs; split <;> rfl
@[simp] theorem k3Regs_sgnBuf (x : Byte) (r : Regs) : (k3Regs x r).sgnBuf = r.sgnBuf := by
  unfold k3Regs; split <;> rfl
@[simp] theorem k3Regs_sgnCnt (x : Byte) (r : Regs) : (k3Regs x r).sgnCnt = r.sgnCnt := by
  unfold k3Regs; split <;> rfl
@[simp] theorem k3Regs_sgnToken (x : Byte) (r : Regs) : (k3Regs x r).sgnToken = r.sgnToken := by
  unfold k3Regs; split <;> rfl
@[simp] theorem k3Regs_sgnRidx (x : Byte) (r : Regs) : (k3Regs x r).sgnRidx = r.sgnRidx := by
  unfold k3Regs; split <;> rfl
@[simp] theorem k3Regs_encPhase (x : Byte) (r : Regs) : (k3Regs x r).encPhase = r.encPhase := by
  unfold k3Regs; split <;> rfl
@[simp] theorem k3Regs_encN (x : Byte) (r : Regs) : (k3Regs x r).encN = r.encN := by
  unfold k3Regs; split <;> rfl
@[simp] theorem k3Regs_encRem (x : Byte) (r : Regs) : (k3Regs x r).encRem = r.encRem := by
  unfold k3Regs; split <;> rfl

/-! ### `payRegs` (R168, R169) -/

@[simp] theorem payRegs_err (r : Regs) : (payRegs r).err = r.err := by
  unfold payRegs; split <;> rfl
@[simp] theorem payRegs_sgnPhase (r : Regs) : (payRegs r).sgnPhase = r.sgnPhase := by
  unfold payRegs; split <;> rfl
@[simp] theorem payRegs_sgnKrem (r : Regs) : (payRegs r).sgnKrem = r.sgnKrem := by
  unfold payRegs; split <;> rfl
@[simp] theorem payRegs_sgnH (r : Regs) : (payRegs r).sgnH = r.sgnH := by
  unfold payRegs; split <;> rfl
@[simp] theorem payRegs_sgnBuf (r : Regs) : (payRegs r).sgnBuf = r.sgnBuf := by
  unfold payRegs; split <;> rfl
@[simp] theorem payRegs_sgnCnt (r : Regs) : (payRegs r).sgnCnt = r.sgnCnt := by
  unfold payRegs; split <;> rfl
@[simp] theorem payRegs_sgnToken (r : Regs) : (payRegs r).sgnToken = r.sgnToken := by
  unfold payRegs; split <;> rfl
@[simp] theorem payRegs_sgnRidx (r : Regs) : (payRegs r).sgnRidx = r.sgnRidx := by
  unfold payRegs; split <;> rfl
@[simp] theorem payRegs_encPhase (r : Regs) : (payRegs r).encPhase = r.encPhase := by
  unfold payRegs; split <;> rfl
@[simp] theorem payRegs_encN (r : Regs) : (payRegs r).encN = r.encN := by
  unfold payRegs; split <;> rfl
@[simp] theorem payRegs_encRem (r : Regs) : (payRegs r).encRem = r.encRem := by
  unfold payRegs; split <;> rfl

/-! ### `txpRegs` (R206, R207) -/

@[simp] theorem txpRegs_err (r : Regs) : (txpRegs r).err = r.err := by
  unfold txpRegs; split <;> rfl
@[simp] theorem txpRegs_sgnPhase (r : Regs) : (txpRegs r).sgnPhase = r.sgnPhase := by
  unfold txpRegs; split <;> rfl
@[simp] theorem txpRegs_sgnKrem (r : Regs) : (txpRegs r).sgnKrem = r.sgnKrem := by
  unfold txpRegs; split <;> rfl
@[simp] theorem txpRegs_sgnH (r : Regs) : (txpRegs r).sgnH = r.sgnH := by
  unfold txpRegs; split <;> rfl
@[simp] theorem txpRegs_sgnBuf (r : Regs) : (txpRegs r).sgnBuf = r.sgnBuf := by
  unfold txpRegs; split <;> rfl
@[simp] theorem txpRegs_sgnCnt (r : Regs) : (txpRegs r).sgnCnt = r.sgnCnt := by
  unfold txpRegs; split <;> rfl
@[simp] theorem txpRegs_sgnToken (r : Regs) : (txpRegs r).sgnToken = r.sgnToken := by
  unfold txpRegs; split <;> rfl
@[simp] theorem txpRegs_sgnRidx (r : Regs) : (txpRegs r).sgnRidx = r.sgnRidx := by
  unfold txpRegs; split <;> rfl
@[simp] theorem txpRegs_decPhase (r : Regs) : (txpRegs r).decPhase = r.decPhase := by
  unfold txpRegs; split <;> rfl
@[simp] theorem txpRegs_decLen (r : Regs) : (txpRegs r).decLen = r.decLen := by
  unfold txpRegs; split <;> rfl
@[simp] theorem txpRegs_decRem (r : Regs) : (txpRegs r).decRem = r.decRem := by
  unfold txpRegs; split <;> rfl
@[simp] theorem txpRegs_decKey (r : Regs) : (txpRegs r).decKey = r.decKey := by
  unfold txpRegs; split <;> rfl
@[simp] theorem txpRegs_unmKey (r : Regs) : (txpRegs r).unmKey = r.unmKey := by
  unfold txpRegs; split <;> rfl
@[simp] theorem txpRegs_unmIdx (r : Regs) : (txpRegs r).unmIdx = r.unmIdx := by
  unfold txpRegs; split <;> rfl

@[simp] theorem terminated_connState (e : Err) : (terminated e).connState = .terminated := rfl

@[simp] theorem terminated_err (e : Err) : (terminated e).err = e := rfl

/-- `CLOSE` outside `TERMINATED` (R224). -/
theorem closeRegs_of_live {r : Regs} (h : r.connState ≠ .terminated) : closeRegs r = terminated r.err := by
  simp [closeRegs, h]

/-- `CLOSE` in `TERMINATED` (R224). -/
theorem closeRegs_of_terminated {r : Regs} (h : r.connState = .terminated) : closeRegs r = r := by
  simp [closeRegs, h]

@[simp] theorem closeRegs_connState (r : Regs) : (closeRegs r).connState = .terminated := by
  by_cases h : r.connState = .terminated <;> simp [closeRegs, h]

@[simp] theorem closeRegs_err (r : Regs) : (closeRegs r).err = r.err := by
  unfold closeRegs; split <;> rfl

end Sys2Proof.Machine
end

