-- ==== Sys2Proof/Laws/Step.lean ====
section
/-! SUPPORT. Everything one step can do, as one inversion: `step_cases`. Claims about steps take it apart instead of
unfolding `step`. -/

namespace Sys2Proof.Machine

theorem step_of_fetch {s : State} {i : Instr} (h : fetch s = some i) : step s = exec i (takeTurn s) := by
  simp [step, h]

theorem step_of_hold {s : State} (h : fetch s = none) : step s = .next s := by
  simp [step, h]

/-- A step always answers a next state. -/
theorem step_isNext (s : State) : ∃ t, step s = .next t := by
  cases h : fetch s with
  | none => exact ⟨s, step_of_hold h⟩
  | some i => rw [step_of_fetch h]; exact exec_isNext i _

/-- The form of frame byte 1, read back: which rule of R92 the byte falls under, and what taking it does to `u`. -/
inductive FormStep (s u : State) (x : Byte) : Instr → State → Prop where
  | unmasked (hpol : s.params.unmaskedPolicy = .fault) (hm : maskBit x = false) :
      FormStep s u x (.rxfUnmasked (lenMarker x)) (unmaskedOp u)
  | len64 (hm : ¬(s.params.unmaskedPolicy = .fault ∧ maskBit x = false)) (hl : lenMarker x = 127#7) :
      FormStep s u x .rxfLen64 (len64Op u)
  | len16 (hm : ¬(s.params.unmaskedPolicy = .fault ∧ maskBit x = false)) (hl : lenMarker x = 126#7) :
      FormStep s u x .rxfLen16 (len16Op u)
  | len7 (hm : ¬(s.params.unmaskedPolicy = .fault ∧ maskBit x = false)) (hl1 : lenMarker x ≠ 127#7)
      (hl2 : lenMarker x ≠ 126#7) : FormStep s u x (.rxfLen7 (lenMarker x)) (len7Op (lenMarker x) u)

/-- The four branches of `selectForm` and `byte1Op` are the same four. -/
theorem formStep (s u : State) (x : Byte) (hp : u.params = s.params) :
    FormStep s u x (selectForm s.params.unmaskedPolicy x) (byte1Op x u) := by
  unfold selectForm byte1Op
  rw [hp]
  split
  · rename_i h; exact .unmasked h.1 h.2
  · rename_i h
    split
    · exact .len64 h ‹_›
    · split
      · exact .len16 h ‹_›
      · exact .len7 h ‹_› ‹_›

/-- A data step, whole: the registers that make it due, the beat offered and the sink accepting in `s` (20_memory R62,
R63), and what it makes of `u`, which has the registers, channels and parameters of `s`. -/
inductive DataStep (s u : State) : Instr → State → Prop where
  | hkByte (x : Byte) (rest : List Byte) (hc : s.regs.connState = .awaitingUpgrade) (hp : s.regs.sgnPhase = .key)
      (ho : s.io.hk = x :: rest) : DataStep s u (.hkByte x) (setRegs (hkRegs x s.regs) (takeHk u))
  | respByte (hc : s.regs.connState = .awaitingUpgrade) (hp : s.regs.sgnPhase = .resp)
      (hr : s.io.txReady = true) : DataStep s u .respByte
      (setRegs (respRegs s.regs)
        (emitTx ⟨respByteAt s.regs.sgnToken s.regs.sgnRidx, s.regs.sgnRidx == 127⟩ u))
  | rxB0 (x : Byte) (rest : List Byte) (hc : s.regs.connState = .handshaken ∨ s.regs.connState = .readingFrame)
      (hp : s.regs.decPhase = .b0) (ho : s.io.rx = x :: rest) : DataStep s u (.rxB0 x)
      (setRegs { s.regs with decPhase := .b1, connState := .readingFrame } (takeRx u))
  | form (x : Byte) (rest : List Byte) (i : Instr) (t : State) (hc : s.regs.connState = .readingFrame)
      (hp : s.regs.decPhase = .b1) (ho : s.io.rx = x :: rest) (hf : FormStep s u x i t) : DataStep s u i t
  | rxX0 (x : Byte) (rest : List Byte) (hc : s.regs.connState = .readingFrame) (hp : s.regs.decPhase = .x0)
      (ho : s.io.rx = x :: rest) : DataStep s u (.rxX0 x)
      (setRegs { s.regs with decLen := be16 x 0, decPhase := .x1 } (takeRx u))
  | rxX1 (x : Byte) (rest : List Byte) (hc : s.regs.connState = .readingFrame) (hp : s.regs.decPhase = .x1)
      (ho : s.io.rx = x :: rest) : DataStep s u (.rxX1 x)
      (setRegs
        { s.regs with
          decLen := be16 (hiByte s.regs.decLen) x, decRem := be16 (hiByte s.regs.decLen) x, decPhase := .k0 }
        (takeRx u))
  | rxK0 (x : Byte) (rest : List Byte) (hc : s.regs.connState = .readingFrame) (hp : s.regs.decPhase = .k0)
      (ho : s.io.rx = x :: rest) : DataStep s u (.rxK0 x)
      (setRegs { s.regs with decKey := { s.regs.decKey with k0 := x }, decPhase := .k1 } (takeRx u))
  | rxK1 (x : Byte) (rest : List Byte) (hc : s.regs.connState = .readingFrame) (hp : s.regs.decPhase = .k1)
      (ho : s.io.rx = x :: rest) : DataStep s u (.rxK1 x)
      (setRegs { s.regs with decKey := { s.regs.decKey with k1 := x }, decPhase := .k2 } (takeRx u))
  | rxK2 (x : Byte) (rest : List Byte) (hc : s.regs.connState = .readingFrame) (hp : s.regs.decPhase = .k2)
      (ho : s.io.rx = x :: rest) : DataStep s u (.rxK2 x)
      (setRegs { s.regs with decKey := { s.regs.decKey with k2 := x }, decPhase := .k3 } (takeRx u))
  | rxK3 (x : Byte) (rest : List Byte) (hc : s.regs.connState = .readingFrame) (hp : s.regs.decPhase = .k3)
      (ho : s.io.rx = x :: rest) (hr : s.io.aiReady = true) : DataStep s u (.rxK3 x)
      (setRegs (k3Regs x s.regs) (emitAi ⟨s.regs.decLen, { s.regs.decKey with k3 := x }⟩ (takeRx u)))
  | rxPay (x : Byte) (rest : List Byte) (hc : s.regs.connState = .readingFrame) (hp : s.regs.decPhase = .pay)
      (ho : s.io.rx = x :: rest) (hr : s.io.apReady = true) : DataStep s u (.rxPay x)
      (setRegs (payRegs s.regs) (emitAp ⟨x, unmClear x s.regs, s.regs.decRem == 1⟩ (takeRx u)))
  | txH0 (hc : s.regs.connState = .writingFrame) (hp : s.regs.encPhase = .h0) (hr : s.io.txReady = true) :
      DataStep s u .txH0 (setRegs { s.regs with encPhase := .h1 } (emitTx ⟨0x81, false⟩ u))
  | txH1 (hc : s.regs.connState = .writingFrame) (hp : s.regs.encPhase = .h1) (hr : s.io.txReady = true) :
      DataStep s u .txH1 (h1Op u)
  | txH2 (hc : s.regs.connState = .writingFrame) (hp : s.regs.encPhase = .h2) (hr : s.io.txReady = true) :
      DataStep s u .txH2
      (setRegs { s.regs with encPhase := .h3 } (emitTx ⟨hiByte (encLen16 s.params s.regs.encN), false⟩ u))
  | txH3 (hc : s.regs.connState = .writingFrame) (hp : s.regs.encPhase = .h3) (hr : s.io.txReady = true) :
      DataStep s u .txH3
      (setRegs { s.regs with encPhase := .pay } (emitTx ⟨loByte (encLen16 s.params s.regs.encN), false⟩ u))
  | txpByte (x : Byte) (rest : List Byte) (hc : s.regs.connState = .writingFrame) (hp : s.regs.encPhase = .pay)
      (ho : s.io.txp = x :: rest) (hr : s.io.txReady = true) : DataStep s u (.txpByte x)
      (setRegs (txpRegs s.regs) (emitTx ⟨x, s.regs.encRem == 1⟩ (takeTxp u)))

theorem dataDue_some {s : State} {i : Instr} (h : dataDue s = some i) :
    ∃ slot bs, slotOf s.regs = some slot ∧ sinkAccepts slot s.io = true ∧ operandOf slot s.io = some bs ∧
      decodeDue s.params.unmaskedPolicy slot bs = some i := by
  unfold dataDue at h
  split at h
  · cases h
  · split at h
    · split at h
      · exact ⟨_, _, ‹_›, ‹_›, ‹_›, h⟩
      · cases h
    · cases h

/-- A byte at the head of a stream, as the operand list it makes. -/
theorem head_operand {q bs : List Byte} (h : q.head?.map (fun x => [x]) = some bs) :
    ∃ x rest, q = x :: rest ∧ bs = [x] := by
  cases q with
  | nil => cases h
  | cons x rest => exact ⟨x, rest, rfl, (Option.some.inj h).symm⟩

/-- The form selected runs the operation of its branch (30_encoding R92). -/
theorem exec_selectForm {u : State} {x : Byte} {rest : List Byte}
    (hc : u.regs.connState = .readingFrame) (hp : u.regs.decPhase = .b1) (ho : u.io.rx = x :: rest) :
    exec (selectForm u.params.unmaskedPolicy x) u = .next (byte1Op x u) := by
  have hdue : due .b1 u = true := by simp [due, slotOf, hc, hp]
  have hform : formEnabled (selectForm u.params.unmaskedPolicy x) u = true := by
    simp [formEnabled, hdue, ho]
  by_cases h1 : u.params.unmaskedPolicy = .fault ∧ maskBit x = false
  · have hs : selectForm u.params.unmaskedPolicy x = .rxfUnmasked (lenMarker x) := by simp [selectForm, h1]
    rw [hs] at hform ⊢
    simp [exec, execRxfUnmasked, hform, byte1Op, h1]
  · by_cases h2 : lenMarker x = 127#7
    · have hs : selectForm u.params.unmaskedPolicy x = .rxfLen64 := by
        unfold selectForm; rw [if_neg h1, if_pos h2]
      rw [hs] at hform ⊢
      simp only [exec, execRxfLen64, hform, performIf_true, byte1Op]
      rw [if_neg h1, if_pos h2]
    · by_cases h3 : lenMarker x = 126#7
      · have hs : selectForm u.params.unmaskedPolicy x = .rxfLen16 := by
          unfold selectForm; rw [if_neg h1, if_neg h2, if_pos h3]
        rw [hs] at hform ⊢
        simp only [exec, execRxfLen16, hform, performIf_true, byte1Op]
        rw [if_neg h1, if_neg h2, if_pos h3]
      · have hs : selectForm u.params.unmaskedPolicy x = .rxfLen7 (lenMarker x) := by
          unfold selectForm; rw [if_neg h1, if_neg h2, if_neg h3]
        rw [hs] at hform ⊢
        simp only [exec, execRxfLen7, hform, performIf_true, byte1Op]
        rw [if_neg h1, if_neg h2, if_neg h3]

/-- A byte step that takes from `RX` is enabled when it is due, its byte offered and its sink accepting. -/
theorem rxEnabled_of {slot : Slot} {x : Byte} {rest : List Byte} {u : State} (hd : slotOf u.regs = some slot)
    (ho : u.io.rx = x :: rest) (hs : sinkAccepts slot u.io = true) : rxEnabled slot x u = true := by
  simp [rxEnabled, due, hd, rxOffers, ho, hs]

/-- A step that only emits is enabled when it is due and its sink accepts. -/
theorem emitEnabled_of {slot : Slot} {u : State} (hd : slotOf u.regs = some slot)
    (hs : sinkAccepts slot u.io = true) : emitEnabled slot u = true := by
  simp [emitEnabled, due, hd, hs]

/-- The due data step is enabled, and executing it on a state with the same registers, channels and parameters has its
effect. -/
theorem dataDue_step {s u : State} {i : Instr} (h : dataDue s = some i) (hr : u.regs = s.regs) (hi : u.io = s.io)
    (hp : u.params = s.params) : ∃ t, exec i u = .next t ∧ DataStep s u i t := by
  obtain ⟨slot, bs, hslot, hsink, hbs, hdec⟩ := dataDue_some h
  have hslot' : slotOf u.regs = some slot := by rw [hr, hslot]
  have hsink' : sinkAccepts slot u.io = true := by rw [hi, hsink]
  rcases slotOf_cases hslot with ⟨hc, ⟨hph, rfl⟩ | ⟨hph, rfl⟩⟩ | ⟨hc, hph, rfl⟩ | ⟨hc, h9⟩ | ⟨hc, h5⟩
  · obtain ⟨x, rest, ho, rfl⟩ := head_operand hbs
    obtain rfl : _ = i := Option.some.inj hdec
    refine ⟨_, ?_, .hkByte x rest hc hph ho⟩
    simp [exec, execHkByte, due, hslot, hkOffers, hi, ho, hr]
  · obtain rfl : _ = bs := Option.some.inj hbs
    obtain rfl : _ = i := Option.some.inj hdec
    refine ⟨_, ?_, .respByte hc hph hsink⟩
    simp [exec, execRespByte, emitEnabled_of hslot' hsink', respOp, hr]
  · obtain ⟨x, rest, ho, rfl⟩ := head_operand hbs
    obtain rfl : _ = i := Option.some.inj hdec
    refine ⟨_, ?_, .rxB0 x rest (.inl hc) hph ho⟩
    simp [exec, execRxB0, rxEnabled_of hslot' (hi ▸ ho) hsink', hr]
  · rcases h9 with ⟨hph, rfl⟩ | ⟨hph, rfl⟩ | ⟨hph, rfl⟩ | ⟨hph, rfl⟩ | ⟨hph, rfl⟩ | ⟨hph, rfl⟩ | ⟨hph, rfl⟩ |
      ⟨hph, rfl⟩ | ⟨hph, rfl⟩ <;>
      obtain ⟨x, rest, ho, rfl⟩ := head_operand hbs <;>
      obtain rfl : _ = i := Option.some.inj hdec
    · refine ⟨_, ?_, .rxB0 x rest (.inr hc) hph ho⟩
      simp [exec, execRxB0, rxEnabled_of hslot' (hi ▸ ho) hsink', hr]
    · refine ⟨_, ?_, .form x rest _ _ hc hph ho (formStep s u x hp)⟩
      rw [← hp]
      exact exec_selectForm (by rw [hr, hc]) (by rw [hr, hph]) (hi ▸ ho)
    · refine ⟨_, ?_, .rxX0 x rest hc hph ho⟩
      simp [exec, execRxX0, rxEnabled_of hslot' (hi ▸ ho) hsink', hr]
    · refine ⟨_, ?_, .rxX1 x rest hc hph ho⟩
      simp [exec, execRxX1, rxEnabled_of hslot' (hi ▸ ho) hsink', hr]
    · refine ⟨_, ?_, .rxK0 x rest hc hph ho⟩
      simp [exec, execRxK0, rxEnabled_of hslot' (hi ▸ ho) hsink', hr]
    · refine ⟨_, ?_, .rxK1 x rest hc hph ho⟩
      simp [exec, execRxK1, rxEnabled_of hslot' (hi ▸ ho) hsink', hr]
    · refine ⟨_, ?_, .rxK2 x rest hc hph ho⟩
      simp [exec, execRxK2, rxEnabled_of hslot' (hi ▸ ho) hsink', hr]
    · refine ⟨_, ?_, .rxK3 x rest hc hph ho hsink⟩
      simp [exec, execRxK3, rxEnabled_of hslot' (hi ▸ ho) hsink', hr]
    · refine ⟨_, ?_, .rxPay x rest hc hph ho hsink⟩
      simp [exec, execRxPay, rxEnabled_of hslot' (hi ▸ ho) hsink', hr]
  · rcases h5 with ⟨hph, rfl⟩ | ⟨hph, rfl⟩ | ⟨hph, rfl⟩ | ⟨hph, rfl⟩ | ⟨hph, rfl⟩
    · obtain rfl : _ = bs := Option.some.inj hbs
      obtain rfl : _ = i := Option.some.inj hdec
      refine ⟨_, ?_, .txH0 hc hph hsink⟩
      simp [exec, execTxH0, emitEnabled_of hslot' hsink', h0Op, hr]
    · obtain rfl : _ = bs := Option.some.inj hbs
      obtain rfl : _ = i := Option.some.inj hdec
      refine ⟨_, ?_, .txH1 hc hph hsink⟩
      simp [exec, execTxH1, emitEnabled_of hslot' hsink']
    · obtain rfl : _ = bs := Option.some.inj hbs
      obtain rfl : _ = i := Option.some.inj hdec
      refine ⟨_, ?_, .txH2 hc hph hsink⟩
      simp [exec, execTxH2, emitEnabled_of hslot' hsink', h2Op, hr, hp]
    · obtain rfl : _ = bs := Option.some.inj hbs
      obtain rfl : _ = i := Option.some.inj hdec
      refine ⟨_, ?_, .txH3 hc hph hsink⟩
      simp [exec, execTxH3, emitEnabled_of hslot' hsink', h3Op, hr, hp]
    · obtain ⟨x, rest, ho, rfl⟩ := head_operand hbs
      obtain rfl : _ = i := Option.some.inj hdec
      refine ⟨_, ?_, .txpByte x rest hc hph ho hsink⟩
      simp [exec, execTxpByte, txpEnabled, emitEnabled_of hslot' hsink', txpOffers, hi, ho, txpOp, hr]

/-- Everything a step can do. `u` is the state after the choice of order, with the registers, channels and parameters of
`s`. -/
inductive StepCase (s : State) : State → Prop where
  | hold (hf : fetch s = none) : StepCase s s
  | reset (hf : fetch s = some .reset) (hr : s.io.rst = true) : StepCase s (resetRegs (takeTurn s))
  | upgrade (klen : BitVec 32) (beat : BitVec 34) (rest : List (BitVec 34))
      (hf : fetch s = some (.upgrade klen)) (hr : s.io.rst = false) (ho : s.io.cmd = beat :: rest)
      (hd : decodeCmd beat = .upgrade klen)
      (hc : s.regs.connState = .awaitingUpgrade) (hp : s.regs.sgnPhase = .idle) :
      StepCase s (setRegs (upgradeRegs klen s.regs) (takeCmd (takeTurn s)))
  | encode (n : BitVec 32) (beat : BitVec 34) (rest : List (BitVec 34))
      (hf : fetch s = some (.encode n)) (hr : s.io.rst = false) (ho : s.io.cmd = beat :: rest)
      (hd : decodeCmd beat = .encode n) (hc : s.regs.connState = .processing) :
      StepCase s (encodeOp n (takeCmd (takeTurn s)))
  | close (arg : BitVec 32) (beat : BitVec 34) (rest : List (BitVec 34))
      (hf : fetch s = some (.close arg)) (hr : s.io.rst = false) (ho : s.io.cmd = beat :: rest)
      (hd : decodeCmd beat = .close arg) : StepCase s (setRegs (closeRegs s.regs) (takeCmd (takeTurn s)))
  | data (i : Instr) (t : State) (hf : fetch s = some i) (hr : s.io.rst = false) (hd : dataDue s = some i)
      (he : DataStep s (takeTurn s) i t) : StepCase s t

/-- The inversion of `step`. -/
theorem step_cases {s t : State} (h : step s = .next t) : StepCase s t := by
  cases hf : fetch s with
  | none =>
    rw [step_of_hold hf] at h
    cases h
    exact .hold hf
  | some i =>
    rw [step_of_fetch hf] at h
    rcases fetch_cases hf with ⟨hr, rfl⟩ | ⟨hr, hc⟩ | ⟨hr, hd⟩
    · cases h
      exact .reset hf hr
    · obtain ⟨beat, rest, ho, hdec, ⟨klen, rfl, hc1, hc2⟩ | ⟨n, rfl, hc1⟩ | ⟨arg, rfl⟩⟩ := cmdDue_cases hc
      · simp [exec, execUpgrade, upgradeLegal, cmdOffers, ho, hdec, hc1, hc2] at h
        subst h
        exact .upgrade klen beat rest hf hr ho hdec hc1 hc2
      · simp [exec, execEncode, encodeLegal, cmdOffers, ho, hdec, hc1] at h
        subst h
        exact .encode n beat rest hf hr ho hdec hc1
      · simp [exec, execClose, cmdOffers, ho, hdec] at h
        subst h
        exact .close arg beat rest hf hr ho hdec
    · obtain ⟨t', ht', he⟩ := dataDue_step hd (takeTurn_regs s) (takeTurn_io s) (takeTurn_params s)
      rw [ht'] at h
      cases h
      exact .data i _ hf hr hd he

/-! ### Back from a meaning's own guard to what is due -/

/-- A guarded step that changed something was enabled. -/
theorem performIf_acts {c : Bool} {s u t : State} (h : performIf c s u = .next t) (hne : t ≠ s) : c = true := by
  rcases performIf_cases h with ⟨hc, _⟩ | ⟨_, e⟩
  · exact hc
  · exact absurd e hne

/-- What makes a data step due (20_memory R62, R63). -/
theorem dataDue_intro {slot : Slot} {bs : List Byte} {s : State} {i : Instr} (h : slotOf s.regs = some slot)
    (hs : sinkAccepts slot s.io = true) (ho : operandOf slot s.io = some bs)
    (hd : decodeDue s.params.unmaskedPolicy slot bs = some i) : dataDue s = some i := by
  simp only [dataDue, h, hs, ho, hd, if_true]

theorem dataDue_of_rxEnabled {slot : Slot} {x : Byte} {s : State} {i : Instr} (h : rxEnabled slot x s = true)
    (ho : operandOf slot s.io = s.io.rx.head?.map fun y => [y])
    (hd : decodeDue s.params.unmaskedPolicy slot [x] = some i) : dataDue s = some i := by
  simp only [rxEnabled, due, rxOffers, Bool.and_eq_true, beq_iff_eq] at h
  exact dataDue_intro h.1.1 h.2 (by rw [ho, h.1.2]; rfl) hd

theorem dataDue_of_emitEnabled {slot : Slot} {s : State} {i : Instr} (h : emitEnabled slot s = true)
    (ho : operandOf slot s.io = some []) (hd : decodeDue s.params.unmaskedPolicy slot [] = some i) :
    dataDue s = some i := by
  simp only [emitEnabled, due, Bool.and_eq_true, beq_iff_eq] at h
  exact dataDue_intro h.1 h.2 ho hd

theorem dataDue_of_formEnabled {s : State} {i : Instr} (h : formEnabled i s = true) : dataDue s = some i := by
  simp only [formEnabled, due, Bool.and_eq_true, beq_iff_eq] at h
  rcases hrx : s.io.rx with _ | ⟨b, r⟩
  · simp [hrx] at h
  · simp only [hrx, List.head?_cons, Option.map_some] at h
    exact dataDue_intro (bs := [b]) h.1 rfl (by simp only [operandOf, hrx]; rfl) h.2

theorem dataDue_of_hkEnabled {x : Byte} {s : State} (h : (due .hk s && hkOffers x s.io) = true) :
    dataDue s = some (.hkByte x) := by
  simp only [due, hkOffers, Bool.and_eq_true, beq_iff_eq] at h
  exact dataDue_intro h.1 rfl (by simp only [operandOf, h.2]; rfl) rfl

theorem dataDue_of_txpEnabled {x : Byte} {s : State} (h : txpEnabled x s = true) :
    dataDue s = some (.txpByte x) := by
  simp only [txpEnabled, emitEnabled, due, txpOffers, Bool.and_eq_true, beq_iff_eq] at h
  exact dataDue_intro h.1.1 h.1.2 (by simp only [operandOf, h.2]; rfl) rfl

theorem cmdDue_of_offers {s : State} {i : Instr} (h : cmdOffers i s.io = true) (hl : cmdLegal i s = true) :
    cmdDue s = some i := by
  unfold cmdOffers at h
  rcases hcm : s.io.cmd with _ | ⟨b, r⟩ <;> simp [hcm] at h
  simp [cmdDue, hcm, h, hl]

end Sys2Proof.Machine
end

