-- ==== Sys2Proof/Laws/Host.lean ====
section
/-! SUPPORT. What the host's drive of `rst` does, and what the block does when no command can be taken or it waits: the
lemmas behind the claims about holds (70 R280, R289). -/

namespace Sys2Proof.Machine

/-! ### `driveRst` -/

@[simp] theorem driveRst_io (b : Bool) (s : State) : (driveRst b s).io = { s.io with rst := b } := by
  unfold driveRst; split <;> rfl

@[simp] theorem driveRst_params (b : Bool) (s : State) : (driveRst b s).params = s.params := by
  unfold driveRst; split <;> rfl

@[simp] theorem driveRst_arbiter (b : Bool) (s : State) : (driveRst b s).arbiter = s.arbiter := by
  unfold driveRst; split <;> rfl

@[simp] theorem driveRst_arbTick (b : Bool) (s : State) : (driveRst b s).arbTick = s.arbTick := by
  unfold driveRst; split <;> rfl

@[simp] theorem driveRst_unmResult (b : Bool) (s : State) : (driveRst b s).unmResult = s.unmResult := by
  unfold driveRst; split <;> rfl

/-- Asserting `rst` keeps the registers. -/
@[simp] theorem driveRst_assert_regs (s : State) : (driveRst true s).regs = s.regs := by
  simp [driveRst]

/-- Releasing `rst` keeps the registers when it was not asserted, and gives them their reset values when it was. -/
theorem driveRst_release_regs (s : State) :
    (driveRst false s).regs = if s.io.rst then Regs.reset else s.regs := by
  cases h : s.io.rst <;> simp [driveRst, h]

/-! ### No command to take -/

/-- The field `op` of R95, as the claims write it. -/
theorem cmdOp_toNat (beat : BitVec 34) : (cmdOp beat).toNat = beat.toNat / 2 ^ 32 := by
  have := beat.isLt
  simp only [cmdOp, BitVec.extractLsb'_toNat, Nat.shiftRight_eq_div_pow]
  omega

/-- The field `arg` of R95, as the claims write it. -/
theorem cmdArg_eq_ofNat (beat : BitVec 34) : cmdArg beat = BitVec.ofNat 32 (beat.toNat % 2 ^ 32) := by
  apply BitVec.eq_of_toNat_eq
  simp [cmdArg, BitVec.extractLsb'_toNat]

/-- A beat by the number of its `op` and its `arg`. -/
theorem cmdBeat_of_op {beat : BitVec 34} {op : Nat} (h : beat.toNat / 2 ^ 32 = op) :
    beat = cmdBeat (BitVec.ofNat 2 op) (BitVec.ofNat 32 (beat.toNat % 2 ^ 32)) := by
  have h2 : cmdOp beat = BitVec.ofNat 2 op := by
    apply BitVec.eq_of_toNat_eq
    rw [cmdOp_toNat, h, BitVec.toNat_ofNat]
    have := beat.isLt
    omega
  rw [← cmdArg_eq_ofNat, ← h2, cmdBeat_fields]

/-- A command out of place is not legal in the state. -/
theorem cmdLegal_of_outOfPlace {s : State} {beat : BitVec 34} (h : outOfPlace s.regs beat) :
    cmdLegal (decodeCmd beat) s = false := by
  rcases h with h | ⟨h, hs⟩ | ⟨h, hs⟩ <;> rw [cmdBeat_of_op h]
  · simp [cmdLegal]
  · simp only [decodeCmd_upgrade, cmdLegal, upgradeLegal, Bool.and_eq_false_iff, beq_eq_false_iff_ne]
    exact Classical.not_and_iff_not_or_not.mp hs
  · simp [cmdLegal, encodeLegal, hs]

/-- With no command to take, none is due (44 R225). -/
theorem cmdDue_of_noCommandTaken {s : State} (h : noCommandTaken s) : cmdDue s = none := by
  unfold cmdDue
  split
  · rfl
  · rename_i beat rest hc
    rw [cmdLegal_of_outOfPlace (by simpa [noCommandTaken, hc] using h)]
    rfl

/-- A state that waits has no data step due (70 R289). -/
theorem dataDue_of_waiting {s : State} (h : waiting s) : dataDue s = none := by
  cases hd : dataDue s with
  | none => rfl
  | some i =>
    exfalso
    obtain ⟨t, -, he⟩ := dataDue_step (u := s) hd rfl rfl rfl
    cases he
    case rxB0 hc _ _ => rcases hc with hc | hc <;> simp_all [waiting]
    all_goals simp_all [waiting]

/-- A state that waits and has no command to take has no step (70 R289). -/
theorem fetch_of_waiting {s : State} (hr : s.io.rst = false) (hc : noCommandTaken s) (hw : waiting s) :
    fetch s = none := by
  rw [fetch_of_no_cmd hr (cmdDue_of_noCommandTaken hc), dataDue_of_waiting hw]

/-- A state that waits takes the command at the head of `CMD` when it is in place. -/
theorem fetch_cmd_of_waiting {s : State} {beat : BitVec 34} {later : List (BitVec 34)} (hr : s.io.rst = false)
    (hw : waiting s) (hc : s.io.cmd = beat :: later) (hl : cmdLegal (decodeCmd beat) s = true) :
    fetch s = some (decodeCmd beat) := by
  rw [fetch_of_no_data hr (dataDue_of_waiting hw)]
  simp [cmdDue, hc, hl]

end Sys2Proof.Machine
end

