-- ==== Sys2Proof/Laws/PerInstr.lean ====
section
/-! SUPPORT. Statements made per instruction, one lemma per constructor: the encoding has the width its row of the
opcode table gives. -/

namespace Sys2Proof.Laws

/-- The number of bits of a word. -/
def wireBits : Wire → Nat
  | .rxf bs => 8 * bs.length
  | .txf bs => 8 * bs.length
  | .cmd _ => 34
  | .step _ bs => 8 * bs.length
  | .resp bs => 8 * bs.length
  | .rst => 0

/-- The bits an instruction's own word has: 16 for an `RXF` form (`{b0, byte1}`), 16 or 32 for a `TXF` header, 34 for a
command, 8 for a byte taken, 0 for a step that takes none, 32 for the key of `UNM.LOAD`, 1024 for the response. -/
def rowBits : Instr → Nat
  | .rxfUnmasked _ => 16
  | .rxfLen64 => 16
  | .rxfLen16 => 16
  | .rxfLen7 _ => 16
  | .txfLen7 _ => 16
  | .txfLen16 _ _ => 32
  | .cmdReserved0 _ => 34
  | .upgrade _ => 34
  | .encode _ => 34
  | .close _ => 34
  | .hkByte _ => 8
  | .respByte => 0
  | .rxB0 _ => 8
  | .rxB1 _ => 8
  | .rxX0 _ => 8
  | .rxX1 _ => 8
  | .rxK0 _ => 8
  | .rxK1 _ => 8
  | .rxK2 _ => 8
  | .rxK3 _ => 8
  | .rxPay _ => 8
  | .unmLoad _ => 32
  | .unmByte _ => 8
  | .txH0 => 0
  | .txH1 => 0
  | .txH2 => 0
  | .txH3 => 0
  | .txpByte _ => 8
  | .hsresp _ => 1024
  | .reset => 0

/-- The encoding has the row's width. -/
def EncodedWidth.Statement (i : Instr) : Prop := wireBits (encode i) = rowBits i

namespace EncodedWidth

theorem rxfUnmasked (l : BitVec 7) : Statement (.rxfUnmasked l) := rfl
theorem rxfLen64 : Statement .rxfLen64 := rfl
theorem rxfLen16 : Statement .rxfLen16 := rfl
theorem rxfLen7 (l : BitVec 7) : Statement (.rxfLen7 l) := rfl
theorem txfLen7 (n : BitVec 7) : Statement (.txfLen7 n) := rfl
theorem txfLen16 (hh ll : Byte) : Statement (.txfLen16 hh ll) := rfl
theorem cmdReserved0 (arg : BitVec 32) : Statement (.cmdReserved0 arg) := rfl
theorem upgrade (klen : BitVec 32) : Statement (.upgrade klen) := rfl
theorem encode (n : BitVec 32) : Statement (.encode n) := rfl
theorem close (arg : BitVec 32) : Statement (.close arg) := rfl
theorem hkByte (x : Byte) : Statement (.hkByte x) := rfl
theorem respByte : Statement .respByte := rfl
theorem rxB0 (x : Byte) : Statement (.rxB0 x) := rfl
theorem rxB1 (x : Byte) : Statement (.rxB1 x) := rfl
theorem rxX0 (x : Byte) : Statement (.rxX0 x) := rfl
theorem rxX1 (x : Byte) : Statement (.rxX1 x) := rfl
theorem rxK0 (x : Byte) : Statement (.rxK0 x) := rfl
theorem rxK1 (x : Byte) : Statement (.rxK1 x) := rfl
theorem rxK2 (x : Byte) : Statement (.rxK2 x) := rfl
theorem rxK3 (x : Byte) : Statement (.rxK3 x) := rfl
theorem rxPay (x : Byte) : Statement (.rxPay x) := rfl
theorem unmLoad (key : Key) : Statement (.unmLoad key) := rfl
theorem unmByte (x : Byte) : Statement (.unmByte x) := rfl
theorem txH0 : Statement .txH0 := rfl
theorem txH1 : Statement .txH1 := rfl
theorem txH2 : Statement .txH2 := rfl
theorem txH3 : Statement .txH3 := rfl
theorem txpByte (x : Byte) : Statement (.txpByte x) := rfl
theorem hsresp (token : Vector Byte 28) : Statement (.hsresp token) := by
  simp [Statement, wireBits, rowBits, Sys2Proof.encode, respBytes, respHead, respTail]
theorem reset : Statement .reset := rfl

end EncodedWidth

end Sys2Proof.Laws
end

