-- ==== Sys2Proof/Tests/Slice0.lean ====
section
/-! SUPPORT. Tests: what `WellFormed` and the decoders refuse, the decoding of a word written out from the spec for every
constructor, one step per instruction against the spec's vectors (95_test_vectors), and for every statement with
hypotheses a state that meets them. Expected values come from the spec's tables, cited by their ids. -/

namespace Sys2Proof.Tests

open Sys2Proof Sys2Proof.Machine

/-! ### Small states -/

/-- Reset, with these registers and this host side. -/
def at_ (r : Regs) (io : Io) : State := { State.reset with regs := r, io := io }

/-- `AWAITING_UPGRADE` in this signer phase. -/
def signing (p : SgnPhase) (io : Io) : State := at_ { Regs.reset with sgnPhase := p } io

/-- `READING_FRAME` in this decoder phase, these bytes offered on `RX`. -/
def reading (p : DecPhase) (rx : List Byte) : State :=
  at_ { Regs.reset with connState := .readingFrame, decPhase := p } { Io.reset with rx := rx }

/-- `READING_FRAME` in this phase with length `len` (and as much to come) and key. -/
def framing (p : DecPhase) (len : BitVec 16) (k : Key) (rx : List Byte) : State :=
  at_ { Regs.reset with connState := .readingFrame, decPhase := p, decLen := len, decRem := len, decKey := k, unmKey := k }
    { Io.reset with rx := rx }

/-- `WRITING_FRAME` in this encoder phase with `enc_n = n`, these bytes offered on `TXP`. -/
def writing (p : EncPhase) (n : BitVec 32) (txp : List Byte) : State :=
  at_ { Regs.reset with connState := .writingFrame, encPhase := p, encN := n, encRem := n.setWidth 17 }
    { Io.reset with txp := txp }

/-- `conn_state` with this command offered. -/
def commanded (c : ConnState) (beat : BitVec 34) : State :=
  at_ { Regs.reset with connState := c } { Io.reset with cmd := [beat] }

/-- Something of the next state. -/
def seen {α : Type} (f : State → α) (o : Host.Outcome State Fault Refusal) : Option α :=
  match o with
  | .next t => some (f t)
  | .fault _ => none
  | .refused _ => none

/-- The key of vector D1. -/
def keyD1 : Key := ⟨0x37, 0xFA, 0x21, 0x3D⟩

/-! ### `WellFormed` (30_encoding R92, R94) -/

theorem test_wf_rxfLen7_126_refused : Instr.wf (.rxfLen7 126) = false := by decide
theorem test_wf_rxfLen7_127_refused : Instr.wf (.rxfLen7 127) = false := by decide
theorem test_wf_rxfLen7_125_admitted : Instr.wf (.rxfLen7 125) = true := by decide
theorem test_wf_txfLen7_126_refused : Instr.wf (.txfLen7 126) = false := by decide
theorem test_wf_txfLen7_127_refused : Instr.wf (.txfLen7 127) = false := by decide
theorem test_wf_txfLen7_125_admitted : Instr.wf (.txfLen7 125) = true := by decide

/-! ### Decoding: one word per constructor, written out from the spec's encoding -/

theorem test_decode_rxfUnmasked : decode (.rxf [0b10000001, 0b00000010]) = .ok (.rxfUnmasked 2) := by decide
theorem test_decode_rxfUnmasked_7F : decode (.rxf [0x00, 0b01111111]) = .ok (.rxfUnmasked 127) := by decide
theorem test_decode_rxfLen64 : decode (.rxf [0b10000001, 0b11111111]) = .ok .rxfLen64 := by decide
theorem test_decode_rxfLen16 : decode (.rxf [0b10000001, 0b11111110]) = .ok .rxfLen16 := by decide
theorem test_decode_rxfLen7 : decode (.rxf [0b10000001, 0b10000101]) = .ok (.rxfLen7 5) := by decide
theorem test_decode_rxfLen7_max : decode (.rxf [0x72, 0b11111101]) = .ok (.rxfLen7 125) := by decide
theorem test_decode_txfLen7 : decode (.txf [0b10000001, 0b00000111]) = .ok (.txfLen7 7) := by decide
theorem test_decode_txfLen16 : decode (.txf [0b10000001, 0b01111110, 0x01, 0x2C]) = .ok (.txfLen16 1 0x2C) := by decide
theorem test_decode_cmdReserved0 : decode (.cmd 0x0_00000005#34) = .ok (.cmdReserved0 5) := by decide
theorem test_decode_upgrade : decode (.cmd 0x1_00000018#34) = .ok (.upgrade 24) := by decide
theorem test_decode_encode : decode (.cmd 0x2_00010001#34) = .ok (.encode 65537) := by decide
theorem test_decode_close : decode (.cmd 0x3_00000000#34) = .ok (.close 0) := by decide
theorem test_decode_hkByte : decode (.step .hk [0x64]) = .ok (.hkByte 0x64) := by decide
theorem test_decode_respByte : decode (.step .resp []) = .ok .respByte := by decide
theorem test_decode_rxB0 : decode (.step .b0 [0x81]) = .ok (.rxB0 0x81) := by decide
theorem test_decode_rxB1 : decode (.step .b1 [0x85]) = .ok (.rxB1 0x85) := by decide
theorem test_decode_rxX0 : decode (.step .x0 [0x01]) = .ok (.rxX0 0x01) := by decide
theorem test_decode_rxX1 : decode (.step .x1 [0x2C]) = .ok (.rxX1 0x2C) := by decide
theorem test_decode_rxK0 : decode (.step .k0 [0x37]) = .ok (.rxK0 0x37) := by decide
theorem test_decode_rxK1 : decode (.step .k1 [0xFA]) = .ok (.rxK1 0xFA) := by decide
theorem test_decode_rxK2 : decode (.step .k2 [0x21]) = .ok (.rxK2 0x21) := by decide
theorem test_decode_rxK3 : decode (.step .k3 [0x3D]) = .ok (.rxK3 0x3D) := by decide
theorem test_decode_rxPay : decode (.step .pay [0x7F]) = .ok (.rxPay 0x7F) := by decide
theorem test_decode_unmLoad : decode (.step .unmLoad [0x37, 0xFA, 0x21, 0x3D]) = .ok (.unmLoad keyD1) := by decide
theorem test_decode_unmByte : decode (.step .unmByte [0x48]) = .ok (.unmByte 0x48) := by decide
theorem test_decode_txH0 : decode (.step .h0 []) = .ok .txH0 := by decide
theorem test_decode_txH1 : decode (.step .h1 []) = .ok .txH1 := by decide
theorem test_decode_txH2 : decode (.step .h2 []) = .ok .txH2 := by decide
theorem test_decode_txH3 : decode (.step .h3 []) = .ok .txH3 := by decide
theorem test_decode_txpByte : decode (.step .txp [0x41]) = .ok (.txpByte 0x41) := by decide
theorem test_decode_reset : decode .rst = .ok .reset := by decide

/-- T1's token. -/
def tokenT1 : Vector Byte 28 :=
  ⟨#[0x73, 0x33, 0x70, 0x50, 0x4C, 0x4D, 0x42, 0x69, 0x54, 0x78, 0x61, 0x51, 0x39, 0x6B, 0x59, 0x47, 0x7A, 0x7A, 0x68,
    0x5A, 0x52, 0x62, 0x4B, 0x2B, 0x78, 0x4F, 0x6F, 0x3D], rfl⟩

/-- T3's 128 bytes, written out. -/
def bytesT3 : List Byte :=
  [0x48, 0x54, 0x54, 0x50, 0x2F, 0x31, 0x2E, 0x31, 0x20, 0x31, 0x30, 0x31, 0x20, 0x53, 0x77, 0x69, 0x74, 0x63, 0x68, 0x69,
   0x6E, 0x67, 0x20, 0x50, 0x72, 0x6F, 0x74, 0x6F, 0x63, 0x6F, 0x6C, 0x73, 0x0D, 0x0A] ++
  [0x55, 0x70, 0x67, 0x72, 0x61, 0x64, 0x65, 0x3A, 0x20, 0x77, 0x65, 0x62, 0x73, 0x6F, 0x63, 0x6B, 0x65, 0x74, 0x0D, 0x0A] ++
  [0x43, 0x6F, 0x6E, 0x6E, 0x65, 0x63, 0x74, 0x69, 0x6F, 0x6E, 0x3A, 0x20, 0x55, 0x70, 0x67, 0x72, 0x61, 0x64, 0x65, 0x0D,
   0x0A] ++
  [0x53, 0x65, 0x63, 0x2D, 0x57, 0x65, 0x62, 0x53, 0x6F, 0x63, 0x6B, 0x65, 0x74, 0x2D, 0x41, 0x63, 0x63, 0x65, 0x70, 0x74,
   0x3A] ++
  [0x73, 0x33, 0x70, 0x50, 0x4C, 0x4D, 0x42, 0x69, 0x54, 0x78, 0x61, 0x51, 0x39, 0x6B, 0x59, 0x47, 0x7A, 0x7A, 0x68, 0x5A,
   0x52, 0x62, 0x4B, 0x2B, 0x78, 0x4F, 0x6F, 0x3D] ++
  [0x0D, 0x0A, 0x0D, 0x0A]

theorem test_decode_hsresp : decode (.resp bytesT3) = .ok (.hsresp tokenT1) := by decide

/-! ### What the decoders refuse, by name -/

theorem test_reject_rxf_short : decode (.rxf [0x81]) = .error .truncated := by decide
theorem test_reject_txf_first : decode (.txf [0x82, 0x07]) = .error .firstByteNotText := by decide
theorem test_reject_txf_masked : decode (.txf [0x81, 0x87]) = .error .maskBitSet := by decide
theorem test_reject_txf_127 : decode (.txf [0x81, 0x7F]) = .error .marker127 := by decide
theorem test_reject_txf_short : decode (.txf [0x81, 0x7E, 0x01]) = .error .truncated := by decide
theorem test_reject_step_operand : decode (.step .k0 []) = .error .operandLength := by decide
theorem test_reject_resp : decode (.resp [0x48, 0x54]) = .error .notResponse := by decide

/-! ### The table's words as numbers -/

theorem test_table_rxfLen7 : decodeTableWord 16 0x0080 = some (.rxfLen7 0) := by decide
theorem test_table_rxfLen64 : decodeTableWord 16 0x00FF = some .rxfLen64 := by decide
theorem test_table_txfLen7 : decodeTableWord 16 0x8107 = some (.txfLen7 7) := by decide
theorem test_table_txfLen16 : decodeTableWord 32 0x817E012C = some (.txfLen16 0x01 0x2C) := by decide
theorem test_table_encode : decodeTableWord 40 0x200000007 = some (.encode 7) := by decide
theorem test_place_rxfLen64 : fetch (State.reset.withFetchWord 16 0x00FF) = some .rxfLen64 := by decide
theorem test_place_upgrade : fetch (State.reset.withFetchWord 40 0x100000018) = some (.upgrade 24) := by decide
theorem test_place_close : fetch (State.reset.withFetchWord 40 0x300000000) = some (.close 0) := by decide
theorem test_place_reset : fetch (State.reset.withFetchWord 0 0) = some .reset := by decide
/-- The frame form is laid as its frame about to start: its first step is next (log 9). -/
theorem test_place_txfLen7 : fetch (State.reset.withFetchWord 16 0x8107) = some .txH0 := by decide

/-! ### One step per instruction -/

/-- F3, D12: `81 00` raises `MASK_BIT_CLEAR`, byte taken, status code 3. -/
theorem test_rxfUnmasked : seen (fun t => (t.regs.connState, stErr t, t.io.rx, t.regs.decPhase))
    (exec (.rxfUnmasked 0) (reading .b1 [0x00, 0x7B])) = some (.terminated, 3, [0x7B], .b0) := by decide
/-- F4: `00 7F` is the mask fault, not the length fault. -/
theorem test_rxB1_7F : seen stErr (exec (.rxB1 0x7F) (reading .b1 [0x7F])) = some 3 := by decide
/-- D9: `81 FF 00 00`: the two bytes after stay offered. -/
theorem test_rxfLen64 : seen (fun t => (stState t, stErr t, faultOut t, t.io.rx))
    (exec .rxfLen64 (reading .b1 [0xFF, 0x00, 0x00])) = some (5, 1, true, [0x00, 0x00]) := by decide
/-- T6: marker 126 goes on to the extended length. -/
theorem test_rxfLen16 : seen (fun t => (t.regs.decPhase, t.io.rx))
    (exec .rxfLen16 (reading .b1 [0xFE, 0x01])) = some (.x0, [0x01]) := by decide
/-- P1: after `RX 87`, `dec_len = dec_rem = 7`, `D_K0`. -/
theorem test_rxfLen7 : seen (fun t => (t.regs.decLen, t.regs.decRem, t.regs.decPhase))
    (exec (.rxfLen7 7) (reading .b1 [0x87])) = some (7, 7, .k0) := by decide
/-- The dispatcher does the same. -/
theorem test_rxB1 : seen (fun t => (t.regs.decLen, t.regs.decRem, t.regs.decPhase))
    (exec (.rxB1 0x87) (reading .b1 [0x87])) = some (7, 7, .k0) := by decide
/-- E2: `81 01 41/`. -/
theorem test_txfLen7 : seen (fun t => (t.io.tx, t.regs.connState, t.io.txp))
    (exec (.txfLen7 1) (writing .h0 1 [0x41, 0x42])) =
      some ([⟨0x81, false⟩, ⟨0x01, false⟩, ⟨0x41, true⟩], .readingFrame, [0x42]) := by decide
/-- E1: `81 00/`, the empty reply. -/
theorem test_txfLen7_empty : seen (fun t => (t.io.tx, t.regs.connState))
    (exec (.txfLen7 0) (writing .h0 0 [])) = some ([⟨0x81, false⟩, ⟨0x00, true⟩], .readingFrame) := by decide
/-- E8: the header `81 7E 01 2C`; with no payload offered the frame waits in `E_PAY`. -/
theorem test_txfLen16 : seen (fun t => (t.io.tx.map TxBeat.data, t.regs.encPhase, t.regs.encRem))
    (exec (.txfLen16 0x01 0x2C) (writing .h0 300 [])) = some ([0x81, 0x7E, 0x01, 0x2C], .pay, 300) := by decide
/-- E10: at 65536 the header's length bytes are the parameter's, `00 00`. -/
theorem test_txfLen16_quirk : seen (fun t => t.io.tx.map TxBeat.data)
    (exec (.txfLen16 0x00 0x00) (writing .h0 65536 [])) = some [0x81, 0x7E, 0x00, 0x00] := by decide
/-- Q10: never taken. -/
theorem test_cmdReserved0 : seen (fun t => t.io.cmd)
    (exec (.cmdReserved0 0) (commanded .awaitingUpgrade 0#34)) = some [0#34] := by decide
/-- S12, first step: `UPGRADE 24` loads the initial value and waits for 24 bytes. -/
theorem test_upgrade : seen (fun t => (t.regs.sgnPhase, t.regs.sgnKrem, t.regs.sgnCnt, t.regs.sgnH, t.io.cmd))
    (exec (.upgrade 24) (commanded .awaitingUpgrade 0x1_00000018#34)) =
      some (.key, 24, 0, ⟨0x67452301, 0xEFCDAB89, 0x98BADCFE, 0x10325476, 0xC3D2E1F0⟩, []) := by decide
/-- S14: not taken in `HANDSHAKEN`. -/
theorem test_upgrade_early : seen (fun t => t.io.cmd)
    (exec (.upgrade 0) (commanded .handshaken 0x1_00000000#34)) = some [0x1_00000000#34] := by decide
/-- P1: after `CMD ENCODE 7`. -/
theorem test_encode : seen (fun t => (t.regs.connState, t.regs.encPhase, t.regs.encN, t.regs.encRem))
    (exec (.encode 7) (commanded .processing 0x2_00000007#34)) = some (.writingFrame, .h0, 7, 7) := by decide
/-- E11: 65537 raises `PAYLOAD_TOO_LARGE`. -/
theorem test_encode_too_large : seen (fun t => (stState t, stErr t, t.io.tx, t.regs.encN))
    (exec (.encode 65537) (commanded .processing 0x2_00010001#34)) = some (5, 2, [], 0) := by decide
/-- Q3: `CLOSE` at `D_K3` clears the length. -/
theorem test_close : seen (fun t => (t.regs.connState, stErr t, t.regs.decLen, t.regs.decPhase, t.io.cmd))
    (exec (.close 0)
      (at_ { Regs.reset with connState := .readingFrame, decPhase := .k3, decLen := 5, decRem := 5 }
        { Io.reset with cmd := [0x3_00000000#34] })) = some (.terminated, 0, 0, .b0, []) := by decide
/-- Q6: `CLOSE` in `TERMINATED` is taken and changes nothing. -/
theorem test_close_terminated : seen (fun t => (stErr t, faultOut t, t.io.cmd))
    (exec (.close 0) (at_ (terminated .payloadTooLarge) { Io.reset with cmd := [0x3_00000000#34] })) =
      some (2, true, []) := by decide
/-- S12: the first of 24 key bytes lands in `sgn_buf[0]`. -/
theorem test_hkByte : seen (fun t => (t.regs.sgnBuf[0], t.regs.sgnCnt, t.regs.sgnKrem, t.regs.sgnPhase, t.io.hk))
    (exec (.hkByte 0x64)
      (at_ { Regs.reset with sgnPhase := .key, sgnKrem := 24 } { Io.reset with hk := [0x64, 0x47] })) =
      some (0x64, 1, 23, .key, [0x47]) := by decide
/-- T3: byte 0 is `48`, with `last = 0`. -/
theorem test_respByte : seen (fun t => (t.io.tx, t.regs.sgnRidx)) (exec .respByte (signing .resp Io.reset)) =
    some ([⟨0x48, false⟩], 1) := by decide
/-- R136: byte 127 is `0A` with `last`, and the handshake ends. -/
theorem test_respByte_last : seen (fun t => (t.io.tx, t.regs.connState, t.regs.sgnPhase))
    (exec .respByte (at_ { Regs.reset with sgnPhase := .resp, sgnRidx := 127 } Io.reset)) =
      some ([⟨0x0A, true⟩], .handshaken, .idle) := by decide
/-- P1: after `RX 81` from `HANDSHAKEN`. -/
theorem test_rxB0 : seen (fun t => (t.regs.connState, t.regs.decPhase, t.io.rx))
    (exec (.rxB0 0x81) (at_ { Regs.reset with connState := .handshaken } { Io.reset with rx := [0x81, 0x87] })) =
      some (.readingFrame, .b1, [0x87]) := by decide
/-- D15: `XH` goes to the high half, `dec_rem` not written. -/
theorem test_rxX0 : seen (fun t => (t.regs.decLen, t.regs.decRem, t.regs.decPhase))
    (exec (.rxX0 0x01) (reading .x0 [0x01])) = some (0x0100, 0, .x1) := by decide
/-- T6: `01 2C` is 300. -/
theorem test_rxX1 : seen (fun t => (t.regs.decLen, t.regs.decRem, t.regs.decPhase))
    (exec (.rxX1 0x2C) (framing .x1 0x0100 .zero [0x2C])) = some (300, 300, .k0) := by decide
/-- D14: the key bytes in wire order. -/
theorem test_rxK0 : seen (fun t => (t.regs.decKey, t.regs.decPhase))
    (exec (.rxK0 0x37) (framing .k0 5 .zero [0x37])) = some (⟨0x37, 0, 0, 0⟩, .k1) := by decide
theorem test_rxK1 : seen (fun t => (t.regs.decKey, t.regs.decPhase))
    (exec (.rxK1 0xFA) (framing .k1 5 ⟨0x37, 0, 0, 0⟩ [0xFA])) = some (⟨0x37, 0xFA, 0, 0⟩, .k2) := by decide
theorem test_rxK2 : seen (fun t => (t.regs.decKey, t.regs.decPhase))
    (exec (.rxK2 0x21) (framing .k2 5 ⟨0x37, 0xFA, 0, 0⟩ [0x21])) = some (⟨0x37, 0xFA, 0x21, 0⟩, .k3) := by decide
/-- D1: the `AI` beat. -/
theorem test_rxK3 : seen (fun t => (t.io.ai, t.regs.unmKey, t.regs.unmIdx, t.regs.decPhase))
    (exec (.rxK3 0x3D) (framing .k3 5 ⟨0x37, 0xFA, 0x21, 0⟩ [0x3D])) = some ([⟨5, keyD1⟩], keyD1, 0, .pay) := by decide
/-- D2: an empty frame ends here. -/
theorem test_rxK3_empty : seen (fun t => (t.io.ai, t.regs.connState, t.regs.decKey, t.regs.decPhase))
    (exec (.rxK3 0x04) (framing .k3 0 ⟨0x01, 0x02, 0x03, 0⟩ [0x04])) =
      some ([⟨0, ⟨0x01, 0x02, 0x03, 0x04⟩⟩], .processing, .zero, .b0) := by decide
/-- D1: `7F>48`. -/
theorem test_rxPay : seen (fun t => (t.io.ap, t.regs.unmIdx, t.regs.decRem))
    (exec (.rxPay 0x7F) (framing .pay 5 keyD1 [0x7F])) = some ([⟨0x7F, 0x48, false⟩], 1, 4) := by decide
/-- M5's shape, D1's last byte: `58>6F/` with the index wrapped to 0. -/
theorem test_rxPay_last : seen (fun t => (t.io.ap, t.regs.connState, t.regs.unmKey))
    (exec (.rxPay 0x58) (framing .pay 1 keyD1 [0x58])) = some ([⟨0x58, 0x6F, true⟩], .processing, .zero) := by decide
/-- R191. -/
theorem test_unmLoad : seen (fun t => (t.regs.unmKey, t.regs.unmIdx))
    (exec (.unmLoad keyD1) (at_ { Regs.reset with unmIdx := 2 } Io.reset)) = some (keyD1, 0) := by decide
/-- M3: at index 3 the key byte is `44` and the index wraps. -/
theorem test_unmByte : seen (fun t => (t.unmResult, t.regs.unmIdx))
    (exec (.unmByte 0x00) (at_ { Regs.reset with unmKey := ⟨0x11, 0x22, 0x33, 0x44⟩, unmIdx := 3 } Io.reset)) =
      some (some 0x44, 0) := by decide
/-- E14: the first header byte. -/
theorem test_txH0 : seen (fun t => (t.io.tx, t.regs.encPhase)) (exec .txH0 (writing .h0 2 [])) =
    some ([⟨0x81, false⟩], .h1) := by decide
/-- E3: 125 is still a length. -/
theorem test_txH1 : seen (fun t => (t.io.tx, t.regs.encPhase)) (exec .txH1 (writing .h1 125 [])) =
    some ([⟨0x7D, false⟩], .pay) := by decide
/-- E4: 126 is not. -/
theorem test_txH1_long : seen (fun t => (t.io.tx, t.regs.encPhase)) (exec .txH1 (writing .h1 126 [])) =
    some ([⟨0x7E, false⟩], .h2) := by decide
/-- E8: `01 2C`, high byte first. -/
theorem test_txH2 : seen (fun t => (t.io.tx, t.regs.encPhase)) (exec .txH2 (writing .h2 300 [])) =
    some ([⟨0x01, false⟩], .h3) := by decide
theorem test_txH3 : seen (fun t => (t.io.tx, t.regs.encPhase)) (exec .txH3 (writing .h3 300 [])) =
    some ([⟨0x2C, false⟩], .pay) := by decide
/-- E13: a byte passes, one to come. -/
theorem test_txpByte : seen (fun t => (t.io.tx, t.regs.encRem, t.io.txp))
    (exec (.txpByte 0x41) (writing .pay 3 [0x41, 0x42])) = some ([⟨0x41, false⟩], 2, [0x42]) := by decide
/-- E2: the last byte ends the frame. -/
theorem test_txpByte_last : seen (fun t => (t.io.tx, t.regs.connState, t.regs.encN, t.regs.encPhase))
    (exec (.txpByte 0x41) (writing .pay 1 [0x41])) = some ([⟨0x41, true⟩], .readingFrame, 0, .idle) := by decide
/-- S11, T3: the whole response, `last` on byte 127 only. -/
theorem test_hsresp : seen (fun t => (t.io.tx.map TxBeat.data, (t.io.tx.filter TxBeat.last).length, t.regs.connState))
    (exec (.hsresp tokenT1) (at_ { Regs.reset with sgnPhase := .resp, sgnToken := tokenT1 } Io.reset)) =
      some (bytesT3, 1, .handshaken) := by decide +kernel
/-- Q13, F7: reset from `TERMINATED`. -/
theorem test_reset : seen (fun t => (stState t, stErr t, faultOut t, t.io.txp))
    (exec .reset (at_ (terminated .payloadTooLarge) { Io.reset with txp := [0x41] })) =
      some (0, 0, false, [0x41]) := by decide

/-! ### Holds and order, one step each -/

/-- D19: the sixth byte is not taken while `AI` does not accept. -/
theorem test_hold_ai : step { framing .k3 5 ⟨0x37, 0xFA, 0x21, 0⟩ [0x3D] with
    io := { Io.reset with rx := [0x3D], aiReady := false } } =
    .next { framing .k3 5 ⟨0x37, 0xFA, 0x21, 0⟩ [0x3D] with
    io := { Io.reset with rx := [0x3D], aiReady := false } } := rfl
/-- Q11: a `TXP` byte is not taken in `HANDSHAKEN`. -/
theorem test_hold_txp : seen (fun t => (t.io.txp, t.regs.connState))
    (step (at_ { Regs.reset with connState := .handshaken } { Io.reset with txp := [0x41] })) =
      some ([0x41], .handshaken) := by decide
/-- Q12: nor an `RX` byte in `PROCESSING`. -/
theorem test_hold_rx : seen (fun t => (t.io.rx, t.regs.connState))
    (step (at_ { Regs.reset with connState := .processing } { Io.reset with rx := [0x81, 0x80] })) =
      some ([0x81, 0x80], .processing) := by decide
/-- Q9: an early `ENCODE` stays, and what is behind it. -/
theorem test_hold_cmd : seen (fun t => t.io.cmd)
    (step (at_ Regs.reset { Io.reset with cmd := [0x2_00000001#34, 0x1_00000000#34] })) =
      some [0x2_00000001#34, 0x1_00000000#34] := by decide
/-- Log 2, 70 R280: with nothing offered, reset holds. -/
theorem test_step_reset : step State.reset = .next State.reset := rfl

/-- 70 R280: a pulse on `rst` with no step under it is a reset too; the host's beats stay (R281). -/
theorem test_rst_pulse :
    let t := hostMoves [.setRst true, .setRst false] (at_ (terminated .payloadTooLarge) { Io.reset with rx := [0x81] })
    (stState t, stErr t, faultOut t, t.io.rx, t.io.rst) = (0, 0, false, [0x81], false) := by decide
/-- 44 R230: driving a line that is not asserted low again is no reset. -/
theorem test_rst_idle : stState (hostMove (.setRst false) (at_ (terminated .none) Io.reset)) = 5 := by decide

/-! ### Witnesses: for every statement with hypotheses, concrete states and operands that meet them together -/

/-- `CLOSE` offered while `RX` offers a byte in `HANDSHAKEN`. -/
def racing : State :=
  at_ { Regs.reset with connState := .handshaken } { Io.reset with cmd := [cmdBeat 3 0], rx := [0x81] }

/-- `PROCESSING` with this command and these `TXP` bytes. -/
def replying (beat : BitVec 34) (txp : List Byte) : State :=
  at_ { Regs.reset with connState := .processing } { Io.reset with cmd := [beat], txp := txp }

theorem witness_DecodeOfEncode : Instr.wf (.rxfLen7 125) = true ∧ Instr.wf (.txfLen16 0 0) = true := by decide
theorem witness_FormsFollowTheirMasks_low :
    rowUnmasked.hits (0x81#8 ++ 0x80#8) = false ∧ rowLen64.hits (0x81#8 ++ 0x80#8) = false ∧
      rowLen16.hits (0x81#8 ++ 0x80#8) = false := by decide
theorem witness_FormsFollowTheirMasks_high :
    rowUnmasked.hits (0x81#8 ++ 0xFD#8) = false ∧ rowLen64.hits (0x81#8 ++ 0xFD#8) = false ∧
      rowLen16.hits (0x81#8 ++ 0xFD#8) = false := by decide
theorem witness_CommandFields :
    (0x0FFFFFFFF#34).toNat / 2 ^ 32 = 0 ∧ (0x100000000#34).toNat / 2 ^ 32 = 1 ∧
      (0x1FFFFFFFF#34).toNat / 2 ^ 32 = 1 ∧ (0x200000000#34).toNat / 2 ^ 32 = 2 ∧
      (0x2FFFFFFFF#34).toNat / 2 ^ 32 = 2 ∧ (0x300000000#34).toNat / 2 ^ 32 = 3 := by decide
theorem witness_ResetValues :
    ∃ t, step (at_ Regs.reset { Io.reset with rx := [0x81], hk := [0x41], txp := [0x42] }) = .next t := ⟨_, rfl⟩
theorem witness_ResetFromAnyState : (at_ (terminated .maskBitClear) { Io.reset with rst := true }).io.rst = true := rfl
theorem witness_HostWritesNoRegister :
    ¬(HostMove.setRst true = .setRst false ∧ State.reset.io.rst = true) ∧
      (at_ (terminated .maskBitClear) { Io.reset with rst := true }).io.rst = true := by decide
theorem witness_StepRunsFetched :
    fetch (reading .b1 [0x87]) = some (.rxfLen7 7) ∧ fetch State.reset = none ∧
      contested (reading .b1 [0x87]) = false ∧ cmdLegal (decodeCmd (cmdBeat 3 0)) (commanded .processing 0) = true ∧
      dataDue (commanded .processing 0) = none := by decide
theorem witness_OfferedBeatsAreTaken_signer :
    fetch (signing .key { Io.reset with hk := [0x41] }) = some (.hkByte 0x41) ∧
      fetch (signing .resp Io.reset) = some .respByte := by decide
theorem witness_OfferedBeatsAreTaken_decoder :
    fetch (at_ { Regs.reset with connState := .handshaken } { Io.reset with rx := [0x81] }) = some (.rxB0 0x81) ∧
      fetch (reading .b0 [0x81]) = some (.rxB0 0x81) ∧ fetch (reading .b1 [0xFF]) = some .rxfLen64 ∧
      fetch (reading .x0 [0x01]) = some (.rxX0 0x01) ∧ fetch (reading .x1 [0x2C]) = some (.rxX1 0x2C) ∧
      fetch (reading .k0 [0x01]) = some (.rxK0 0x01) ∧ fetch (reading .k1 [0x02]) = some (.rxK1 0x02) ∧
      fetch (reading .k2 [0x03]) = some (.rxK2 0x03) ∧ fetch (reading .k3 [0x04]) = some (.rxK3 0x04) ∧
      fetch (reading .pay [0x7F]) = some (.rxPay 0x7F) := by decide
theorem witness_OfferedBeatsAreTaken_encoder :
    fetch (writing .h0 2 []) = some .txH0 ∧ fetch (writing .h1 2 []) = some .txH1 ∧
      fetch (writing .h2 126 []) = some .txH2 ∧ fetch (writing .h3 126 []) = some .txH3 ∧
      fetch (writing .pay 2 [0x41]) = some (.txpByte 0x41) := by decide
/-- `HANDSHAKEN` with this command at the head of `CMD` and an `RX` byte offered. -/
def earlier (beat : BitVec 34) : State :=
  at_ { Regs.reset with connState := .handshaken } { Io.reset with cmd := [beat], rx := [0x81] }

/-- `rst` low and no command to take. -/
def dataAlone (s : State) : Bool := decide (s.io.rst = false ∧ noCommandTaken s)

/-- The hypotheses of AbsentDataHolds, together. -/
def holdsHere (s : State) : Bool := dataAlone s && decide (waiting s)

/-- Q8: an `ENCODE` offered early is out of place and the `RX` byte is taken; so with `op = 0` and a late `UPGRADE`. -/
theorem witness_OfferedBeatsAreTaken_behind :
    (dataAlone (earlier (cmdBeat 2 3)) = true ∧ fetch (earlier (cmdBeat 2 3)) = some (.rxB0 0x81)) ∧
      (dataAlone (earlier 0) = true ∧ fetch (earlier 0) = some (.rxB0 0x81)) ∧
      (dataAlone (earlier (cmdBeat 1 0)) = true ∧ fetch (earlier (cmdBeat 1 0)) = some (.rxB0 0x81)) := by
  decide +kernel
/-- The rows that wait on `CMD`, and `CLOSE` in a hold. -/
theorem witness_OfferedBeatsAreTaken_command :
    fetch (commanded .awaitingUpgrade (cmdBeat 1 24)) = some (.upgrade 24) ∧
      fetch (commanded .processing (cmdBeat 2 7)) = some (.encode 7) ∧
      decide (waiting (commanded .handshaken (cmdBeat 3 5))) = true ∧ (cmdBeat 3 5).toNat / 2 ^ 32 = 3 ∧
      fetch (commanded .handshaken (cmdBeat 3 5)) = some (.close 5) ∧
      decide (waiting (commanded .terminated (cmdBeat 3 0))) = true := by decide +kernel
/-- Q9 in `AWAITING_UPGRADE`, `op = 0` in `PROCESSING`, a late `UPGRADE` in `TERMINATED`: a hold behind the command. -/
theorem witness_AbsentDataHolds_behind :
    holdsHere (commanded .awaitingUpgrade (cmdBeat 2 1)) = true ∧ holdsHere (commanded .processing 0) = true ∧
      holdsHere (commanded .terminated (cmdBeat 1 0)) = true := by decide +kernel
/-- `CMD` empty, nothing offered on the channel the row names. -/
theorem witness_AbsentDataHolds_input :
    holdsHere State.reset = true ∧ holdsHere (signing .key Io.reset) = true ∧
      holdsHere (at_ { Regs.reset with connState := .handshaken } Io.reset) = true ∧
      holdsHere (reading .k3 []) = true ∧ holdsHere (writing .pay 2 []) = true ∧
      holdsHere (at_ { Regs.reset with connState := .processing } Io.reset) = true ∧
      holdsHere (at_ (terminated .none) Io.reset) = true := by decide +kernel
/-- D19, E14, S15: the sink does not accept. -/
theorem witness_AbsentDataHolds_sink :
    holdsHere { reading .k3 [0x04] with io := { Io.reset with rx := [0x04], aiReady := false } } = true ∧
      holdsHere { reading .pay [0x04] with io := { Io.reset with rx := [0x04], apReady := false } } = true ∧
      holdsHere { writing .h1 2 [] with io := { Io.reset with txReady := false } } = true ∧
      holdsHere (signing .resp { Io.reset with txReady := false }) = true := by decide +kernel
theorem witness_CloseRacesData : racing.io.rst = false ∧ racing.io.cmd = [cmdBeat 3 0] ∧
    dataDue racing = some (.rxB0 0x81) := by decide
theorem witness_OnlyDueInstructionsAct :
    ∃ t, exec (.rxB0 0x81) racing = .next t ∧ t ≠ racing := ⟨_, rfl, by decide⟩
theorem witness_UpgradeStartsSigner :
    (commanded .awaitingUpgrade (cmdBeat 1 24)).regs.sgnPhase = .idle ∧
      (commanded .awaitingUpgrade (cmdBeat 1 24)).io.cmd = [cmdBeat 1 24] ∧ (24#32 ≠ 0) ∧
      (commanded .awaitingUpgrade (cmdBeat 1 0)).io.cmd = [cmdBeat 1 0] := by decide
theorem witness_KeyByteIsAbsorbed :
    let s := at_ { Regs.reset with sgnPhase := .key, sgnKrem := 1 } { Io.reset with hk := [0x41] }
    let u := at_ { Regs.reset with sgnPhase := .key, sgnKrem := 2 } { Io.reset with hk := [0x41] }
    (s.regs.connState = .awaitingUpgrade ∧ s.regs.sgnPhase = .key ∧ s.io.hk = [0x41] ∧ s.regs.sgnKrem = 1) ∧
      (u.regs.connState = .awaitingUpgrade ∧ u.regs.sgnPhase = .key ∧ u.io.hk = [0x41] ∧ u.regs.sgnKrem ≠ 1) := by decide
theorem witness_ResponseByteIsEmitted :
    let s := at_ { Regs.reset with sgnPhase := .resp, sgnRidx := 126 } Io.reset
    let u := at_ { Regs.reset with sgnPhase := .resp, sgnRidx := 127 } Io.reset
    (s.regs.connState = .awaitingUpgrade ∧ s.regs.sgnPhase = .resp ∧ s.io.txReady = true ∧ s.regs.sgnRidx.toNat < 127) ∧
      (u.regs.connState = .awaitingUpgrade ∧ u.regs.sgnPhase = .resp ∧ u.io.txReady = true ∧ u.regs.sgnRidx = 127) := by
  decide
theorem witness_ResponseIsWrittenOnce :
    let s := signing .resp Io.reset
    s.regs.connState = .awaitingUpgrade ∧ s.regs.sgnPhase = .resp ∧ s.regs.sgnRidx = 0 ∧ s.io.txReady = true ∧
      s.io.rst = false ∧ s.io.cmd = [] := by decide
theorem witness_TokenText : (List.replicate 20 (0xFF#8)).length = 20 := by decide
theorem witness_StreamingShaIsSha1 : ([0x61] : List Byte).length < 2 ^ 61 ∧ ([0x61] : List Byte).length < 2 ^ 32 := by
  decide
theorem witness_HandshakeEmitsAccept :
    let s := at_ Regs.reset { Io.reset with cmd := [cmdBeat 1 1], hk := [0x41, 0x42] }
    ([0x41] : List Byte).length < 2 ^ 32 ∧ s.regs.connState = .awaitingUpgrade ∧ s.regs.sgnPhase = .idle ∧
      s.io.rst = false ∧ s.io.txReady = true ∧ s.io.cmd = [cmdBeat 1 (BitVec.ofNat 32 1)] ∧
      s.io.hk = [0x41] ++ [0x42] := by decide
theorem witness_ByteZeroIsDiscarded :
    racing.regs.connState = .handshaken ∧ racing.regs.decPhase = .b0 ∧ racing.io.rx = [0x81] ∧
      (reading .b0 [0x00]).regs.connState = .readingFrame ∧ (reading .b0 [0x00]).io.rx = [0x00] := by decide
theorem witness_LengthForms :
    let s := reading .b1 [0xFD]
    let u := reading .b1 [0xFE]
    (s.params.unmaskedPolicy = .fault ∧ s.regs.connState = .readingFrame ∧ s.regs.decPhase = .b1 ∧ s.io.rx = [0xFD] ∧
      (125#7).toNat ≤ 125 ∧ (0xFD#8).toNat = 128 + (125#7).toNat) ∧
      (u.params.unmaskedPolicy = .fault ∧ u.regs.connState = .readingFrame ∧ u.regs.decPhase = .b1 ∧ u.io.rx = [0xFE]) := by
  decide
theorem witness_FaultForms :
    let s := reading .b1 [0xFF]
    let u := reading .b1 [0x7F]
    (s.params.unmaskedPolicy = .fault ∧ s.regs.connState = .readingFrame ∧ s.regs.decPhase = .b1 ∧ s.io.rx = [0xFF]) ∧
      (u.params.unmaskedPolicy = .fault ∧ u.regs.connState = .readingFrame ∧ u.regs.decPhase = .b1 ∧ u.io.rx = [0x7F] ∧
        (0x7F#8).toNat = (127#7).toNat) := by decide
theorem witness_IgnorePolicyForms :
    let s := { reading .b1 [0x7D] with params := ⟨0, .ignore⟩ }
    let u := { reading .b1 [0x7E] with params := ⟨0, .ignore⟩ }
    let v := { reading .b1 [0xFF] with params := ⟨0, .ignore⟩ }
    (s.params.unmaskedPolicy = .ignore ∧ s.regs.connState = .readingFrame ∧ s.regs.decPhase = .b1 ∧ s.io.rx = [0x7D] ∧
      (125#7).toNat ≤ 125 ∧ (0x7D#8).toNat % 128 = (125#7).toNat) ∧
      (u.params.unmaskedPolicy = .ignore ∧ u.io.rx = [0x7E] ∧ (0x7E#8).toNat % 128 = 126) ∧
      (v.params.unmaskedPolicy = .ignore ∧ v.io.rx = [0xFF] ∧ (0xFF#8).toNat % 128 = 127) := by decide
theorem witness_ExtendedLength :
    (reading .x0 [0xFF]).regs.connState = .readingFrame ∧ (reading .x0 [0xFF]).regs.decPhase = .x0 ∧
      (reading .x0 [0xFF]).io.rx = [0xFF] ∧ (reading .x1 [0xFF]).regs.decPhase = .x1 := by decide
theorem witness_KeyBytesAreKept :
    (reading .k0 [0x37]).regs.decPhase = .k0 ∧ (reading .k1 [0x37]).regs.decPhase = .k1 ∧
      (reading .k2 [0x37]).regs.decPhase = .k2 ∧ (reading .k2 [0x37]).regs.connState = .readingFrame ∧
      (reading .k2 [0x37]).io.rx = [0x37] := by decide
theorem witness_KeyEndAnnouncesFrame :
    let s := framing .k3 0 .zero [0x04]
    let u := framing .k3 1 .zero [0x04]
    (s.regs.connState = .readingFrame ∧ s.regs.decPhase = .k3 ∧ s.io.rx = [0x04] ∧ s.io.aiReady = true ∧
      s.regs.decLen = 0) ∧
      (u.regs.connState = .readingFrame ∧ u.regs.decPhase = .k3 ∧ u.io.rx = [0x04] ∧ u.io.aiReady = true ∧
        u.regs.decLen ≠ 0) := by decide
theorem witness_PayloadByteIsUnmasked :
    let s := framing .pay 1 keyD1 [0x58]
    let u := framing .pay 2 keyD1 [0x58]
    (s.regs.connState = .readingFrame ∧ s.regs.decPhase = .pay ∧ s.io.rx = [0x58] ∧ s.io.apReady = true ∧
      s.regs.decRem = 1) ∧
      (u.regs.connState = .readingFrame ∧ u.regs.decPhase = .pay ∧ u.io.rx = [0x58] ∧ u.io.apReady = true ∧
        u.regs.decRem ≠ 1) := by decide
theorem witness_UnmaskPointwise : 4 < ([0x12, 0x34, 0x56, 0x78, 0x9A] : List Byte).length := by decide
theorem witness_DecoderComputesDecode_frame :
    let s := at_ { Regs.reset with connState := .handshaken } { Io.reset with rx := [0x81, 0x81, 0, 0, 0, 0, 0x41, 0x81] }
    s.regs.connState = .handshaken ∧ s.regs.decPhase = .b0 ∧ s.io.rst = false ∧ s.io.cmd = [] ∧ s.io.aiReady = true ∧
      s.io.apReady = true ∧
      decodeFrame s.params.unmaskedPolicy s.io.rx = .frame 1 .zero [0x41] [0x81] := by decide
theorem witness_DecoderComputesDecode_fault : decodeFrame .fault [0x81, 0xFF] = .fault .unsupportedLength := by decide
theorem witness_DecoderComputesDecode_needMore :
    decodeFrame .fault [0x81, 0x81, 0, 0, 0, 0] = .needMore ∧
      decodeFrame .fault ([0x81, 0x81, 0, 0, 0, 0] ++ [0x41]) = .frame 1 .zero [0x41] [] := by decide
theorem witness_EncodeBeginsFrame :
    (replying (cmdBeat 2 65536) []).regs.connState = .processing ∧
      (replying (cmdBeat 2 65536) []).io.cmd = [cmdBeat 2 65536] ∧ (65536#32).toNat ≤ 65536 ∧
      (replying (cmdBeat 2 65537) []).io.cmd = [cmdBeat 2 65537] ∧ 65537 ≤ (65537#32).toNat := by decide
theorem witness_HeaderStepsEmit :
    ((writing .h1 0 []).regs.connState = .writingFrame ∧ (writing .h1 0 []).io.txReady = true ∧
      (writing .h1 0 []).regs.encPhase = .h1 ∧ (writing .h1 0 []).regs.encN.toNat = 0) ∧
      (1 ≤ (writing .h1 125 []).regs.encN.toNat ∧ (writing .h1 125 []).regs.encN.toNat ≤ 125) ∧
      126 ≤ (writing .h1 126 []).regs.encN.toNat ∧ (writing .h2 126 []).regs.encPhase = .h2 ∧
      (writing .h3 65536 []).regs.encPhase = .h3 ∧ (writing .h0 1 []).regs.encPhase = .h0 := by decide
theorem witness_PayloadBytePasses :
    let s := writing .pay 1 [0x41]
    let u := writing .pay 2 [0x41]
    (s.regs.connState = .writingFrame ∧ s.regs.encPhase = .pay ∧ s.io.txp = [0x41] ∧ s.io.txReady = true ∧
      s.regs.encRem = 1) ∧
      (u.regs.connState = .writingFrame ∧ u.regs.encPhase = .pay ∧ u.io.txp = [0x41] ∧ u.io.txReady = true ∧
        u.regs.encRem ≠ 1) := by decide
theorem witness_ShortFrameGoesOut :
    let s := writing .h0 1 [0x41, 0x42]
    s.regs.connState = .writingFrame ∧ s.regs.encPhase = .h0 ∧ s.io.txReady = true ∧ (1#7).toNat ≤ 125 ∧
      s.regs.encN.toNat = (1#7).toNat ∧ s.regs.encRem.toNat = (1#7).toNat ∧ s.io.txp = [0x41] ++ [0x42] := by decide
theorem witness_LongFrameGoesOut :
    let s := writing .h0 126 (List.replicate 126 0x41)
    s.regs.connState = .writingFrame ∧ s.regs.encPhase = .h0 ∧ s.io.txReady = true ∧ 126 ≤ s.regs.encN.toNat ∧
      s.regs.encN.toNat ≤ 65536 ∧ s.regs.encRem.toNat = s.regs.encN.toNat ∧
      (0x00#8).toNat * 256 + (0x7E#8).toNat =
        (if s.regs.encN.toNat ≤ 65535 then s.regs.encN.toNat else s.params.encLen16At65536.toNat) ∧
      (List.replicate 126 (0x41#8)).length = s.regs.encN.toNat ∧ s.io.txp = List.replicate 126 0x41 ++ [] := by
  decide +kernel
/-- The other length bytes, at 65536: the parameter's. -/
theorem witness_LongFrameGoesOut_65536 :
    let s := writing .h0 65536 (List.replicate 65536 0x41)
    s.regs.connState = .writingFrame ∧ s.regs.encPhase = .h0 ∧ s.io.txReady = true ∧ 126 ≤ s.regs.encN.toNat ∧
      s.regs.encN.toNat ≤ 65536 ∧ s.regs.encRem.toNat = s.regs.encN.toNat ∧
      (0x00#8).toNat * 256 + (0x00#8).toNat =
        (if s.regs.encN.toNat ≤ 65535 then s.regs.encN.toNat else s.params.encLen16At65536.toNat) ∧
      (List.replicate 65536 (0x41#8)).length = s.regs.encN.toNat ∧ s.io.txp = List.replicate 65536 0x41 ++ [] :=
  ⟨rfl, rfl, rfl, by decide, by decide, by decide, by decide, List.length_replicate.trans (by decide),
    (List.append_nil _).symm⟩
theorem witness_EncoderComputesEncode :
    let s := replying (cmdBeat 2 1) [0x41]
    s.regs.connState = .processing ∧ s.io.rst = false ∧ s.io.txReady = true ∧ ([0x41] : List Byte).length ≤ 65536 ∧
      s.io.cmd = [cmdBeat 2 (BitVec.ofNat 32 1)] ∧ s.io.txp = [0x41] ++ [] ∧
      encodeFrame s.params [0x41] = some [0x81, 0x01, 0x41] := by decide
theorem witness_RoundTripThroughClient :
    ([0x6F, 0x6B] : List Byte).length ≤ 65535 ∧ (List.replicate 65536 (0x41#8)).length = 65536 :=
  ⟨by decide, List.length_replicate⟩
/-- P5's variant: a server-shaped frame is an encoding and has no mask bit. -/
theorem witness_RoundTripThroughClient_unmasked : encodeFrame .default [0x6F, 0x6B] = some [0x81, 0x02, 0x6F, 0x6B] ∧
    Params.default.encLen16At65536 = 0 := by decide
theorem witness_CloseTerminates :
    racing.io.cmd = [cmdBeat 3 0] ∧ racing.regs.connState ≠ .terminated ∧
      (commanded .terminated (cmdBeat 3 0)).io.cmd = [cmdBeat 3 0] ∧
      (commanded .terminated (cmdBeat 3 0)).regs.connState = .terminated := by decide
theorem witness_OutOfPlaceCommandsStay :
    (commanded .handshaken 0#34).io.cmd = [0#34] ∧ (0#34).toNat / 2 ^ 32 = 0 ∧
      (cmdBeat 1 0).toNat / 2 ^ 32 = 1 ∧ (commanded .handshaken (cmdBeat 1 0)).regs.connState ≠ .awaitingUpgrade ∧
      (cmdBeat 2 1).toNat / 2 ^ 32 = 2 ∧ (commanded .handshaken (cmdBeat 2 1)).regs.connState ≠ .processing := by decide
theorem witness_OutOfPlaceCommandsStay_permitted :
    (commanded .awaitingUpgrade (cmdBeat 1 0)).io.rst = false ∧
      (commanded .awaitingUpgrade (cmdBeat 1 0)).regs.connState = .awaitingUpgrade ∧
      (commanded .awaitingUpgrade (cmdBeat 1 0)).regs.sgnPhase = .idle ∧
      (commanded .processing (cmdBeat 2 1)).regs.connState = .processing := by decide
theorem witness_TransitionTable :
    ∃ t, step (reading .b1 [0xFF]) = .next t ∧ t.regs.connState ≠ (reading .b1 [0xFF]).regs.connState :=
  ⟨_, rfl, by decide⟩
theorem witness_ErrIsWrittenOnlyByFaults :
    ∃ t, step (reading .b1 [0x7F]) = .next t ∧ t.regs.err ≠ (reading .b1 [0x7F]).regs.err := ⟨_, rfl, by decide⟩
theorem witness_TerminatedIsTerminal :
    ∃ t, (commanded .terminated (cmdBeat 3 0)).regs.connState = .terminated ∧
      (commanded .terminated (cmdBeat 3 0)).io.rst = false ∧ step (commanded .terminated (cmdBeat 3 0)) = .next t :=
  ⟨_, rfl, rfl, rfl⟩
theorem witness_StreamsAreOrdered : ∃ t, step (reading .k3 [0x04, 0x81]) = .next t ∧ t.io.rx = [0x81] ∧
    t.io.ai = [⟨0, ⟨0, 0, 0, 0x04⟩⟩] := ⟨_, rfl, rfl, rfl⟩
theorem witness_ChannelsMoveOnlyWhenEnabled :
    ∃ t, step (writing .pay 2 [0x41]) = .next t ∧ t.io.txp ≠ [0x41] ∧ t.io.tx ≠ [] := ⟨_, rfl, by decide, by decide⟩
theorem witness_NoLookAhead :
    ∃ t, step (reading .b0 [0x81]) = .next t ∧ (reading .b0 [0x81]).io.rx ≠ [] := ⟨_, rfl, by decide⟩
theorem witness_InstancesAreIndependent :
    ∃ s t, (System.mk [State.reset, reading .b0 [0x81]]).instances[1]? = some s ∧ step s = .next t :=
  ⟨_, _, rfl, rfl⟩
theorem witness_StepKeepsRegsInv : RegsInv Regs.reset ∧ ∃ t, step (commanded .awaitingUpgrade (cmdBeat 3 0)) = .next t :=
  ⟨by constructor <;> constructor <;> decide, _, rfl⟩
theorem witness_StepKeepsSignerInv :
    SignerInv [] (signing .idle { Io.reset with cmd := [cmdBeat 1 24] }).regs ∧
      ∃ t, step (signing .idle { Io.reset with cmd := [cmdBeat 1 24] }) = .next t ∧ t.regs.sgnPhase = .key :=
  ⟨⟨by decide, by decide⟩, _, rfl, rfl⟩
theorem witness_ReachableStatesMeetR36 :
    Reachable [] (hostMove (.offerCmd (cmdBeat 3 0)) { State.reset with params := .default }) :=
  .host _ (.start _)

end Sys2Proof.Tests
end

