-- ==== Sys2Proof/Proofs/Fetched.lean ====
section
/-! SUPPORT. A step with nothing contested is `exec` of the one instruction that is due: the data step, the form of frame
byte 1, or the command. -/

namespace Sys2Proof.Machine

/-- At `D_B1` the byte offered on `RX` makes the form it selects due (30_encoding R92; log 12). -/
theorem dataDue_b1 {s : State} {x : Byte} {rest : List Byte} (hc : s.regs.connState = .readingFrame)
    (hp : s.regs.decPhase = .b1) (ho : s.io.rx = x :: rest) :
    dataDue s = some (selectForm s.params.unmaskedPolicy x) :=
  dataDue_intro (slot := .b1) (bs := [x]) (by simp [slotOf, hc, hp]) rfl (by simp [operandOf, ho]) rfl

/-- A command at the head of `CMD` that the state takes is due (30_encoding R96, 44 R225). -/
theorem cmdDue_of_legal {s : State} {beat : BitVec 34} {rest : List (BitVec 34)} (ho : s.io.cmd = beat :: rest)
    (hl : cmdLegal (decodeCmd beat) s = true) : cmdDue s = some (decodeCmd beat) := by
  simp [cmdDue, ho, hl]

/-- With no order to choose, a step is `exec` on the state itself. -/
theorem step_of_fetch_uncontested {s : State} {i : Instr} (hc : contested s = false) (hf : fetch s = some i) :
    step s = exec i s := by
  rw [step_of_fetch hf, takeTurn_uncontested hc]

/-- With no command to take, a step runs the data step that is due. -/
theorem step_of_data_alone {s : State} {i : Instr} (hr : s.io.rst = false) (hc : cmdDue s = none)
    (hd : dataDue s = some i) : step s = exec i s :=
  step_of_fetch_uncontested (contested_of_no_cmd hc) ((fetch_of_no_cmd hr hc).trans hd)

/-- With no data step due, a step runs the command that is due. -/
theorem step_of_cmd_alone {s : State} {i : Instr} (hr : s.io.rst = false) (hd : dataDue s = none)
    (hc : cmdDue s = some i) : step s = exec i s :=
  step_of_fetch_uncontested (contested_of_no_data hd) ((fetch_of_no_data hr hd).trans hc)

/-- Settles O8: the first two clauses are `step` itself, `takeTurn` writes only the choice of order, and a data step or a
command that is due alone is the one fetched. -/
theorem stepRunsFetched : Obligations.StepRunsFetched := by
  intro s
  refine ⟨fun _ hf => step_of_fetch hf, step_of_hold, ?frame, takeTurn_uncontested, ?byte1, ?command⟩
  case frame => exact ⟨takeTurn_regs s, takeTurn_io s, takeTurn_params s, takeTurn_unmResult s⟩
  case byte1 =>
    intro x rest hr hcmd hc hp ho
    exact step_of_data_alone hr (cmdDue_of_nil hcmd) (dataDue_b1 hc hp ho)
  case command =>
    intro beat rest hr ho hl hd
    exact step_of_cmd_alone hr hd (cmdDue_of_legal ho hl)

end Sys2Proof.Machine
end

