-- ==== Sys2Proof/Proofs/Status.lean ====
section
/-! SUPPORT. The status outputs, the state right after reset, and the one register the status outputs report besides
`conn_state`: what writes `err` (10_state R23 to R25, R34). -/

namespace Sys2Proof.Machine

/-! ### Status outputs -/

/-- Settles O7, by the codes of `conn_state` and of `err`. -/
theorem statusOutputs : Obligations.StatusOutputs := by
  intro s
  refine ⟨?state, ?err, ?fault⟩
  case state => unfold stState; cases s.regs.connState <;> rfl
  case err => unfold stErr; cases s.regs.err <;> rfl
  case fault =>
    unfold faultOut stState stErr
    cases s.regs.connState <;> cases s.regs.err <;> decide

/-! ### The state right after reset -/

/-- The reset registers make no byte step due (20_memory R63). -/
theorem dataDue_of_reset_regs {s : State} (h : s.regs = Regs.reset) : dataDue s = none :=
  dataDue_of_waiting (.inl (by rw [h]; exact ⟨rfl, rfl⟩))

/-- From the reset registers a step touches no channel but `CMD`. -/
theorem step_of_reset_regs_io {s t : State} (h : s.regs = Regs.reset) (hs : step s = .next t) :
    t.io = s.io ∨ t.io = (takeCmd s).io := by
  cases step_cases hs with
  | hold => exact .inl rfl
  | reset => simp
  | upgrade => exact .inr (by simp [takeCmd])
  | encode _ _ _ _ _ _ _ hc => rw [h] at hc; cases hc
  | close => exact .inr (by simp [takeCmd])
  | data _ _ _ _ hd => rw [dataDue_of_reset_regs h] at hd; cases hd

/-- Settles O5: the values are read off `Regs.reset`, and a step from them takes at most a command. -/
theorem resetValues : Obligations.ResetValues := by
  refine ⟨by decide, by decide, fun s t h hs => ?_⟩
  rcases step_of_reset_regs_io h hs with ht | ht <;> simp [ht]

/-! ### What writes `err` -/

/-- `ENCODE` up to 65536 keeps `err`; above, it faults (43 R201, R204). -/
theorem encodeOp_err (n : BitVec 32) (s : State) :
    (encodeOp n s).regs.err = if 65536 < n.toNat then .payloadTooLarge else s.regs.err := by
  unfold encodeOp; split <;> rfl

@[simp] theorem h1Op_err (s : State) : (h1Op s).regs.err = s.regs.err := by
  unfold h1Op
  split
  · split <;> rfl
  · rfl

/-- A data step that changes `err` is one of the two fault forms of frame byte 1 (41 R164, R165). -/
theorem DataStep.err_cases {s u t : State} {i : Instr} (h : DataStep s u i t) (hu : u.regs = s.regs) :
    t.regs.err = s.regs.err ∨
    (i = .rxfLen64 ∧ t.regs = terminated .unsupportedLength) ∨
    ((∃ l, i = .rxfUnmasked l) ∧ t.regs = terminated .maskBitClear) := by
  cases h
  case form hf =>
    cases hf
    case unmasked => exact .inr (.inr ⟨⟨_, rfl⟩, rfl⟩)
    case len64 => exact .inr (.inl ⟨rfl, rfl⟩)
    case len16 => exact .inl (by simp [len16Op, hu])
    case len7 => exact .inl (by simp [len7Op, hu])
  all_goals exact .inl (by simp [hu])

/-- Settles O46, by the inversion of `step`: outside reset, `ENCODE` above 65536 and the two fault forms, every case
keeps `err`. -/
theorem errIsWrittenOnlyByFaults : Obligations.ErrIsWrittenOnlyByFaults := by
  refine ⟨by decide, fun s t hs hne => ?_⟩
  cases step_cases hs with
  | hold => exact absurd rfl hne
  | reset _ hr => exact .inl ⟨hr, rfl⟩
  | upgrade => simp at hne
  | close => simp at hne
  | encode n _ _ hf =>
    by_cases hn : 65536 < n.toNat
    · refine .inr ⟨by simp [encodeOp, hn], .inr (.inr ⟨⟨n, hf, hn⟩, by simp [encodeOp_err, hn]⟩)⟩
    · simp [encodeOp_err, hn] at hne
  | data i _ hf _ _ he =>
    rcases he.err_cases (takeTurn_regs s) with h | ⟨rfl, h⟩ | ⟨⟨l, rfl⟩, h⟩
    · exact absurd h hne
    · exact .inr ⟨by simp [h], .inl ⟨hf, by simp [h]⟩⟩
    · exact .inr ⟨by simp [h], .inr (.inl ⟨⟨l, hf⟩, by simp [h]⟩)⟩

end Sys2Proof.Machine
end

