-- ==== Sys2Proof/Proofs/LookAhead.lean ====
section
/-! SUPPORT. No look-ahead (10_state R33, 20_memory R71): beats offered behind the heads of the input streams change
neither which instruction is fetched nor what it does, and stay there. -/

namespace Sys2Proof.Machine

/-- The compounds of log 13: whole frames, which read `TXP` beyond its head, and the whole response. -/
def isCompound : Instr → Bool
  | .txfLen7 _ => true
  | .txfLen16 _ _ => true
  | .hsresp _ => true
  | _ => false

/-- A step runs no compound: it runs their byte steps (log 13). -/
theorem isCompound_of_fetch {s : State} {i : Instr} (h : fetch s = some i) : isCompound i = false := by
  rcases fetch_cases h with ⟨-, rfl⟩ | ⟨-, hc⟩ | ⟨-, hd⟩
  · rfl
  · obtain ⟨-, -, -, -, ⟨-, rfl, -⟩ | ⟨-, rfl, -⟩ | ⟨-, rfl⟩⟩ := cmdDue_cases hc <;> rfl
  · obtain ⟨_, -, he⟩ := dataDue_step (u := s) hd rfl rfl rfl
    cases he
    case form hf => cases hf <;> rfl
    all_goals rfl

/-- Beats for the ends of the four input streams. -/
structure Later where
  cmd : List (BitVec 34)
  hk  : List Byte
  rx  : List Byte
  txp : List Byte

/-- The state with these beats offered behind those already there. -/
def Later.behind (q : Later) (s : State) : State :=
  { s with io := { s.io with
      cmd := s.io.cmd ++ q.cmd, hk := s.io.hk ++ q.hk, rx := s.io.rx ++ q.rx, txp := s.io.txp ++ q.txp } }

/-- No head is replaced: a stream that is empty gets no beat. -/
structure Later.KeepsHeads (q : Later) (s : State) : Prop where
  cmd : s.io.cmd = [] → q.cmd = []
  hk  : s.io.hk = [] → q.hk = []
  rx  : s.io.rx = [] → q.rx = []
  txp : s.io.txp = [] → q.txp = []

theorem head?_append_of_nil_imp {α : Type} {l m : List α} (h : l = [] → m = []) : (l ++ m).head? = l.head? := by
  cases l with
  | nil => simp [h rfl]
  | cons => rfl

theorem tail_append_of_nil_imp {α : Type} {l m : List α} (h : l = [] → m = []) : (l ++ m).tail = l.tail ++ m := by
  cases l with
  | nil => simp [h rfl]
  | cons => rfl

namespace Later

/-! ### What an operation leaves at the ends of the streams -/

@[simp] theorem behind_regs (q : Later) (s : State) : (q.behind s).regs = s.regs := rfl
@[simp] theorem behind_params (q : Later) (s : State) : (q.behind s).params = s.params := rfl
@[simp] theorem behind_setRegs (q : Later) (r : Regs) (s : State) :
    setRegs r (q.behind s) = q.behind (setRegs r s) := rfl
@[simp] theorem behind_raise (q : Later) (e : Err) (s : State) : raise e (q.behind s) = q.behind (raise e s) := rfl
@[simp] theorem behind_resetRegs (q : Later) (s : State) : resetRegs (q.behind s) = q.behind (resetRegs s) := rfl
@[simp] theorem behind_emitAi (q : Later) (b : AiBeat) (s : State) :
    emitAi b (q.behind s) = q.behind (emitAi b s) := rfl
@[simp] theorem behind_emitAp (q : Later) (b : ApBeat) (s : State) :
    emitAp b (q.behind s) = q.behind (emitAp b s) := rfl
@[simp] theorem behind_emitTx (q : Later) (b : TxBeat) (s : State) :
    emitTx b (q.behind s) = q.behind (emitTx b s) := rfl

variable {q : Later} {s : State}

theorem KeepsHeads.takeCmd (h : q.KeepsHeads s) : takeCmd (q.behind s) = q.behind (takeCmd s) := by
  simp [Machine.takeCmd, behind, tail_append_of_nil_imp h.cmd]

theorem KeepsHeads.takeHk (h : q.KeepsHeads s) : takeHk (q.behind s) = q.behind (takeHk s) := by
  simp [Machine.takeHk, behind, tail_append_of_nil_imp h.hk]

theorem KeepsHeads.takeRx (h : q.KeepsHeads s) : takeRx (q.behind s) = q.behind (takeRx s) := by
  simp [Machine.takeRx, behind, tail_append_of_nil_imp h.rx]

theorem KeepsHeads.takeTxp (h : q.KeepsHeads s) : takeTxp (q.behind s) = q.behind (takeTxp s) := by
  simp [Machine.takeTxp, behind, tail_append_of_nil_imp h.txp]

theorem behind_byte1Op (h : q.KeepsHeads s) (x : Byte) : byte1Op x (q.behind s) = q.behind (byte1Op x s) := by
  simp only [byte1Op, unmaskedOp, len64Op, len16Op, len7Op, h.takeRx, behind_params, behind_regs, behind_raise,
    behind_setRegs]
  split_ifs <;> rfl

theorem behind_encodeOp (n : BitVec 32) (s : State) : encodeOp n (q.behind s) = q.behind (encodeOp n s) := by
  unfold encodeOp; split <;> rfl

theorem behind_h1Op (s : State) : h1Op (q.behind s) = q.behind (h1Op s) := by
  unfold h1Op behind; split <;> rfl

/-! ### A guard reads heads alone -/

theorem KeepsHeads.cmd_head? (h : q.KeepsHeads s) : (q.behind s).io.cmd.head? = s.io.cmd.head? :=
  head?_append_of_nil_imp h.cmd

theorem KeepsHeads.hk_head? (h : q.KeepsHeads s) : (q.behind s).io.hk.head? = s.io.hk.head? :=
  head?_append_of_nil_imp h.hk

theorem KeepsHeads.rx_head? (h : q.KeepsHeads s) : (q.behind s).io.rx.head? = s.io.rx.head? :=
  head?_append_of_nil_imp h.rx

theorem KeepsHeads.txp_head? (h : q.KeepsHeads s) : (q.behind s).io.txp.head? = s.io.txp.head? :=
  head?_append_of_nil_imp h.txp

@[simp] theorem sinkAccepts_behind (slot : Slot) : sinkAccepts slot (q.behind s).io = sinkAccepts slot s.io := by
  cases slot <;> rfl

theorem emitEnabled_behind (slot : Slot) : emitEnabled slot (q.behind s) = emitEnabled slot s := by
  simp [emitEnabled, due]

theorem cmdLegal_behind (i : Instr) : cmdLegal i (q.behind s) = cmdLegal i s := by
  cases i <;> rfl

theorem KeepsHeads.cmdOffers (h : q.KeepsHeads s) (i : Instr) : cmdOffers i (q.behind s).io = cmdOffers i s.io := by
  simp [Machine.cmdOffers, h.cmd_head?]

theorem KeepsHeads.hkOffers (h : q.KeepsHeads s) (x : Byte) : hkOffers x (q.behind s).io = hkOffers x s.io := by
  simp [Machine.hkOffers, h.hk_head?]

theorem KeepsHeads.rxEnabled (h : q.KeepsHeads s) (slot : Slot) (x : Byte) :
    rxEnabled slot x (q.behind s) = rxEnabled slot x s := by
  simp [Machine.rxEnabled, due, rxOffers, h.rx_head?]

theorem KeepsHeads.formEnabled (h : q.KeepsHeads s) (i : Instr) : formEnabled i (q.behind s) = formEnabled i s := by
  simp [Machine.formEnabled, due, h.rx_head?]

theorem KeepsHeads.txpEnabled (h : q.KeepsHeads s) (x : Byte) : txpEnabled x (q.behind s) = txpEnabled x s := by
  simp [Machine.txpEnabled, emitEnabled_behind, txpOffers, h.txp_head?]

/-! ### What a step runs, and what it does -/

theorem KeepsHeads.cmdDue (h : q.KeepsHeads s) : cmdDue (q.behind s) = cmdDue s := by
  unfold Machine.cmdDue
  cases hc : s.io.cmd with
  | nil => simp [behind, hc, h.cmd hc]
  | cons => simp only [cmdLegal_behind]; simp [behind, hc]

theorem KeepsHeads.operandOf (h : q.KeepsHeads s) (slot : Slot) :
    operandOf slot (q.behind s).io = operandOf slot s.io := by
  cases slot <;> simp [Machine.operandOf, h.hk_head?, h.rx_head?, h.txp_head?]

theorem KeepsHeads.dataDue (h : q.KeepsHeads s) : dataDue (q.behind s) = dataDue s := by
  simp only [Machine.dataDue, behind_regs, behind_params, h.operandOf, sinkAccepts_behind]

theorem KeepsHeads.contested (h : q.KeepsHeads s) : contested (q.behind s) = contested s := by
  simp only [Machine.contested, h.cmdDue, h.dataDue]
  rfl

theorem KeepsHeads.fetch (h : q.KeepsHeads s) : fetch (q.behind s) = fetch s := by
  unfold Machine.fetch
  rw [h.cmdDue, h.dataDue]
  rfl

theorem KeepsHeads.takeTurn_behind (h : q.KeepsHeads s) : takeTurn (q.behind s) = q.behind (takeTurn s) := by
  unfold Machine.takeTurn
  rw [h.contested]
  split
  · unfold behind; cases s.arbiter <;> rfl
  · rfl

theorem KeepsHeads.takeTurn (h : q.KeepsHeads s) : q.KeepsHeads (takeTurn s) := by
  obtain ⟨hcmd, hhk, hrx, htxp⟩ := h
  constructor <;> rwa [takeTurn_io]

/-- A guarded step whose guard reads heads alone. -/
theorem performIf_behind {c c' : Bool} {t t' u : State} (hc : c' = c) (ht : t' = q.behind t)
    (h : performIf c s t = .next u) : performIf c' (q.behind s) t' = .next (q.behind u) := by
  subst hc ht
  cases c' <;> cases h <;> rfl

/-- Beats behind the heads have no effect on an instruction that is no compound. -/
theorem KeepsHeads.exec {t : State} {i : Instr} (hq : q.KeepsHeads s) (hi : isCompound i = false)
    (h : exec i s = .next t) : exec i (q.behind s) = .next (q.behind t) := by
  cases i with
  | txfLen7 | txfLen16 | hsresp => cases hi
  | rxfUnmasked | rxfLen64 | rxfLen16 | rxfLen7 =>
    exact performIf_behind (hq.formEnabled _) (by simp [unmaskedOp, len64Op, len16Op, len7Op, hq.takeRx]) h
  | cmdReserved0 => exact performIf_behind (c := false) rfl hq.takeCmd h
  | upgrade => exact performIf_behind (by rw [hq.cmdOffers]; rfl) (by simp [hq.takeCmd]) h
  | encode => exact performIf_behind (by rw [hq.cmdOffers]; rfl) (by rw [hq.takeCmd, behind_encodeOp]) h
  | close => exact performIf_behind (hq.cmdOffers _) (by simp [hq.takeCmd]) h
  | hkByte => exact performIf_behind (by rw [hq.hkOffers]; rfl) (by simp [hq.takeHk]) h
  | rxB1 x => exact performIf_behind (hq.rxEnabled _ _) (behind_byte1Op hq x) h
  | rxB0 | rxX0 | rxX1 | rxK0 | rxK1 | rxK2 | rxK3 | rxPay =>
    exact performIf_behind (hq.rxEnabled _ _) (by simp [hq.takeRx]) h
  | respByte | txH0 | txH2 | txH3 => exact performIf_behind (emitEnabled_behind _) rfl h
  | txH1 => exact performIf_behind (emitEnabled_behind _) (behind_h1Op s) h
  | txpByte x => exact performIf_behind (hq.txpEnabled x) (by simp [txpOp, hq.takeTxp]) h
  | unmLoad | unmByte | reset => cases h; rfl

/-- Beats behind the heads have no effect on a step. -/
theorem KeepsHeads.step {t : State} (hq : q.KeepsHeads s) (h : step s = .next t) :
    step (q.behind s) = .next (q.behind t) := by
  cases hf : Machine.fetch s with
  | none =>
    rw [step_of_hold hf] at h
    cases h
    exact step_of_hold (hq.fetch.trans hf)
  | some i =>
    rw [step_of_fetch hf] at h
    rw [step_of_fetch (hq.fetch.trans hf), hq.takeTurn_behind]
    exact hq.takeTurn.exec (isCompound_of_fetch hf) h

end Later

/-- Settles O50, by the law of beats behind the heads, for each stream alone. -/
theorem noLookAhead : Obligations.NoLookAhead := by
  intro s t moreCmd moreHk moreRx moreTxp h
  refine ⟨fun hne => ?cmd, fun hne => ?hk, fun hne => ?rx, fun hne => ?txp⟩
  case cmd =>
    have hq : Later.KeepsHeads ⟨moreCmd, [], [], []⟩ s := by constructor <;> simp [hne]
    simpa [Later.behind] using hq.step h
  case hk =>
    have hq : Later.KeepsHeads ⟨[], moreHk, [], []⟩ s := by constructor <;> simp [hne]
    simpa [Later.behind] using hq.step h
  case rx =>
    have hq : Later.KeepsHeads ⟨[], [], moreRx, []⟩ s := by constructor <;> simp [hne]
    simpa [Later.behind] using hq.step h
  case txp =>
    have hq : Later.KeepsHeads ⟨[], [], [], moreTxp⟩ s := by constructor <;> simp [hne]
    simpa [Later.behind] using hq.step h

end Sys2Proof.Machine
end

