-- ==== Sys2Proof/Proofs/StreamingSha.lean ====
section
/-! SUPPORT. The streaming form of SHA-1 computes the digest of the padded message (40 R128 to R130), and the token
register holds the whole base64 text of a digest (40 R127). -/

namespace Sys2Proof.Machine

/-! ### Blocks of a message -/

theorem foldBlocks_add (a b : Nat) (h : Hash) (m : List Byte) :
    foldBlocks (a + b) h m = foldBlocks b (foldBlocks a h m) (m.drop (64 * a)) := by
  induction a generalizing h m with
  | zero => simp [foldBlocks]
  | succ a ih => rw [Nat.succ_add, foldBlocks, foldBlocks, ih, List.drop_drop, Nat.mul_succ, Nat.add_comm 64]

/-- Whole blocks do not see what follows them. -/
theorem foldBlocks_append {n : Nat} {m : List Byte} (hn : 64 * n ≤ m.length) (h : Hash) (p : List Byte) :
    foldBlocks n h (m ++ p) = foldBlocks n h m := by
  induction n generalizing h m with
  | zero => rfl
  | succ n ih =>
    rw [foldBlocks, foldBlocks, List.take_append_of_le_length (by omega), List.drop_append_of_le_length (by omega),
      ih (by simp; omega)]

theorem foldBlocks_one {b : List Byte} (hb : b.length = 64) (h : Hash) : foldBlocks 1 h b = compress h b := by
  simp [foldBlocks, List.take_of_length_le hb.le]

theorem foldBlocks_two {a b : List Byte} (ha : a.length = 64) (hb : b.length = 64) (h : Hash) :
    foldBlocks 2 h (a ++ b) = compress (compress h a) b := by
  rw [foldBlocks_add 1 1, foldBlocks_append ha.ge, List.drop_left' ha, foldBlocks_one ha, foldBlocks_one hb]

/-! ### Absorbing -/

/-- The bytes of `m` behind its last whole block. -/
def partialBlock (m : List Byte) : List Byte := m.drop (64 * (m.length / 64))

@[simp] theorem length_partialBlock (m : List Byte) : (partialBlock m).length = m.length % 64 := by
  simp only [partialBlock, List.length_drop]; omega

theorem partialBlock_of_whole {m : List Byte} (h : m.length % 64 = 0) : partialBlock m = [] :=
  List.length_eq_zero_iff.mp (by rw [length_partialBlock, h])

/-- What the triple of R128 holds once `m` is absorbed: the whole blocks in the chaining value, the rest in the buffer,
the number of bytes (modulo `2^64`) in the count. -/
structure HasAbsorbed (m : List Byte) (st : ShaState) : Prop where
  chain : st.h = foldBlocks (m.length / 64) shaIV m
  rest : st.buf.toList.take (m.length % 64) = partialBlock m
  count : st.cnt = BitVec.ofNat 64 m.length

theorem HasAbsorbed.fill {m : List Byte} {st : ShaState} (h : HasAbsorbed m st) : st.fill = m.length % 64 := by
  rw [ShaState.fill, h.count, BitVec.toNat_ofNat]; omega

theorem ShaState.fill_lt (st : ShaState) : st.fill < 64 := Nat.mod_lt _ (by decide)

theorem ShaState.toList_put (st : ShaState) (x : Byte) : (st.put x).toList = st.buf.toList.set st.fill x :=
  Vector.toList_set st.fill_lt

/-- The buffer up to and with the byte just put. -/
theorem ShaState.take_put (st : ShaState) (x : Byte) :
    (st.put x).toList.take (st.fill + 1) = st.buf.toList.take st.fill ++ [x] := by
  rw [st.toList_put, List.take_set, List.set_eq_take_append_cons_drop, if_pos (by simpa using st.fill_lt)]
  simp [List.take_take]

theorem hasAbsorbed_absorb {m : List Byte} {st : ShaState} (h : HasAbsorbed m st) (x : Byte) :
    HasAbsorbed (m ++ [x]) (absorb st x) := by
  have hput : (st.put x).toList.take (m.length % 64 + 1) = partialBlock m ++ [x] := by
    rw [← h.fill, st.take_put, h.fill, h.rest]
  have hcount : st.cnt + 1 = BitVec.ofNat 64 (m ++ [x]).length := by
    simp [h.count, BitVec.ofNat_add]
  have hblocks : 64 * (m.length / 64) ≤ m.length := by omega
  have hdrop : (m ++ [x]).drop (64 * (m.length / 64)) = partialBlock m ++ [x] :=
    List.drop_append_of_le_length hblocks
  have hlen : (m ++ [x]).length = m.length + 1 := List.length_append
  unfold absorb
  rw [h.fill]
  split
  · rename_i hfull
    have hq : (m ++ [x]).length / 64 = m.length / 64 + 1 := by omega
    have hr : (m ++ [x]).length % 64 = 0 := by omega
    have hblock : (st.put x).toList = partialBlock m ++ [x] := by
      rw [← hput, hfull, List.take_of_length_le (by simp)]
    refine ⟨?_, ?_, hcount⟩
    · rw [hq, foldBlocks_add, foldBlocks_append hblocks, hdrop, h.chain, hblock]
      simp [foldBlocks, List.take_of_length_le, hfull]
    · rw [hr, List.take_zero, partialBlock_of_whole hr]
  · rename_i hroom
    have hq : (m ++ [x]).length / 64 = m.length / 64 := by omega
    have hr : (m ++ [x]).length % 64 = m.length % 64 + 1 := by omega
    refine ⟨?_, ?_, hcount⟩
    · rw [hq, foldBlocks_append hblocks, h.chain]
    · rw [hr, hput, ← hdrop, ← hq]; rfl

theorem hasAbsorbed_absorbAll (m : List Byte) : HasAbsorbed m (absorbAll shaInit m) := by
  induction m using List.reverseRecOn with
  | nil => exact ⟨rfl, rfl, rfl⟩
  | append_singleton m x ih =>
    rw [absorbAll, List.foldl_append]
    exact hasAbsorbed_absorb ih x

/-! ### Finishing -/

@[simp] theorem length_bytes64 (n : BitVec 64) : (bytes64 n).length = 8 := rfl

/-- The digest of `m`: past the whole blocks of `m` itself, the blocks its last bytes and the padding make. -/
theorem sha1_eq_lastBlocks (m : List Byte) {n : Nat} (hn : (pad m).length / 64 = m.length / 64 + n) :
    sha1 m = hashBytes (foldBlocks n (foldBlocks (m.length / 64) shaIV m)
      (partialBlock m ++ ([0x80#8] ++ List.replicate (padZeros m.length) 0#8 ++
        bytes64 (BitVec.ofNat 64 (8 * m.length))))) := by
  have hblocks : 64 * (m.length / 64) ≤ m.length := by omega
  rw [sha1, hn, foldBlocks_add]
  simp only [pad, List.append_assoc]
  rw [foldBlocks_append hblocks, List.drop_append_of_le_length hblocks]
  rfl

/-- 40 R130, for a message of any length: both count it modulo `2^64`. -/
theorem finish_of_hasAbsorbed {m : List Byte} {st : ShaState} (h : HasAbsorbed m st) : finish st = sha1 m := by
  have hlen : (8 : BitVec 64) * st.cnt = BitVec.ofNat 64 (8 * m.length) := by
    rw [h.count, BitVec.ofNat_mul]; rfl
  unfold finish finishHash
  simp only [h.fill, h.rest, h.chain, hlen]
  split
  · rename_i hr
    have hz : padZeros m.length = 63 - m.length % 64 + 56 := by unfold padZeros; omega
    rw [sha1_eq_lastBlocks m (n := 2) (by simp [pad, hz]; omega), hz, List.replicate_add,
      ← foldBlocks_two (by simp; omega) (by simp)]
    simp only [List.append_assoc]
  · rename_i hr
    have hz : padZeros m.length = 55 - m.length % 64 := by unfold padZeros; omega
    have hb : 63 - m.length % 64 = (55 - m.length % 64) + 8 := by omega
    rw [sha1_eq_lastBlocks m (n := 1) (by simp [pad, hz]; omega), hz, hb, List.replicate_add, ← List.append_assoc,
      List.take_left' (by simp; omega), ← foldBlocks_one (by simp; omega)]
    simp only [List.append_assoc]

/-- The streaming form computes SHA-1 (40 R130). -/
theorem finish_absorbAll (m : List Byte) : finish (absorbAll shaInit m) = sha1 m :=
  finish_of_hasAbsorbed (hasAbsorbed_absorbAll m)

/-! ### The token -/

theorem length_hashBytes (h : Hash) : (hashBytes h).length = 20 := rfl

/-- base64 makes four characters of each group of three bytes, the last one filled up (40 R127). -/
theorem length_base64 (l : List Byte) : (base64 l).length = 4 * ((l.length + 2) / 3) := by
  induction l using base64.induct with
  | case1 a b c rest ih => simp [base64, a64Group, ih]; omega
  | case2 => simp [base64, a64Group]
  | case3 => simp [base64, a64Group]
  | case4 => rfl

theorem length_accept (key : List Byte) : (accept key).length = 28 := by
  rw [accept, length_base64, sha1, length_hashBytes]

/-- A token register that is loaded with 28 bytes holds them. -/
theorem toList_toToken {l : List Byte} (h : l.length = 28) : (toToken l).toList = l := by
  apply List.ext_getElem
  · simp [h]
  · intro i hi hl
    simp [toToken, hl]

/-- The token that is kept once the key and `GUID` are absorbed is `accept(key)` (40 R130, R132, R133). -/
theorem tokenOf_absorbAll_guid (key : List Byte) :
    (tokenOf (absorbAll (absorbAll shaInit key) guid)).toList = accept key := by
  have h : base64 (finish (absorbAll (absorbAll shaInit key) guid)) = accept key := by
    rw [absorbAll, absorbAll, ← List.foldl_append, ← absorbAll, finish_absorbAll, accept]
  rw [tokenOf, h, toList_toToken (length_accept key)]

end Sys2Proof.Machine
end

