-- ==== Sys2Proof/Proofs/UnitsInv.lean ====
section
/-! SUPPORT. The register invariant, unit by unit: which unit `conn_state` lets work, what holds of that unit's
registers while it works, and that the others are at rest. A step of one unit leaves the others' registers alone, so
this form is kept step by step; it is equivalent to `RegsInv` (10_state R36 with what makes it inductive). -/

namespace Sys2Proof.Machine

/-! ### A unit at rest, a unit at work -/

/-- `SGN` is idle and its registers are zero. -/
abbrev signerAtRest (r : Regs) : Prop := r.sgnPhase = .idle ∧ signerClear r

/-- `DEC` waits for a frame's first byte and its registers and those of `UNM` are zero. -/
abbrev decoderAtRest (r : Regs) : Prop := r.decPhase = .b0 ∧ decoderClear r

/-- `ENC` is idle and its registers are zero. -/
abbrev encoderAtRest (r : Regs) : Prop := r.encPhase = .idle ∧ encoderClear r

/-- `SGN` takes key bytes, with some to come, or emits the response, at an index it has. -/
structure SignerWorks (r : Regs) : Prop where
  busy : r.sgnPhase ≠ .idle
  counts : signerCounts r

/-- `DEC` has all of the payload to come before it, and counts it down in it. -/
structure DecoderWorks (r : Regs) : Prop where
  keyPhase : (r.decPhase = .k0 ∨ r.decPhase = .k1 ∨ r.decPhase = .k2 ∨ r.decPhase = .k3) → r.decRem = r.decLen
  counts : payloadCounts r

/-- `ENC` has all of a payload of at most 65536 bytes to come before it, and counts it down in it; the long header is
for 126 bytes or more. -/
structure EncoderWorks (r : Regs) : Prop where
  busy : r.encPhase ≠ .idle
  headerPhase : (r.encPhase = .h0 ∨ r.encPhase = .h1 ∨ r.encPhase = .h2 ∨ r.encPhase = .h3) →
    r.encRem.toNat = r.encN.toNat ∧ r.encN.toNat ≤ 65536
  counts : replyCounts r
  longHeader : longHeaderRange r

/-- A decoder at rest is in no phase of which `DecoderWorks` speaks. -/
theorem DecoderWorks.of_atRest {r : Regs} (h : decoderAtRest r) : DecoderWorks r := by
  constructor <;> simp [payloadCounts, h.1]

/-- At most the unit that `conn_state` enables is at work (44 R226). -/
inductive UnitsInv (r : Regs) : Prop where
  | resting (hc : r.connState = .awaitingUpgrade ∨ r.connState = .handshaken ∨ r.connState = .processing)
      (he : r.err = .none) (hs : signerAtRest r) (hd : decoderAtRest r) (hn : encoderAtRest r)
  | signing (hc : r.connState = .awaitingUpgrade)
      (he : r.err = .none) (hs : SignerWorks r) (hd : decoderAtRest r) (hn : encoderAtRest r)
  | reading (hc : r.connState = .readingFrame)
      (he : r.err = .none) (hs : signerAtRest r) (hd : DecoderWorks r) (hn : encoderAtRest r)
  | writing (hc : r.connState = .writingFrame)
      (he : r.err = .none) (hs : signerAtRest r) (hd : decoderAtRest r) (hn : EncoderWorks r)
  | ended (hc : r.connState = .terminated)
      (hs : signerAtRest r) (hd : decoderAtRest r) (hn : encoderAtRest r)

/-- In `TERMINATED`, units at rest are item 4 of R36. -/
theorem eq_terminated_of_atRest {r : Regs} (hc : r.connState = .terminated) (hs : signerAtRest r)
    (hd : decoderAtRest r) (hn : encoderAtRest r) : r = terminated r.err := by
  obtain ⟨hs1, hs2, hs3, hs4, hs5, hs6, hs7⟩ := hs
  obtain ⟨hd1, hd2, hd3, hd4, hd5, hd6⟩ := hd
  obtain ⟨hn1, hn2, hn3⟩ := hn
  cases r
  simp_all [Machine.terminated, Regs.reset]

theorem RegsInv.unitsInv {r : Regs} (h : RegsInv r) : UnitsInv r := by
  obtain ⟨⟨h1, h2, h3, h4, h5, h6, h7, h8, h9, h10⟩, ⟨b1, b2, b3, b4, b5, b6⟩⟩ := h
  have he : r.connState ≠ .terminated → r.err = .none := fun hc => by_contra fun h => hc (h5 h)
  have hs : r.connState ≠ .awaitingUpgrade → signerAtRest r := fun hc =>
    ⟨by_contra fun h => hc (h1 h), b5 hc⟩
  have hd : r.connState ≠ .readingFrame → decoderAtRest r := fun hc => ⟨by_contra fun h => hc (h2 h), b3 hc⟩
  have hn : r.connState ≠ .writingFrame → encoderAtRest r := fun hc => ⟨by_contra fun h => hc (h3.1 h), b4 hc⟩
  cases hc : r.connState <;> rw [hc] at he hs hd hn
  case awaitingUpgrade =>
    cases hp : r.sgnPhase
    case idle => exact .resting (.inl hc) (he nofun) ⟨hp, b6 hp⟩ (hd nofun) (hn nofun)
    all_goals exact .signing hc (he nofun) ⟨by simp [hp], h9⟩ (hd nofun) (hn nofun)
  case handshaken => exact .resting (.inr (.inl hc)) (he nofun) (hs nofun) (hd nofun) (hn nofun)
  case processing => exact .resting (.inr (.inr hc)) (he nofun) (hs nofun) (hd nofun) (hn nofun)
  case readingFrame => exact .reading hc (he nofun) (hs nofun) ⟨b1, h6⟩ (hn nofun)
  case writingFrame => exact .writing hc (he nofun) (hs nofun) (hd nofun) ⟨h3.2 hc, b2, h7, h8⟩
  case terminated => exact .ended hc (hs nofun) (hd nofun) (hn nofun)

namespace UnitsInv

variable {r : Regs}

theorem err_none (h : UnitsInv r) (hc : r.connState ≠ .terminated) : r.err = .none := by
  cases h with
  | ended h => exact absurd h hc
  | _ => assumption

theorem signer_atRest (h : UnitsInv r) (hc : r.connState ≠ .awaitingUpgrade) : signerAtRest r := by
  cases h with
  | signing h => exact absurd h hc
  | _ => assumption

theorem decoder_atRest (h : UnitsInv r) (hc : r.connState ≠ .readingFrame) : decoderAtRest r := by
  cases h with
  | reading h => exact absurd h hc
  | _ => assumption

theorem encoder_atRest (h : UnitsInv r) (hc : r.connState ≠ .writingFrame) : encoderAtRest r := by
  cases h with
  | writing h => exact absurd h hc
  | _ => assumption

theorem signer_works (h : UnitsInv r) (hp : r.sgnPhase ≠ .idle) : SignerWorks r := by
  cases h with
  | signing _ _ hs => exact hs
  | _ => exact absurd (And.left ‹signerAtRest r›) hp

theorem signer_clear (h : UnitsInv r) (hp : r.sgnPhase = .idle) : signerClear r := by
  cases h with
  | signing _ _ hs => exact absurd hp hs.busy
  | _ => exact And.right ‹signerAtRest r›

theorem decoder_works (h : UnitsInv r) : DecoderWorks r := by
  cases h with
  | reading _ _ _ hd => exact hd
  | _ => exact DecoderWorks.of_atRest ‹decoderAtRest r›

theorem encoder_works (h : UnitsInv r) (hp : r.encPhase ≠ .idle) : r.connState = .writingFrame ∧ EncoderWorks r := by
  cases h with
  | writing hc _ _ _ hn => exact ⟨hc, hn⟩
  | _ => exact absurd (And.left ‹encoderAtRest r›) hp

theorem r36 (h : UnitsInv r) : R36 r where
  item1 hp := by_contra fun hc => hp (h.signer_atRest hc).1
  item2 hp := by_contra fun hc => hp (h.decoder_atRest hc).1
  item3 := by
    constructor
    · exact fun hp => (h.encoder_works hp).1
    · intro hc
      cases h with
      | writing _ _ _ _ hn => exact hn.busy
      | resting h => rcases h with h | h | h <;> rw [hc] at h <;> cases h
      | signing h | reading h | ended h => rw [hc] at h; cases h
  item4 hc :=
    eq_terminated_of_atRest hc (h.signer_atRest (by simp [hc])) (h.decoder_atRest (by simp [hc]))
      (h.encoder_atRest (by simp [hc]))
  item5 he := by_contra fun hc => he (h.err_none hc)
  item6 := h.decoder_works.counts
  item7 hp := (h.encoder_works (by simp [hp])).2.counts hp
  item8 hp := (h.encoder_works (by rcases hp with hp | hp <;> simp [hp])).2.longHeader hp
  item9 := by
    constructor <;> intro hp
    · exact (h.signer_works (by simp [hp])).counts.1 hp
    · exact (h.signer_works (by simp [hp])).counts.2 hp
  item10 hc hp := by
    obtain ⟨-, -, -, -, htoken, -⟩ := h.signer_clear hp
    refine ⟨(h.decoder_atRest ?_).2, (h.encoder_atRest ?_).2, htoken⟩ <;>
      rcases hc with hc | hc | hc <;> simp [hc]

theorem between (h : UnitsInv r) : Between r where
  keyPhase := h.decoder_works.keyPhase
  headerPhase hp := (h.encoder_works (by rcases hp with hp | hp | hp | hp <;> simp [hp])).2.headerPhase hp
  decoderIdle hc := (h.decoder_atRest hc).2
  encoderIdle hc := (h.encoder_atRest hc).2
  signerDone hc := (h.signer_atRest hc).2
  signerIdle hp := h.signer_clear hp

end UnitsInv

/-- The two forms of the register invariant. -/
theorem regsInv_iff_unitsInv {r : Regs} : RegsInv r ↔ UnitsInv r :=
  ⟨RegsInv.unitsInv, fun h => ⟨h.r36, h.between⟩⟩

/-! ### Every step keeps it -/

@[simp] theorem signKey_sgnPhase (st : ShaState) (r : Regs) : (signKey st r).sgnPhase = .resp := by
  simp only [signKey]

@[simp] theorem signKey_sgnRidx (st : ShaState) (r : Regs) : (signKey st r).sgnRidx = 0 := by
  simp only [signKey]

theorem SignerWorks.signKey (st : ShaState) (r : Regs) : SignerWorks (signKey st r) := by
  constructor <;> simp [signerCounts]

namespace UnitsInv

variable {r : Regs}

theorem reset : UnitsInv Regs.reset :=
  .resting (.inl rfl) rfl ⟨rfl, rfl, rfl, rfl, rfl, rfl, rfl⟩ ⟨rfl, rfl, rfl, rfl, rfl, rfl⟩ ⟨rfl, rfl, rfl⟩

theorem terminated (e : Err) : UnitsInv (terminated e) :=
  .ended rfl ⟨rfl, rfl, rfl, rfl, rfl, rfl, rfl⟩ ⟨rfl, rfl, rfl, rfl, rfl, rfl⟩ ⟨rfl, rfl, rfl⟩

/-- `CLOSE` from every state (44 R224). -/
theorem closeRegs (h : UnitsInv r) : UnitsInv (closeRegs r) := by
  by_cases hc : r.connState = .terminated
  · rwa [closeRegs_of_terminated hc]
  · rw [closeRegs_of_live hc]; exact terminated _

/-! #### `SGN` -/

theorem upgradeRegs (h : UnitsInv r) (hc : r.connState = .awaitingUpgrade) (klen : BitVec 32) :
    UnitsInv (upgradeRegs klen r) := by
  refine .signing (by simp [hc]) (by simp [h.err_none, hc]) ?_
    (by simpa [decoderAtRest, decoderClear] using h.decoder_atRest (by simp [hc]))
    (by simpa [encoderAtRest, encoderClear] using h.encoder_atRest (by simp [hc]))
  unfold Machine.upgradeRegs
  split
  · exact .signKey _ _
  · rename_i hk
    refine ⟨by simp, fun _ => ?_, by simp⟩
    dsimp only
    bv_omega

theorem hkRegs (h : UnitsInv r) (hc : r.connState = .awaitingUpgrade) (hp : r.sgnPhase = .key) (x : Byte) :
    UnitsInv (hkRegs x r) := by
  refine .signing (by simp [hc]) (by simp [h.err_none, hc]) ?_
    (by simpa [decoderAtRest, decoderClear] using h.decoder_atRest (by simp [hc]))
    (by simpa [encoderAtRest, encoderClear] using h.encoder_atRest (by simp [hc]))
  have hk := (h.signer_works (by simp [hp])).counts.1 hp
  unfold Machine.hkRegs
  dsimp only
  split
  · exact .signKey _ _
  · rename_i hlast
    refine ⟨by simp [hp], fun _ => ?_, by simp [hp]⟩
    dsimp only
    bv_omega

theorem respRegs (h : UnitsInv r) (hc : r.connState = .awaitingUpgrade) (hp : r.sgnPhase = .resp) :
    UnitsInv (respRegs r) := by
  have he := h.err_none (by simp [hc])
  have hd := h.decoder_atRest (by simp [hc])
  have hn := h.encoder_atRest (by simp [hc])
  have hi := (h.signer_works (by simp [hp])).counts.2 hp
  unfold Machine.respRegs
  split
  · exact .resting (.inr (.inl rfl)) he ⟨rfl, rfl, rfl, rfl, rfl, rfl, rfl⟩ hd hn
  · refine .signing hc he ⟨by simp [hp], by simp [hp], fun _ => ?_⟩ hd hn
    bv_omega

/-! #### `DEC` -/

/-- What the two other units hold while a frame is read. -/
theorem others_of_reading (h : UnitsInv r) (hc : r.connState = .readingFrame) :
    r.err = .none ∧ signerAtRest r ∧ encoderAtRest r :=
  ⟨h.err_none (by simp [hc]), h.signer_atRest (by simp [hc]), h.encoder_atRest (by simp [hc])⟩

theorem k3Regs (h : UnitsInv r) (hc : r.connState = .readingFrame) (hp : r.decPhase = .k3) (x : Byte) :
    UnitsInv (k3Regs x r) := by
  obtain ⟨he, hs, hn⟩ := h.others_of_reading hc
  have hlen : r.decRem = r.decLen := h.decoder_works.keyPhase (by simp [hp])
  unfold Machine.k3Regs
  split
  · exact .resting (.inr (.inr rfl)) he hs ⟨rfl, rfl, rfl, rfl, rfl, rfl⟩ hn
  · rename_i hne
    refine .reading hc he hs ⟨by simp [unmLoad], fun _ => ⟨?_, ?_, ?_, rfl⟩⟩ hn
    · dsimp only [unmLoad]; bv_omega
    · dsimp only [unmLoad]; bv_omega
    · dsimp only [unmLoad]; simp [hlen]

theorem payRegs (h : UnitsInv r) (hc : r.connState = .readingFrame) (hp : r.decPhase = .pay) :
    UnitsInv (payRegs r) := by
  obtain ⟨he, hs, hn⟩ := h.others_of_reading hc
  obtain ⟨h1, hle, hidx, hkey⟩ := h.decoder_works.counts hp
  unfold Machine.payRegs
  split
  · exact .resting (.inr (.inr rfl)) he hs ⟨rfl, rfl, rfl, rfl, rfl, rfl⟩ hn
  · rename_i hlast
    have hrem : (r.decRem - 1).toNat = r.decRem.toNat - 1 := by bv_omega
    have h2 : 2 ≤ r.decRem.toNat := by bv_omega
    refine .reading hc he hs ⟨by simp [unmAdvance, hp], fun _ => ?_⟩ hn
    refine ⟨?_, ?_, ?_, hkey⟩
    · dsimp only [unmAdvance]; omega
    · dsimp only [unmAdvance]; omega
    · dsimp only [unmAdvance]; rw [hrem, BitVec.toNat_add, hidx]; change (_ + 1) % 4 = _; omega

/-! #### `ENC` -/

/-- What the two other units hold while a frame is written. -/
theorem others_of_writing (h : UnitsInv r) (hc : r.connState = .writingFrame) :
    r.err = .none ∧ signerAtRest r ∧ decoderAtRest r :=
  ⟨h.err_none (by simp [hc]), h.signer_atRest (by simp [hc]), h.decoder_atRest (by simp [hc])⟩

theorem encFrameEnd (h : UnitsInv r) (hc : r.connState = .writingFrame) : UnitsInv (encFrameEnd r) := by
  obtain ⟨he, hs, hd⟩ := h.others_of_writing hc
  exact .reading rfl he hs (.of_atRest hd) ⟨rfl, rfl, rfl⟩

theorem encodeOp {s : State} (h : UnitsInv s.regs) (hc : s.regs.connState = .processing) (n : BitVec 32) :
    UnitsInv (encodeOp n s).regs := by
  unfold Machine.encodeOp
  split
  · exact terminated _
  · refine .writing rfl (h.err_none (by simp [hc])) (h.signer_atRest (by simp [hc])) (h.decoder_atRest (by simp [hc]))
      ⟨by simp, fun _ => ?_, by simp [replyCounts], by simp [longHeaderRange]⟩
    dsimp only [setRegs_regs]
    rw [BitVec.toNat_setWidth]
    omega

theorem h1Op {s : State} (h : UnitsInv s.regs) (hc : s.regs.connState = .writingFrame)
    (hp : s.regs.encPhase = .h1) : UnitsInv (h1Op s).regs := by
  obtain ⟨he, hs, hd⟩ := h.others_of_writing hc
  obtain ⟨hrem, hmax⟩ := (h.encoder_works (by simp [hp])).2.headerPhase (by simp [hp])
  unfold Machine.h1Op
  split
  · rw [setRegs_regs]
    split
    · exact h.encFrameEnd hc
    · rename_i hn
      refine .writing hc he hs hd ⟨by simp, by simp, fun _ => ⟨?_, hrem.le, hmax⟩, by simp [longHeaderRange]⟩
      dsimp only
      bv_omega
  · rename_i hn
    refine .writing hc he hs hd ⟨by simp, fun _ => ⟨hrem, hmax⟩, by simp [replyCounts], fun _ => ⟨?_, hmax⟩⟩
    dsimp only [setRegs_regs]
    omega

theorem txpRegs (h : UnitsInv r) (hc : r.connState = .writingFrame) (hp : r.encPhase = .pay) :
    UnitsInv (txpRegs r) := by
  obtain ⟨he, hs, hd⟩ := h.others_of_writing hc
  obtain ⟨h1, hle, hmax⟩ := (h.encoder_works (by simp [hp])).2.counts hp
  unfold Machine.txpRegs
  split
  · exact h.encFrameEnd hc
  · rename_i hlast
    have hrem : (r.encRem - 1).toNat = r.encRem.toNat - 1 := by bv_omega
    refine .writing hc he hs hd ⟨by simp [hp], by simp [hp], fun _ => ⟨?_, ?_, hmax⟩, by simp [longHeaderRange, hp]⟩
    · dsimp only; bv_omega
    · dsimp only; omega

end UnitsInv

/-- The forms of frame byte 1: the two that go on read on, the two that fault terminate (41 R162 to R165). -/
theorem FormStep.unitsInv {s u t : State} {x : Byte} {i : Instr} (hf : FormStep s u x i t) (h : UnitsInv u.regs)
    (hc : u.regs.connState = .readingFrame) : UnitsInv t.regs := by
  obtain ⟨he, hs, hn⟩ := h.others_of_reading hc
  cases hf with
  | unmasked | len64 => exact .terminated _
  | len16 => exact .reading hc he hs ⟨by simp [len16Op], by simp [len16Op, payloadCounts]⟩ hn
  | len7 => exact .reading hc he hs ⟨by simp [len7Op], by simp [len7Op, payloadCounts]⟩ hn

theorem DataStep.unitsInv {s u t : State} {i : Instr} (hd : DataStep s u i t) (h : UnitsInv s.regs)
    (hu : u.regs = s.regs) : UnitsInv t.regs := by
  cases hd with
  | hkByte x _ hc hp => exact h.hkRegs hc hp x
  | respByte hc hp => exact h.respRegs hc hp
  | rxB0 x _ hc =>
    obtain ⟨h1, h2, h3⟩ : s.regs.connState ≠ .terminated ∧ s.regs.connState ≠ .awaitingUpgrade ∧
        s.regs.connState ≠ .writingFrame := by rcases hc with hc | hc <;> simp [hc]
    exact .reading rfl (h.err_none h1) (h.signer_atRest h2) ⟨by simp, by simp [payloadCounts]⟩ (h.encoder_atRest h3)
  | form x _ _ _ hc _ _ hf => exact hf.unitsInv (hu ▸ h) (hu ▸ hc)
  | rxX0 x _ hc | rxX1 x _ hc =>
    obtain ⟨he, hs, hn⟩ := h.others_of_reading hc
    exact .reading hc he hs ⟨by simp, by simp [payloadCounts]⟩ hn
  | rxK0 x _ hc hp | rxK1 x _ hc hp | rxK2 x _ hc hp =>
    obtain ⟨he, hs, hn⟩ := h.others_of_reading hc
    have hlen := h.decoder_works.keyPhase (by simp [hp])
    exact .reading hc he hs ⟨fun _ => hlen, by simp [payloadCounts]⟩ hn
  | rxK3 x _ hc hp => exact h.k3Regs hc hp x
  | rxPay x _ hc hp => exact h.payRegs hc hp
  | txH0 hc hp =>
    obtain ⟨he, hs, hd⟩ := h.others_of_writing hc
    have hlen := (h.encoder_works (by simp [hp])).2.headerPhase (by simp [hp])
    exact .writing hc he hs hd ⟨by simp, fun _ => hlen, by simp [replyCounts], by simp [longHeaderRange]⟩
  | txH1 hc hp => exact UnitsInv.h1Op (hu ▸ h) (hu ▸ hc) (hu ▸ hp)
  | txH2 hc hp =>
    obtain ⟨he, hs, hd⟩ := h.others_of_writing hc
    have hw := (h.encoder_works (by simp [hp])).2
    exact .writing hc he hs hd ⟨by simp, fun _ => hw.headerPhase (by simp [hp]), by simp [replyCounts],
      fun _ => hw.longHeader (.inl hp)⟩
  | txH3 hc hp =>
    obtain ⟨he, hs, hd⟩ := h.others_of_writing hc
    have hw := (h.encoder_works (by simp [hp])).2
    obtain ⟨hrem, hmax⟩ := hw.headerPhase (by simp [hp])
    obtain ⟨hmin, -⟩ := hw.longHeader (.inr hp)
    refine .writing hc he hs hd ⟨by simp, by simp, fun _ => ⟨?_, hrem.le, hmax⟩, by simp [longHeaderRange]⟩
    dsimp only [setRegs_regs]
    omega
  | txpByte x _ hc hp => exact h.txpRegs hc hp

theorem step_keeps_unitsInv {s t : State} (h : UnitsInv s.regs) (hs : step s = .next t) : UnitsInv t.regs := by
  cases step_cases hs with
  | hold => exact h
  | reset => exact .reset
  | upgrade klen _ _ _ _ _ _ hc => exact h.upgradeRegs hc klen
  | encode n _ _ _ _ _ _ hc => exact UnitsInv.encodeOp (by simpa using h) (by simpa using hc) n
  | close => exact h.closeRegs
  | data _ _ _ _ _ hd => exact hd.unitsInv h (takeTurn_regs s)

/-- Every step keeps the register invariant. -/
theorem step_keeps_regsInv {s t : State} (h : RegsInv s.regs) (hs : step s = .next t) : RegsInv t.regs :=
  regsInv_iff_unitsInv.mpr (step_keeps_unitsInv h.unitsInv hs)

theorem regsInv_reset : RegsInv Regs.reset := regsInv_iff_unitsInv.mpr .reset

end Sys2Proof.Machine
end

