-- ==== Sys2Proof/Proofs/Reachable.lean ====
section
/-! SUPPORT. The signer's invariant (40 R134), step by step, and with the register invariant what holds of every state
that steps and moves of the host reach from reset (10_state R36). -/

namespace Sys2Proof.Machine

/-! ### The signer's invariant -/

/-- An idle signer has nothing to say of the key bytes. -/
theorem SignerInv.of_idle {k : List Byte} {r : Regs} (h : r.sgnPhase = .idle) : SignerInv k r := by
  constructor <;> simp [h]

/-- The invariant speaks of four registers of `SGN` and of the triple. -/
theorem SignerInv.congr {k : List Byte} {r r' : Regs} (h : SignerInv k r) (hp : r'.sgnPhase = r.sgnPhase)
    (hk : r'.sgnKrem = r.sgnKrem) (hs : shaOf r' = shaOf r) (ht : r'.sgnToken = r.sgnToken) : SignerInv k r' := by
  obtain ⟨h1, h2⟩ := h
  constructor
  · rwa [hp, hk, hs]
  · rwa [hp, ht]

@[simp] theorem signKey_sgnToken (st : ShaState) (r : Regs) :
    (signKey st r).sgnToken = tokenOf (absorbAll st guid) := by
  simp only [signKey]

/-- Signing the absorbed key makes the token `accept` of it. -/
theorem SignerInv.signKey {k : List Byte} (hk : k.length < 2 ^ 32) (r : Regs) :
    SignerInv k (signKey (absorbAll shaInit k) r) := by
  constructor
  · simp
  · intro _
    rw [signKey_sgnToken, tokenOf_absorbAll_guid]
    exact ⟨hk, rfl⟩

theorem SignerInv.upgradeRegs (klen : BitVec 32) (r : Regs) : SignerInv [] (upgradeRegs klen r) := by
  unfold Machine.upgradeRegs
  split
  · exact .signKey (k := []) (by simp) r
  · refine ⟨fun _ => ⟨?_, ?_, rfl⟩, by simp⟩ <;> dsimp only [List.length_nil] <;> bv_omega

theorem SignerInv.hkRegs {k : List Byte} {r : Regs} (h : SignerInv k r) (hp : r.sgnPhase = .key) (x : Byte) :
    SignerInv (k ++ [x]) (hkRegs x r) := by
  obtain ⟨hlen, hrem, hsha⟩ := h.keyBytes hp
  have hx : absorb (shaOf r) x = absorbAll shaInit (k ++ [x]) := by
    rw [hsha, absorbAll, absorbAll, List.foldl_append]; rfl
  unfold Machine.hkRegs
  dsimp only
  rw [hx]
  split
  · exact .signKey (by simp; omega) r
  · refine ⟨fun _ => ⟨?_, ?_, rfl⟩, by simp [hp]⟩
    · simp only [List.length_append, List.length_singleton]; bv_omega
    · dsimp only; bv_omega

theorem SignerInv.respRegs {k : List Byte} {r : Regs} (h : SignerInv k r) : SignerInv k (respRegs r) := by
  unfold Machine.respRegs
  split
  · exact .of_idle rfl
  · exact h.congr rfl rfl rfl rfl

theorem SignerInv.h1Op {k : List Byte} {s : State} (h : SignerInv k s.regs) : SignerInv k (h1Op s).regs := by
  unfold Machine.h1Op
  split
  · rw [setRegs_regs]; split <;> exact h.congr rfl rfl rfl rfl
  · exact h.congr rfl rfl rfl rfl

theorem SignerInv.encodeOp {k : List Byte} {s : State} (h : SignerInv k s.regs) (n : BitVec 32) :
    SignerInv k (encodeOp n s).regs := by
  unfold Machine.encodeOp
  split
  · exact .of_idle rfl
  · exact h.congr rfl rfl rfl rfl

theorem SignerInv.closeRegs {k : List Byte} {r : Regs} (h : SignerInv k r) : SignerInv k (closeRegs r) := by
  by_cases hc : r.connState = .terminated
  · rwa [closeRegs_of_terminated hc]
  · rw [closeRegs_of_live hc]; exact .of_idle rfl

/-- A data step keeps the signer's invariant: one of another unit leaves the signer's registers alone, or faults and
clears them. -/
theorem DataStep.signerInv {k : List Byte} {s u t : State} {i : Instr} (hd : DataStep s u i t)
    (h : SignerInv k s.regs) (hu : u.regs = s.regs) : SignerInv (keyAfter k (some i)) t.regs := by
  cases hd with
  | hkByte x _ _ hp => exact h.hkRegs hp x
  | respByte => exact h.respRegs
  | form _ _ _ _ _ _ _ hf =>
    have h' : SignerInv k u.regs := hu ▸ h
    cases hf with
    | unmasked | len64 => exact .of_idle rfl
    | len16 | len7 => exact h'.congr rfl rfl rfl rfl
  | rxK3 | rxPay | txpByte => exact h.congr (by simp) (by simp) (by simp [shaOf]) (by simp)
  | txH1 => exact SignerInv.h1Op (hu ▸ h)
  | _ => exact h.congr rfl rfl rfl rfl

/-- Every step keeps the signer's invariant (40 R134). -/
theorem step_keeps_signerInv {k : List Byte} {s t : State} (h : SignerInv k s.regs) (hs : step s = .next t) :
    SignerInv (keyAfter k (fetch s)) t.regs := by
  cases step_cases hs with
  | hold hf => rw [hf]; exact h
  | reset => exact .of_idle rfl
  | upgrade klen _ _ hf => rw [hf]; exact .upgradeRegs klen s.regs
  | encode n _ _ hf => rw [hf]; exact SignerInv.encodeOp (k := k) (by simpa using h) n
  | close _ _ _ hf => rw [hf]; exact h.closeRegs
  | data _ _ hf _ _ hd => rw [hf]; exact hd.signerInv h (takeTurn_regs s)

/-! ### Reachable states -/

/-- A move of the host keeps the registers, or resets them by releasing `rst` (44 R230, 70 R280). -/
theorem hostMove_regs_cases (m : HostMove) (s : State) :
    (hostMove m s).regs = s.regs ∨ (hostMove m s).regs = Regs.reset := by
  cases m with
  | setRst level =>
    cases level
    · rw [hostMove, driveRst_release_regs]
      split
      · exact .inr rfl
      · exact .inl rfl
    · exact .inl (driveRst_assert_regs s)
  | withdraw => cases hr : s.io.rst <;> simp [hostMove, hr]
  | _ => exact .inl rfl

/-- Both invariants hold in every reachable state. -/
theorem Reachable.invariants {k : List Byte} {s : State} (h : Reachable k s) :
    RegsInv s.regs ∧ SignerInv k s.regs := by
  induction h with
  | start p => exact ⟨regsInv_reset, .of_idle rfl⟩
  | step _ hs ih => exact ⟨step_keeps_regsInv ih.1 hs, step_keeps_signerInv ih.2 hs⟩
  | host m _ ih =>
    rcases hostMove_regs_cases m _ with hr | hr <;> rw [hr]
    · exact ih
    · exact ⟨regsInv_reset, .of_idle rfl⟩

/-- Settles O56: the register invariant contains the ten items, and the signer's invariant the token. -/
theorem reachableStatesMeetR36 : Obligations.ReachableStatesMeetR36 := by
  intro k s h
  obtain ⟨hregs, hsigner⟩ := h.invariants
  exact ⟨hregs.r36, fun hp => (hsigner.token hp).2⟩

end Sys2Proof.Machine
end

