-- ==== Sys2Proof/Proofs/Due.lean ====
section
/-! SUPPORT. When the block holds, which order a contested step takes, and that away from its own conditions an
instruction does nothing (20_memory R62, R63, R74). -/

namespace Sys2Proof.Machine

/-! ### Holds -/

/-- Settles O10: a state that waits, with no command to take, fetches nothing. -/
theorem absentDataHolds : Obligations.AbsentDataHolds :=
  fun _ hr hc hw => step_of_hold (fetch_of_waiting hr hc hw)

/-! ### A `CLOSE` against a data step -/

/-- A `CLOSE` at the head of `CMD` is due in every state (44 R224). -/
theorem cmdDue_close {s : State} {arg : BitVec 32} {rest : List (BitVec 34)}
    (ho : s.io.cmd = cmdBeat 3 arg :: rest) : cmdDue s = some (.close arg) := by
  have hd : decodeCmd (cmdBeat 3 arg) = .close arg := decodeCmd_close arg
  simpa [hd] using cmdDue_of_legal ho (by rw [hd]; rfl)

/-- The next entry of `arbiter` settles a contested step, and the step uses it up (20_memory R63; log 4). -/
theorem step_of_contested {s : State} {c d : Instr} {b : Bool} {later : List Bool} (hr : s.io.rst = false)
    (hc : cmdDue s = some c) (hd : dataDue s = some d) (ha : s.arbiter = b :: later) :
    step s = exec (if b then c else d) { s with arbiter := later } := by
  have hturn : takeTurn s = { s with arbiter := later } := by simp [takeTurn, contested, hr, hc, hd, ha]
  have hfetch : fetch s = some (if b then c else d) := by
    cases b <;> simp [fetch, hr, hc, hd, closeFirst, ha]
  rw [step_of_fetch hfetch, hturn]

/-- Settles O11: the `CLOSE` and the data step are due whatever stands in `arbiter`, whose head picks one of them. -/
theorem closeRacesData : Obligations.CloseRacesData := by
  intro s arg rest d later hr ho hd
  have order (b : Bool) := step_of_contested (s := { s with arbiter := b :: later }) hr (cmdDue_close ho) hd rfl
  exact ⟨order true, order false⟩

/-! ### An instruction that acts is due -/

/-- What it takes for `exec` of an instruction to change the state: nothing for the three that need no beat, else that
the instruction is due; for the dispatcher of frame byte 1 that its form is, and for a compound that its first byte
step is (log 12, log 13). -/
inductive MayAct (s : State) : Instr → Prop where
  | unmLoad (key : Key) : MayAct s (.unmLoad key)
  | unmByte (x : Byte) : MayAct s (.unmByte x)
  | reset : MayAct s .reset
  | command {i : Instr} (hd : cmdDue s = some i) : MayAct s i
  | data {i : Instr} (hd : dataDue s = some i) : MayAct s i
  | byte1 (x : Byte) (hd : dataDue s = some (selectForm s.params.unmaskedPolicy x)) : MayAct s (.rxB1 x)
  | shortFrame (n : BitVec 7) (hd : dataDue s = some .txH0) : MayAct s (.txfLen7 n)
  | longFrame (hh ll : Byte) (hd : dataDue s = some .txH0) : MayAct s (.txfLen16 hh ll)
  | response (token : Vector Byte 28) (hd : dataDue s = some .respByte) : MayAct s (.hsresp token)

/-- Each meaning is guarded by what makes its instruction due (20_memory R63, 44 R225; log 15). -/
theorem mayAct_of_exec {i : Instr} {s t : State} (h : exec i s = .next t) (hne : t ≠ s) : MayAct s i := by
  cases i with
  | unmLoad key => exact .unmLoad key
  | unmByte x => exact .unmByte x
  | reset => exact .reset
  | cmdReserved0 => cases h; exact absurd rfl hne
  | upgrade | encode =>
    have hg := performIf_acts h hne
    rw [Bool.and_eq_true] at hg
    exact .command (cmdDue_of_offers hg.2 hg.1)
  | close => exact .command (cmdDue_of_offers (performIf_acts h hne) rfl)
  | hkByte => exact .data (dataDue_of_hkEnabled (performIf_acts h hne))
  | respByte | txH0 | txH1 | txH2 | txH3 => exact .data (dataDue_of_emitEnabled (performIf_acts h hne) rfl rfl)
  | rxB0 | rxX0 | rxX1 | rxK0 | rxK1 | rxK2 | rxK3 | rxPay =>
    exact .data (dataDue_of_rxEnabled (performIf_acts h hne) rfl rfl)
  | rxB1 x => exact .byte1 x (dataDue_of_rxEnabled (performIf_acts h hne) rfl rfl)
  | rxfUnmasked | rxfLen64 | rxfLen16 | rxfLen7 => exact .data (dataDue_of_formEnabled (performIf_acts h hne))
  | txpByte => exact .data (dataDue_of_txpEnabled (performIf_acts h hne))
  | txfLen7 n =>
    have hg := performIf_acts h hne
    simp only [Bool.and_eq_true] at hg
    obtain ⟨⟨hh0, -⟩, -⟩ := hg
    exact .shortFrame n (dataDue_of_emitEnabled hh0 rfl rfl)
  | txfLen16 hh ll =>
    have hg := performIf_acts h hne
    simp only [Bool.and_eq_true] at hg
    obtain ⟨⟨⟨hh0, -⟩, -⟩, -⟩ := hg
    exact .longFrame hh ll (dataDue_of_emitEnabled hh0 rfl rfl)
  | hsresp token =>
    have hg := performIf_acts h hne
    simp only [Bool.and_eq_true] at hg
    obtain ⟨⟨hresp, -⟩, -⟩ := hg
    exact .response token (dataDue_of_emitEnabled hresp rfl rfl)

/-- Settles O12, by the guards of the meanings. -/
theorem onlyDueInstructionsAct : Obligations.OnlyDueInstructionsAct := by
  intro i s t h hne
  cases mayAct_of_exec h hne with
  | unmLoad | unmByte | reset => simp
  | command hd | data hd | byte1 _ hd | shortFrame _ hd | longFrame _ _ hd | response _ hd => simp [hd]

end Sys2Proof.Machine
end

