-- ==== Sys2Proof/Proofs/Channels.lean ====
section
/-! SUPPORT. What one step does to the seven channels, said once: the table of 20_memory R63, row by row. -/

namespace Sys2Proof.Machine

/-! ### Which commands are taken -/

/-- The command at the head of `CMD` that may be taken, by the number of its `op` (30_encoding R96, 20_memory R63). -/
abbrev takesCommand (r : Regs) (beat : BitVec 34) : Prop :=
  (beat.toNat / 2 ^ 32 = 1 ∧ r.connState = .awaitingUpgrade ∧ r.sgnPhase = .idle) ∨
  (beat.toNat / 2 ^ 32 = 2 ∧ r.connState = .processing) ∨ beat.toNat / 2 ^ 32 = 3

/-- A legal command is in place. -/
theorem takesCommand_of_cmdLegal {s : State} {beat : BitVec 34} (hl : cmdLegal (decodeCmd beat) s = true) :
    takesCommand s.regs beat := by
  have hplace : ¬outOfPlace s.regs beat := fun h => by simp [cmdLegal_of_outOfPlace h] at hl
  have hop : beat.toNat / 2 ^ 32 < 4 := by omega
  obtain ⟨h0, h1, h2⟩ : _ ∧ _ ∧ _ := by simpa only [outOfPlace, not_or, not_and_not_right] using hplace
  have : beat.toNat / 2 ^ 32 = 1 ∨ beat.toNat / 2 ^ 32 = 2 ∨ beat.toNat / 2 ^ 32 = 3 := by omega
  rcases this with h | h | h
  · exact .inl ⟨h, h1 h⟩
  · exact .inr (.inl ⟨h, h2 h⟩)
  · exact .inr (.inr h)

/-! ### What a step moves -/

/-- The beats one step moves, and the channels after it: none, one taken, one emitted, or one of each, in the states
R63 lists. -/
inductive ChannelMove (s : State) : Io → Prop where
  | none : ChannelMove s s.io
  | cmd {beat : BitVec 34} {rest : List (BitVec 34)} (ho : s.io.cmd = beat :: rest)
      (hl : takesCommand s.regs beat) : ChannelMove s { s.io with cmd := rest }
  | hk {x : Byte} {rest : List Byte} (hc : s.regs.connState = .awaitingUpgrade) (hp : s.regs.sgnPhase = .key)
      (ho : s.io.hk = x :: rest) : ChannelMove s { s.io with hk := rest }
  | rx {x : Byte} {rest : List Byte}
      (hc : (s.regs.connState = .handshaken ∧ s.regs.decPhase = .b0) ∨ s.regs.connState = .readingFrame)
      (ho : s.io.rx = x :: rest) : ChannelMove s { s.io with rx := rest }
  | rxAi {x : Byte} {rest : List Byte} (b : AiBeat) (hc : s.regs.connState = .readingFrame)
      (hp : s.regs.decPhase = .k3) (ho : s.io.rx = x :: rest) (hr : s.io.aiReady = true) :
      ChannelMove s { s.io with rx := rest, ai := s.io.ai ++ [b] }
  | rxAp {x : Byte} {rest : List Byte} (b : ApBeat) (hc : s.regs.connState = .readingFrame)
      (hp : s.regs.decPhase = .pay) (ho : s.io.rx = x :: rest) (hr : s.io.apReady = true) :
      ChannelMove s { s.io with rx := rest, ap := s.io.ap ++ [b] }
  | tx (b : TxBeat)
      (hc : (s.regs.connState = .awaitingUpgrade ∧ s.regs.sgnPhase = .resp) ∨
        (s.regs.connState = .writingFrame ∧ s.regs.encPhase ≠ .idle))
      (hr : s.io.txReady = true) : ChannelMove s { s.io with tx := s.io.tx ++ [b] }
  | txpTx {x : Byte} {rest : List Byte} (b : TxBeat) (hc : s.regs.connState = .writingFrame)
      (hp : s.regs.encPhase = .pay) (ho : s.io.txp = x :: rest) (hr : s.io.txReady = true) :
      ChannelMove s { s.io with txp := rest, tx := s.io.tx ++ [b] }

/-! #### The channels after an operation -/

@[simp] theorem encodeOp_io (n : BitVec 32) (s : State) : (encodeOp n s).io = s.io := by
  unfold encodeOp; split <;> rfl

@[simp] theorem encodeOp_params (n : BitVec 32) (s : State) : (encodeOp n s).params = s.params := by
  unfold encodeOp; split <;> rfl

/-- The second header byte is one beat on `TX` (43 R205). -/
theorem h1Op_io (s : State) : ∃ b, (h1Op s).io = (emitTx b s).io := by
  unfold h1Op; split <;> exact ⟨_, rfl⟩

@[simp] theorem h1Op_params (s : State) : (h1Op s).params = s.params := by
  unfold h1Op; split <;> rfl

/-- Every form of frame byte 1 takes that byte (41 R162 to R165). -/
theorem FormStep.io {s u t : State} {x : Byte} {i : Instr} (h : FormStep s u x i t) : t.io = (takeRx u).io := by
  cases h <;> rfl

theorem FormStep.params {s u t : State} {x : Byte} {i : Instr} (h : FormStep s u x i t) : t.params = u.params := by
  cases h <;> rfl

theorem DataStep.channelMove {s u t : State} {i : Instr} (h : DataStep s u i t) (hu : u.io = s.io) :
    ChannelMove s t.io := by
  cases h with
  | hkByte x rest hc hp ho => simpa [takeHk, hu, ho] using ChannelMove.hk hc hp ho
  | respByte hc hp hr => simpa [emitTx, hu] using ChannelMove.tx _ (.inl ⟨hc, hp⟩) hr
  | rxB0 x rest hc hp ho =>
    simpa [takeRx, hu, ho] using ChannelMove.rx (hc.imp_left fun hc => ⟨hc, hp⟩) ho
  | form x rest _ _ hc _ ho hf => simpa [hf.io, takeRx, hu, ho] using ChannelMove.rx (.inr hc) ho
  | rxX0 x rest hc _ ho | rxX1 x rest hc _ ho | rxK0 x rest hc _ ho | rxK1 x rest hc _ ho | rxK2 x rest hc _ ho =>
    simpa [takeRx, hu, ho] using ChannelMove.rx (.inr hc) ho
  | rxK3 x rest hc hp ho hr => simpa [takeRx, emitAi, hu, ho] using ChannelMove.rxAi _ hc hp ho hr
  | rxPay x rest hc hp ho hr => simpa [takeRx, emitAp, hu, ho] using ChannelMove.rxAp _ hc hp ho hr
  | txH0 hc hp hr | txH2 hc hp hr | txH3 hc hp hr =>
    simpa [emitTx, hu] using ChannelMove.tx _ (.inr ⟨hc, by simp [hp]⟩) hr
  | txH1 hc hp hr =>
    obtain ⟨b, hb⟩ := h1Op_io u
    simpa [hb, emitTx, hu] using ChannelMove.tx b (.inr ⟨hc, by simp [hp]⟩) hr
  | txpByte x rest hc hp ho hr => simpa [takeTxp, emitTx, hu, ho] using ChannelMove.txpTx _ hc hp ho hr

theorem DataStep.params {s u t : State} {i : Instr} (h : DataStep s u i t) : t.params = u.params := by
  cases h with
  | form _ _ _ _ _ _ _ hf => exact hf.params
  | txH1 => exact h1Op_params u
  | _ => rfl

/-- Every step moves beats as R63 allows. -/
theorem step_channelMove {s t : State} (h : step s = .next t) : ChannelMove s t.io := by
  cases step_cases h with
  | hold => exact .none
  | reset => simpa using ChannelMove.none (s := s)
  | upgrade klen beat rest _ _ ho hd hc hp =>
    have hl := takesCommand_of_cmdLegal (s := s) (beat := beat) (by simp [hd, cmdLegal, upgradeLegal, hc, hp])
    simpa [takeCmd, ho] using ChannelMove.cmd ho hl
  | encode n beat rest _ _ ho hd hc =>
    have hl := takesCommand_of_cmdLegal (s := s) (beat := beat) (by simp [hd, cmdLegal, encodeLegal, hc])
    simpa [takeCmd, ho] using ChannelMove.cmd ho hl
  | close arg beat rest _ _ ho hd =>
    have hl := takesCommand_of_cmdLegal (s := s) (beat := beat) (by simp [hd, cmdLegal])
    simpa [takeCmd, ho] using ChannelMove.cmd ho hl
  | data _ _ _ _ _ he => exact he.channelMove (takeTurn_io s)

/-- No step writes the build parameters (10_state R35). -/
theorem step_params {s t : State} (h : step s = .next t) : t.params = s.params := by
  cases step_cases h with
  | data _ _ _ _ _ he => simp [he.params]
  | _ => simp

/-- Settles O48: each move of R63's table takes heads and appends, at most one of each. -/
theorem streamsAreOrdered : Obligations.StreamsAreOrdered := by
  intro s t h
  rw [step_params h]
  have hm := step_channelMove h
  generalize t.io = io at hm ⊢
  cases hm with
  | none => simp
  | tx => simp +arith
  | cmd ho | hk _ _ ho | rx _ ho | rxAi _ _ _ ho | rxAp _ _ _ ho | txpTx _ _ _ ho => simp +arith [ho]

/-- Settles O49: the move that changes a channel is one of its rows in R63's table. -/
theorem channelsMoveOnlyWhenEnabled : Obligations.ChannelsMoveOnlyWhenEnabled := by
  intro s t h
  have hm := step_channelMove h
  generalize t.io = io at hm ⊢
  cases hm with
  | none => simp
  | cmd ho hl => simpa [ho, takesCommand] using hl
  | hk hc hp => simp [hc, hp]
  | rx hc => simpa using fun _ => hc
  | rxAi _ hc hp _ hr | rxAp _ hc hp _ hr | txpTx _ hc hp _ hr => simp [hc, hp, hr]
  | tx _ hc hr => simpa [hr] using hc

end Sys2Proof.Machine
end

