-- ==== Sys2Proof/Proofs/Response.lean ====
section
/-! SUPPORT. The whole response: 128 repetitions of `RESP.BYTE` write the literal of 30_encoding R97, as the compound
and as steps of the machine. -/

namespace Sys2Proof.Machine

/-! ### Repeating an operation -/

theorem repeatOp_succ (f : State → State) (k : Nat) (s : State) : repeatOp f (k + 1) s = f (repeatOp f k s) := by
  induction k generalizing s with
  | zero => rfl
  | succ k ih => exact ih (f s)

/-- Steps that each run the operation make a run of its repetitions. -/
theorem runs_repeatOp {f : State → State} {k : Nat} {s : State}
    (h : ∀ j < k, step (repeatOp f j s) = .next (f (repeatOp f j s))) : runs k s (repeatOp f k s) := by
  induction k generalizing s with
  | zero => rfl
  | succ k ih => exact ⟨f s, h 0 (Nat.succ_pos k), ih fun j hj => h (j + 1) (Nat.succ_lt_succ hj)⟩

/-! ### The bytes of the response -/

/-- `last` is on the final beat alone (20_memory R72). -/
theorem txRun_append_singleton (l : List Byte) (x : Byte) :
    txRun (l ++ [x]) = l.map (fun b => ⟨b, false⟩) ++ [⟨x, true⟩] := by
  induction l with
  | nil => rfl
  | cons y l ih => cases l <;> simp_all [txRun]

/-- The response literal has 128 bytes (30_encoding R97). -/
theorem length_respBytes (token : Vector Byte 28) : (respBytes token).length = 128 := by
  simp [respBytes, respHead, respTail]

/-- One more byte of the response is the byte `RESP.BYTE` emits at that index. -/
theorem take_succ_respBytes (token : Vector Byte 28) {k : Nat} (hk : k < 128) :
    (respBytes token).take (k + 1) = (respBytes token).take k ++ [respByteAt token (BitVec.ofNat 8 k)] := by
  have hlt : k < (respBytes token).length := by rwa [length_respBytes]
  have hbyte : respByteAt token (BitVec.ofNat 8 k) = (respBytes token)[k] := by
    simp [respByteAt, Nat.mod_eq_of_lt (show k < 256 by omega), hlt]
  rw [hbyte, List.take_concat_get' _ _ hlt]

/-- The run of the whole response: 127 beats without `last`, then one with it. -/
theorem txRun_respBytes (token : Vector Byte 28) :
    txRun (respBytes token) =
      ((respBytes token).take 127).map (fun b => ⟨b, false⟩) ++ [⟨respByteAt token 127, true⟩] := by
  have hsplit : respBytes token = (respBytes token).take 127 ++ [respByteAt token 127] :=
    (List.take_of_length_le (length_respBytes token).le).symm.trans (take_succ_respBytes token (by omega))
  exact (congrArg txRun hsplit).trans (txRun_append_singleton _ _)

/-! ### While the response is written -/

/-- The first `k` response bytes are written, none of them the last. -/
def responding (s : State) (k : Nat) : State :=
  { s with
    regs := { s.regs with sgnRidx := BitVec.ofNat 8 k }
    io := { s.io with tx := s.io.tx ++ ((respBytes s.regs.sgnToken).take k).map fun b => ⟨b, false⟩ } }

/-- The whole response is written, and the handshake has ended (40 R136). -/
def responded (s : State) : State :=
  { s with
    regs := handshakeEnd s.regs, io := { s.io with tx := s.io.tx ++ txRun (respBytes s.regs.sgnToken) } }

theorem responding_zero {s : State} (h : s.regs.sgnRidx = 0) : responding s 0 = s :=
  calc responding s 0 = { s with regs := { s.regs with sgnRidx := 0 } } := by simp [responding]
    _ = s := by rw [← h]

/-- A byte before the last moves the index on (40 R135). -/
theorem respOp_responding (s : State) {k : Nat} (hk : k < 127) : respOp (responding s k) = responding s (k + 1) := by
  have hne : BitVec.ofNat 8 k ≠ 127 := by bv_omega
  have hnext : BitVec.ofNat 8 k + 1 = BitVec.ofNat 8 (k + 1) := by bv_omega
  simp only [respOp, respRegs, responding, setRegs, emitTx, if_neg hne, hnext, beq_eq_false_iff_ne.mpr hne,
    take_succ_respBytes _ (show k < 128 by omega), List.map_append, List.map_singleton, List.append_assoc]

/-- The last byte ends the handshake (40 R135, R136). -/
theorem respOp_responding_last (s : State) : respOp (responding s 127) = responded s := by
  simp only [respOp, respRegs, responding, responded, setRegs, emitTx, handshakeEnd, txRun_respBytes,
    List.append_assoc]
  rfl

/-- After `k` repetitions, `k` at most 127, `k` bytes are written. -/
theorem repeatOp_respOp {s : State} (h : s.regs.sgnRidx = 0) {k : Nat} (hk : k ≤ 127) :
    repeatOp respOp k s = responding s k := by
  induction k with
  | zero => exact (responding_zero h).symm
  | succ k ih => rw [repeatOp_succ, ih (by omega), respOp_responding s (by omega)]

/-- 128 repetitions write the whole response (40 R131). -/
theorem repeatOp_respOp_all {s : State} (h : s.regs.sgnRidx = 0) : repeatOp respOp 128 s = responded s := by
  rw [repeatOp_succ, repeatOp_respOp h le_rfl, respOp_responding_last]

/-- In `S_RESP` a response byte is enabled when `TX` accepts (40 R135). -/
theorem emitEnabled_resp {s : State} (hc : s.regs.connState = .awaitingUpgrade) (hp : s.regs.sgnPhase = .resp)
    (hx : s.io.txReady = true) : emitEnabled .resp s = true :=
  emitEnabled_of (by simp [slotOf, hc, hp]) hx

/-- While the response is due and `TX` accepts, with no command to take, a step writes a byte of it. -/
theorem step_resp {s : State} (hc : s.regs.connState = .awaitingUpgrade) (hp : s.regs.sgnPhase = .resp)
    (hx : s.io.txReady = true) (hr : s.io.rst = false) (ho : s.io.cmd = []) : step s = .next (respOp s) := by
  have hen := emitEnabled_resp hc hp hx
  rw [step_of_data_alone hr (cmdDue_of_nil ho) (dataDue_of_emitEnabled hen rfl rfl)]
  simp [exec, execRespByte, hen]

/-- Settles O16: the compound is 128 repetitions of `RESP.BYTE`, and each of them is the machine's step. -/
theorem responseIsWrittenOnce : Obligations.ResponseIsWrittenOnce := by
  intro s hc hp h0 hx
  have hall := repeatOp_respOp_all h0
  refine ⟨?compound, fun hr ho => ?steps⟩
  case compound =>
    have hexec : exec (.hsresp s.regs.sgnToken) s = .next (repeatOp respOp 128 s) := by
      simp [exec, execHsresp, emitEnabled_resp hc hp hx, h0]
    exact hexec.trans (congrArg Host.Outcome.next hall)
  case steps =>
    have hrun : runs 128 s (repeatOp respOp 128 s) := runs_repeatOp fun j hj => by
      rw [repeatOp_respOp h0 (by omega)]
      exact step_resp hc hp hx hr ho
    rw [hall] at hrun
    exact hrun

end Sys2Proof.Machine
end

