-- ==== Sys2Proof/Proofs/CommandBeats.lean ====
section
/-! SUPPORT. The command beats: the row and the argument a beat selects (30_encoding R95, R96), and the reserved row,
which no state permits (44_connection_sequencer R225). -/

namespace Sys2Proof.Machine

/-! ### The fields of a beat -/

/-- The number of `op` selects the row; the row's argument is `arg` (30_encoding R95). -/
theorem decodeCmd_of_op {beat : BitVec 34} {op : Nat} (h : beat.toNat / 2 ^ 32 = op) :
    decodeCmd beat = decodeCmd (cmdBeat (BitVec.ofNat 2 op) (BitVec.ofNat 32 (beat.toNat % 2 ^ 32))) :=
  congrArg decodeCmd (cmdBeat_of_op h)

/-- Settles O4: a beat is composed of its two fields, and `decodeCmd` selects the row of a composed beat by `op`. -/
theorem commandFields : Obligations.CommandFields := by
  intro beat
  refine ⟨fun h => ?reserved, fun h => ?upgrade, fun h => ?encode, fun h => ?close⟩
  case reserved => exact (decodeCmd_of_op h).trans (decodeCmd_reserved _)
  case upgrade => exact (decodeCmd_of_op h).trans (decodeCmd_upgrade _)
  case encode => exact (decodeCmd_of_op h).trans (decodeCmd_encode _)
  case close => exact (decodeCmd_of_op h).trans (decodeCmd_close _)

/-! ### The reserved row -/

/-- No state permits the reserved command (44 R225). -/
theorem cmdLegal_cmdReserved0 (arg : BitVec 32) (s : State) : cmdLegal (.cmdReserved0 arg) s = false := rfl

/-- The reserved command would take its beat if the state permitted it and the host offered it. -/
theorem exec_cmdReserved0 (arg : BitVec 32) (s : State) :
    exec (.cmdReserved0 arg) s =
      performIf (cmdLegal (.cmdReserved0 arg) s && cmdOffers (.cmdReserved0 arg) s.io) s (takeCmd s) := rfl

/-- Settles O43: no state permits the reserved command, so its guard is closed and the beat stays offered; that the
step not taken answers the same state is the model's choice (log 15). -/
theorem reservedCommandIsNotTaken : Obligations.ReservedCommandIsNotTaken := by
  intro s arg
  rw [exec_cmdReserved0, cmdLegal_cmdReserved0, Bool.false_and, performIf_false]

end Sys2Proof.Machine
end

