-- ==== Sys2Proof/Proofs/Signer.lean ====
section
/-! SUPPORT. The signer's three instructions where they are enabled (40 R132, R133, R135): the state each answers, said
once, and the branches of the register updates. -/

namespace Sys2Proof.Machine

/-! ### What an enabled instruction of `SGN` answers -/

/-- `Take(CMD)` leaves the beats behind the head. -/
theorem takeCmd_of_offered {s : State} {beat : BitVec 34} {rest : List (BitVec 34)} (ho : s.io.cmd = beat :: rest) :
    takeCmd s = { s with io := { s.io with cmd := rest } } := by
  simp [takeCmd, ho]

/-- `Take(HK)` leaves the bytes behind the head. -/
theorem takeHk_of_offered {s : State} {x : Byte} {rest : List Byte} (ho : s.io.hk = x :: rest) :
    takeHk s = { s with io := { s.io with hk := rest } } := by
  simp [takeHk, ho]

/-- An `UPGRADE` at the head of `CMD` is taken in `AWAITING_UPGRADE` with the signer idle (40 R132). -/
theorem exec_upgrade {s : State} {klen : BitVec 32} {rest : List (BitVec 34)}
    (hc : s.regs.connState = .awaitingUpgrade) (hp : s.regs.sgnPhase = .idle)
    (ho : s.io.cmd = cmdBeat 1 klen :: rest) :
    exec (.upgrade klen) s = .next (setRegs (upgradeRegs klen s.regs) { s with io := { s.io with cmd := rest } }) := by
  have hlegal : upgradeLegal s = true := by simp [upgradeLegal, hc, hp]
  have hoffers : cmdOffers (.upgrade klen) s.io = true := by
    simp [cmdOffers, ho]
  simp only [exec, execUpgrade, hlegal, hoffers, Bool.and_self, performIf_true, takeCmd_of_offered ho]

/-- In `S_KEY` the next key byte is due. -/
theorem due_hk {s : State} (hc : s.regs.connState = .awaitingUpgrade) (hp : s.regs.sgnPhase = .key) :
    due .hk s = true := by
  simp [due, slotOf, hc, hp]

/-- A byte at the head of `HK` is taken in `S_KEY` (40 R133). -/
theorem exec_hkByte {s : State} {x : Byte} {rest : List Byte} (hc : s.regs.connState = .awaitingUpgrade)
    (hp : s.regs.sgnPhase = .key) (ho : s.io.hk = x :: rest) :
    exec (.hkByte x) s = .next (setRegs (hkRegs x s.regs) { s with io := { s.io with hk := rest } }) := by
  have hoffers : hkOffers x s.io = true := by simp [hkOffers, ho]
  simp only [exec, execHkByte, due_hk hc hp, hoffers, Bool.and_self, performIf_true, takeHk_of_offered ho]

/-- A response byte is emitted in `S_RESP` when `TX` accepts (40 R135). -/
theorem exec_respByte {s : State} (hc : s.regs.connState = .awaitingUpgrade) (hp : s.regs.sgnPhase = .resp)
    (hx : s.io.txReady = true) : exec .respByte s = .next (respOp s) := by
  simp only [exec, execRespByte, emitEnabled_resp hc hp hx, performIf_true]

/-! ### The branches of the register updates -/

/-- `UPGRADE` with a key to come (40 R132). -/
theorem upgradeRegs_of_ne {klen : BitVec 32} (h : klen ≠ 0) (r : Regs) :
    upgradeRegs klen r = { setSha shaInit r with sgnKrem := klen, sgnPhase := .key } :=
  if_neg h

/-- `UPGRADE` with the empty key (40 R132). -/
theorem upgradeRegs_zero (r : Regs) : upgradeRegs 0 r = signKey shaInit r := rfl

/-- A key byte with more to come (40 R133). -/
theorem hkRegs_of_ne {r : Regs} (h : r.sgnKrem ≠ 1) (x : Byte) :
    hkRegs x r = { setSha (absorb (shaOf r) x) r with sgnKrem := r.sgnKrem - 1 } :=
  if_neg h

/-- The last key byte (40 R133). -/
theorem hkRegs_last {r : Regs} (h : r.sgnKrem = 1) (x : Byte) : hkRegs x r = signKey (absorb (shaOf r) x) r :=
  if_pos h

/-- A response byte before the last (40 R135). -/
theorem respRegs_of_ne {r : Regs} (h : r.sgnRidx ≠ 127) : respRegs r = { r with sgnRidx := r.sgnRidx + 1 } :=
  if_neg h

/-- The last response byte (40 R135). -/
theorem respRegs_last {r : Regs} (h : r.sgnRidx = 127) : respRegs r = handshakeEnd r :=
  if_pos h

/-- Below 128 the response has a byte at the index (30_encoding R97). -/
theorem respByteAt_of_lt (token : Vector Byte 28) {i : BitVec 8} (h : i.toNat < 128) :
    respByteAt token i = (respBytes token).getD i.toNat 0 := by
  have hlt : i.toNat < (respBytes token).length := by rwa [length_respBytes]
  simp [respByteAt, List.getElem?_eq_getElem hlt]

/-- The response ends with LF (30_encoding R97). -/
theorem respByteAt_last (token : Vector Byte 28) : respByteAt token 127 = 0x0A := by
  rw [respByteAt_of_lt token (by decide), respBytes, List.getD_append_right _ _ _ _ (by simp [respHead])]
  simp [respHead, respTail]

/-- The empty key leaves a count of the 36 bytes of `GUID` (40 R132). -/
theorem absorbAll_guid_cnt : (absorbAll shaInit guid).cnt = 36 := by
  rw [(hasAbsorbed_absorbAll guid).count]; decide

/-- Signing an absorbed key, register by register (40 R132, R133). -/
theorem signKey_eq (st : ShaState) (r : Regs) : signKey st r =
    { r with
      sgnToken := toToken (base64 (finish (absorbAll st guid))), sgnH := finishHash (absorbAll st guid),
      sgnBuf := Vector.replicate 64 0, sgnCnt := (absorbAll st guid).cnt, sgnRidx := 0, sgnKrem := 0,
      sgnPhase := .resp } := by
  unfold signKey tokenOf
  generalize absorbAll st guid = st2
  rfl

/-! ### The three claims -/

/-- Settles O13: the two branches of `UPGRADE`. -/
theorem upgradeStartsSigner : Obligations.UpgradeStartsSigner := by
  intro s klen rest hc hp ho
  rw [exec_upgrade hc hp ho]
  refine ⟨fun hk => ?key, fun hk => ?empty⟩
  case key =>
    rw [upgradeRegs_of_ne hk]
    simp only [setRegs, setSha, shaInit, shaIV, zeroBuf]
  case empty =>
    rw [hk, upgradeRegs_zero, signKey_eq, absorbAll_guid_cnt, setRegs]

/-- Settles O14: the two branches of `HK.BYTE`. -/
theorem keyByteIsAbsorbed : Obligations.KeyByteIsAbsorbed := by
  intro s x rest hc hp ho
  rw [exec_hkByte hc hp ho]
  refine ⟨fun hk => ?more, fun hk => ?last⟩
  case more =>
    rw [hkRegs_of_ne hk]
    simp only [setRegs, setSha, shaOf]
  case last =>
    rw [hkRegs_last hk, signKey_eq, setRegs, shaOf]

/-- Settles O15: the two branches of `RESP.BYTE`, and the byte each emits. -/
theorem responseByteIsEmitted : Obligations.ResponseByteIsEmitted := by
  intro s hc hp hx
  rw [exec_respByte hc hp hx]
  refine ⟨fun hi => ?more, fun hi => ?last⟩
  case more =>
    have hne : s.regs.sgnRidx ≠ 127 := by bv_omega
    have hlt : s.regs.sgnRidx.toNat < 128 := by omega
    simp only [respOp, setRegs, emitTx, respRegs_of_ne hne, beq_eq_false_iff_ne.mpr hne, respByteAt_of_lt _ hlt]
  case last =>
    simp only [respOp, setRegs, emitTx, respRegs_last hi, handshakeEnd, hi, beq_self_eq_true, respByteAt_last,
      Hash.zero, zeroBuf]

end Sys2Proof.Machine
end

