-- ==== Sys2Proof/Proofs/TokenText.lean ====
section
/-! SUPPORT. The base64 text of a byte string, group by group (40 R127). -/

namespace Sys2Proof.Machine

/-! ### The sextets of a group -/

/-- The 24-bit number of a group, as arithmetic. -/
theorem toNat_group (a b c : Byte) : (a ++ b ++ c).toNat = a.toNat * 65536 + b.toNat * 256 + c.toNat := by
  have hb := b.isLt
  have hc := c.isLt
  rw [BitVec.toNat_append, BitVec.toNat_append, ← Nat.shiftLeft_add_eq_or_of_lt hb,
    ← Nat.shiftLeft_add_eq_or_of_lt hc, Nat.shiftLeft_eq, Nat.shiftLeft_eq]
  omega

/-- A six-bit field of a number is a quotient, taken modulo 64. -/
theorem extractLsb'_six (v : BitVec 24) (k : Nat) : v.extractLsb' k 6 = BitVec.ofNat 6 (v.toNat / 2 ^ k) := by
  apply BitVec.eq_of_toNat_eq
  rw [BitVec.extractLsb'_toNat, BitVec.toNat_ofNat, Nat.shiftRight_eq_div_pow]

/-- The four characters of three bytes, by the quotients of their 24-bit number. -/
theorem a64Group_eq (a b c : Byte) {v : Nat} (hv : a.toNat * 65536 + b.toNat * 256 + c.toNat = v) :
    a64Group a b c =
      [a64 (BitVec.ofNat 6 (v / 2 ^ 18)), a64 (BitVec.ofNat 6 (v / 2 ^ 12)), a64 (BitVec.ofNat 6 (v / 2 ^ 6)),
       a64 (BitVec.ofNat 6 v)] := by
  simp only [a64Group, extractLsb'_six, toNat_group, hv, pow_zero, Nat.div_one]

/-! ### The groups of a text -/

/-- Three bytes more make four characters more. -/
theorem base64_cons (a b c : Byte) (rest : List Byte) :
    base64 (a :: b :: c :: rest) = a64Group a b c ++ base64 rest := rfl

/-- Behind its first `g` whole groups, a text is the text of the remaining bytes. -/
theorem drop_base64 {g : Nat} {d : List Byte} (h : 3 * g ≤ d.length) :
    (base64 d).drop (4 * g) = base64 (d.drop (3 * g)) := by
  induction g generalizing d with
  | zero => rfl
  | succ g ih =>
    match d, h with
    | a :: b :: c :: rest, h =>
      have hrest : 3 * g ≤ rest.length := by simp only [List.length_cons] at h; omega
      rw [base64_cons, Nat.mul_succ, Nat.mul_succ, Nat.add_comm, ← List.drop_drop]
      exact ih hrest

/-- A character of a text, counted from the start of its group. -/
theorem getD_base64 {g : Nat} {d : List Byte} (h : 3 * g ≤ d.length) (j : Nat) :
    (base64 d).getD (4 * g + j) 0 = (base64 (d.drop (3 * g))).getD j 0 := by
  rw [← drop_base64 h]
  simp

/-- A suffix begins with the byte at its index. -/
theorem drop_eq_getD_cons {d : List Byte} {i : Nat} (h : i < d.length) :
    d.drop i = d.getD i 0 :: d.drop (i + 1) := by
  rw [List.drop_eq_getElem_cons h, List.getD_eq_getElem _ _ h]

/-- A suffix of at least three bytes begins a whole group. -/
theorem drop_eq_group {d : List Byte} {i : Nat} (h : i + 2 < d.length) :
    d.drop i = d.getD i 0 :: d.getD (i + 1) 0 :: d.getD (i + 2) 0 :: d.drop (i + 3) := by
  rw [drop_eq_getD_cons (by omega), drop_eq_getD_cons (i := i + 1) (by omega), drop_eq_getD_cons (i := i + 2) h]

/-- The last two bytes of a digest. -/
theorem drop_eighteen {d : List Byte} (h : d.length = 20) : d.drop 18 = [d.getD 18 0, d.getD 19 0] := by
  rw [drop_eq_getD_cons (by omega), drop_eq_getD_cons (by omega), List.drop_of_length_le (by omega)]

/-- The text of a final group of two bytes (40 R127). -/
theorem base64_two (a b : Byte) {v : Nat} (hv : a.toNat * 65536 + b.toNat * 256 = v) :
    base64 [a, b] =
      [a64 (BitVec.ofNat 6 (v / 2 ^ 18)), a64 (BitVec.ofNat 6 (v / 2 ^ 12)), a64 (BitVec.ofNat 6 (v / 2 ^ 6)),
       0x3D] := by
  rw [base64, a64Group_eq a b 0 (v := v) (by simpa using hv)]; rfl

/-- The text of a final group of one byte (40 R127). -/
theorem base64_one (a : Byte) {v : Nat} (hv : a.toNat * 65536 = v) :
    base64 [a] = [a64 (BitVec.ofNat 6 (v / 2 ^ 18)), a64 (BitVec.ofNat 6 (v / 2 ^ 12)), 0x3D, 0x3D] := by
  rw [base64, a64Group_eq a 0 0 (v := v) (by simpa using hv)]; rfl

/-- The third sextet of a final group of two bytes ends in two zero bits: it is a multiple of 4. -/
theorem thirdSextet_of_two (a b : Nat) :
    BitVec.ofNat 6 ((a * 65536 + b * 256) / 2 ^ 6) = BitVec.ofNat 6 (4 * (b % 16)) := by
  apply BitVec.eq_of_toNat_eq
  rw [BitVec.toNat_ofNat, BitVec.toNat_ofNat]
  omega

/-- Settles O17: the groups by their arithmetic, and for a digest six whole groups before one of two bytes. -/
theorem tokenText : Obligations.TokenText := by
  refine ⟨by decide, ?three, ?two, ?one, rfl, fun d hd => ⟨?length, ?groups, ?final⟩⟩
  case three =>
    intro a b c rest v
    rw [base64_cons, a64Group_eq a b c rfl]
  case two => exact fun a b => base64_two a b rfl
  case one => exact fun a => base64_one a rfl
  case length => rw [length_base64, hd]
  case groups =>
    intro g hg v
    have hchar (j : Nat) := getD_base64 (g := g) (d := d) (by omega) j
    rw [drop_eq_group (by omega), base64_cons, a64Group_eq _ _ _ (v := v) rfl] at hchar
    exact ⟨hchar 0, hchar 1, hchar 2, hchar 3⟩
  case final =>
    intro v
    have hchar (j : Nat) := getD_base64 (g := 6) (d := d) (by omega) j
    rw [drop_eighteen hd, base64_two _ _ (v := v) rfl] at hchar
    refine ⟨hchar 0, hchar 1, hchar 2, hchar 3, (d.getD 19 0).toNat % 16, by omega, ?_⟩
    rw [← thirdSextet_of_two]
    exact hchar 2

end Sys2Proof.Machine
end

