-- ==== Sys2Proof/Proofs/Handshake.lean ====
section
/-! SUPPORT. What the signer computes, and a whole handshake: from `UPGRADE` over the key bytes to the last byte of the
response (40 R120, R130, R134, R137). -/

namespace Sys2Proof.Machine

/-! ### What the signer computes -/

/-- Absorbing in two parts is absorbing the whole (40 R128). -/
theorem absorbAll_append (st : ShaState) (a b : List Byte) : absorbAll (absorbAll st a) b = absorbAll st (a ++ b) :=
  List.foldl_append.symm

/-- Settles O18: the streaming form computes SHA-1, and `accept` is base64 of it on the key and `GUID`. -/
theorem streamingShaIsSha1 : Obligations.StreamingShaIsSha1 := by
  refine ⟨fun m _ => finish_absorbAll m, fun key _ => ?_⟩
  rw [absorbAll_append, finish_absorbAll, accept]

/-- Settles O55: an instruction of `SGN` keeps the invariant by the recursion of `absorb_all`, and one of another unit
leaves the signer's registers alone or clears them. -/
theorem stepKeepsSignerInv : Obligations.StepKeepsSignerInv :=
  fun _ _ _ h hs => step_keeps_signerInv h hs

/-- The key `dGhlIHNhbXBsZSBub25jZQ==` of 95 T1. -/
def keyT1 : List Byte :=
  [0x64, 0x47, 0x68, 0x6C, 0x49, 0x48, 0x4E, 0x68, 0x62, 0x58, 0x42, 0x73, 0x5A, 0x53, 0x42, 0x75, 0x62, 0x32, 0x35,
   0x6A, 0x5A, 0x51, 0x3D, 0x3D]

/-- The digest of 95 T1. -/
theorem finishHash_keyT1 : finishHash (absorbAll shaInit (keyT1 ++ guid)) =
    ⟨0xB37A4F2C, 0xC0624F16, 0x90F64606, 0xCF385945, 0xB2BEC4EA⟩ := by
  decide +kernel

/-- Settles O19: the digest of 95 T1, then its base64 text. -/
theorem handshakeVector : Obligations.HandshakeVector := by
  change base64 (hashBytes (finishHash (absorbAll shaInit (keyT1 ++ guid)))) = _
  rw [finishHash_keyT1]
  decide

/-! ### A whole handshake -/

/-- Runs are put together. -/
theorem runs_trans {a b : Nat} {s u t : State} (h : runs a s u) (h' : runs b u t) : runs (a + b) s t := by
  induction a generalizing s with
  | zero => obtain rfl : s = u := h; rwa [Nat.zero_add]
  | succ a ih =>
    obtain ⟨v, hstep, hrun⟩ := h
    rw [Nat.succ_add]
    exact ⟨v, hstep, ih hrun⟩

/-- A run of one step. -/
theorem runs_one {s t : State} (h : step s = .next t) : runs 1 s t := ⟨t, h, rfl⟩

/-- Inside a handshake the key bytes `k` are taken and `toCome` are offered, with `rest` behind them on `HK`; nothing
stands on `CMD`, and `tx` is what has been emitted. When no key byte is to come, the response is about to start. -/
structure Signing (k toCome rest : List Byte) (tx : List TxBeat) (s : State) : Prop where
  awaiting : s.regs.connState = .awaitingUpgrade
  running : s.io.rst = false
  accepts : s.io.txReady = true
  noCommand : s.io.cmd = []
  offered : s.io.hk = toCome ++ rest
  emitted : s.io.tx = tx
  inv : SignerInv k s.regs
  takes : toCome ≠ [] → s.regs.sgnPhase = .key ∧ s.regs.sgnKrem.toNat = toCome.length
  responds : toCome = [] → s.regs.sgnPhase = .resp ∧ s.regs.sgnRidx = 0

/-- `UPGRADE |k|` begins the handshake for `k` (40 R132). -/
theorem step_upgrade_signing {s : State} {k rest : List Byte} (hk : k.length < 2 ^ 32)
    (hc : s.regs.connState = .awaitingUpgrade) (hp : s.regs.sgnPhase = .idle) (hr : s.io.rst = false)
    (hx : s.io.txReady = true) (ho : s.io.cmd = [cmdBeat 1 (BitVec.ofNat 32 k.length)]) (hh : s.io.hk = k ++ rest) :
    ∃ u, step s = .next u ∧ Signing [] k rest s.io.tx u := by
  have hklen : (BitVec.ofNat 32 k.length).toNat = k.length := by rw [BitVec.toNat_ofNat, Nat.mod_eq_of_lt hk]
  generalize BitVec.ofNat 32 k.length = klen at ho hklen
  have hdec : decodeCmd (cmdBeat 1 klen) = .upgrade klen := decodeCmd_upgrade klen
  have hdue : cmdDue s = some (.upgrade klen) := by
    rw [← hdec]
    exact cmdDue_of_legal ho (by simp [cmdLegal, upgradeLegal, hc, hp])
  have hdata : dataDue s = none := dataDue_of_waiting (.inl ⟨hc, hp⟩)
  refine ⟨_, (step_of_cmd_alone hr hdata hdue).trans (exec_upgrade hc hp ho), ?_⟩
  refine ⟨by simp [hc], hr, hx, rfl, hh, rfl, .upgradeRegs _ _, fun hne => ?_, fun he => ?_⟩
  · have hpos := List.length_pos_iff.mpr hne
    rw [setRegs_regs, upgradeRegs_of_ne (by bv_omega)]
    exact ⟨rfl, hklen⟩
  · have hzero : klen = 0 := by subst he; bv_omega
    rw [setRegs_regs, hzero, upgradeRegs_zero]
    exact ⟨signKey_sgnPhase _ _, signKey_sgnRidx _ _⟩

/-- A key byte goes over from those to come to those taken; with the last one the response is about to start
(40 R133). -/
theorem Signing.step_hkByte {k l rest : List Byte} {x : Byte} {tx : List TxBeat} {s : State}
    (h : Signing k (x :: l) rest tx s) : ∃ u, step s = .next u ∧ Signing (k ++ [x]) l rest tx u := by
  obtain ⟨hc, hr, hx, hcmd, hh, htx, hinv, htakes, -⟩ := h
  obtain ⟨hp, hrem⟩ := htakes nofun
  have ho : s.io.hk = x :: (l ++ rest) := hh
  have hdue : dataDue s = some (.hkByte x) := dataDue_of_hkEnabled (by simp [due_hk hc hp, hkOffers, ho])
  rw [List.length_cons] at hrem
  refine ⟨_, (step_of_data_alone hr (cmdDue_of_nil hcmd) hdue).trans (exec_hkByte hc hp ho), ?_⟩
  refine ⟨by simp [hc], hr, hx, hcmd, rfl, htx, hinv.hkRegs hp x, fun hne => ?_, fun he => ?_⟩
  · have hpos := List.length_pos_iff.mpr hne
    rw [setRegs_regs, hkRegs_of_ne (by bv_omega)]
    exact ⟨hp, by dsimp only; bv_omega⟩
  · have hlast : s.regs.sgnKrem = 1 := by subst he; bv_omega
    rw [setRegs_regs, hkRegs_last hlast]
    exact ⟨signKey_sgnPhase _ _, signKey_sgnRidx _ _⟩

/-- All the key bytes to come are taken, one step each. -/
theorem Signing.runs_key {k l rest : List Byte} {tx : List TxBeat} {s : State} (h : Signing k l rest tx s) :
    ∃ u, runs l.length s u ∧ Signing (k ++ l) [] rest tx u := by
  induction l generalizing k s with
  | nil => exact ⟨s, rfl, by rwa [List.append_nil]⟩
  | cons x l ih =>
    obtain ⟨v, hstep, hv⟩ := h.step_hkByte
    obtain ⟨u, hrun, hu⟩ := ih hv
    exact ⟨u, ⟨v, hstep, hrun⟩, by rwa [← List.append_cons] at hu⟩

/-- With the whole key taken, 128 steps write the response with `accept` of it and end the handshake (40 R131, R134). -/
theorem Signing.runs_response {k rest : List Byte} {tx : List TxBeat} {s : State} (h : Signing k [] rest tx s) :
    ∃ t, runs 128 s t ∧ t.regs.connState = .handshaken ∧ t.regs.sgnPhase = .idle ∧ t.io.hk = rest ∧
      t.io.cmd = [] ∧ t.io.tx = tx ++ txRun (respHead ++ accept k ++ respTail) := by
  obtain ⟨hc, hr, hx, hcmd, hh, htx, hinv, -, hresponds⟩ := h
  obtain ⟨hp, hidx⟩ := hresponds rfl
  have hbytes : respBytes s.regs.sgnToken = respHead ++ accept k ++ respTail := by
    rw [respBytes, (hinv.token hp).2]
  refine ⟨_, (responseIsWrittenOnce s hc hp hidx hx).2 hr hcmd, rfl, rfl, hh, hcmd, ?_⟩
  dsimp only
  rw [htx, hbytes]

/-- Settles O20: `UPGRADE`, the key bytes, the response. -/
theorem handshakeEmitsAccept : Obligations.HandshakeEmitsAccept := by
  intro s k rest hk hc hp hr hx ho hh
  obtain ⟨u, hupgrade, hu⟩ := step_upgrade_signing hk hc hp hr hx ho hh
  obtain ⟨v, hkey, hv⟩ := hu.runs_key
  obtain ⟨t, hresponse, hconn, hphase, hhk, hcmd, htx⟩ := hv.runs_response
  have hrun : runs (1 + k.length + 128) s t := runs_trans (runs_trans (runs_one hupgrade) hkey) hresponse
  exact ⟨t, hrun, hconn, hphase, hhk, hcmd, length_accept k, htx⟩

end Sys2Proof.Machine
end

