-- ==== Sys2Proof/Proofs/DecoderBytes.lean ====
section
/-! SUPPORT. The byte steps of the decoder where they are enabled (41 R161 to R174): one rule for the nine phases, the
four forms of frame byte 1 as their byte selects them, and the claims about each step. -/

namespace Sys2Proof.Machine

/-! ### The byte due in a phase -/

/-- `DEC` is due a byte in phase `p`: in `READING_FRAME`, or in `HANDSHAKEN` for a frame's first byte (20_memory
R63). -/
structure DecoderAt (r : Regs) (p : DecPhase) : Prop where
  conn : r.connState = .readingFrame ∨ (r.connState = .handshaken ∧ p = .b0)
  phase : r.decPhase = p

/-- The slot of the `STEP` table that a decoder phase makes due. -/
def decSlot : DecPhase → Slot
  | .b0 => .b0
  | .b1 => .b1
  | .x0 => .x0
  | .x1 => .x1
  | .k0 => .k0
  | .k1 => .k1
  | .k2 => .k2
  | .k3 => .k3
  | .pay => .pay

/-- The instruction that takes the byte due in a phase. -/
def byteInstr (p : DecPhase) (x : Byte) : Instr :=
  match p with
  | .b0 => .rxB0 x
  | .b1 => .rxB1 x
  | .x0 => .rxX0 x
  | .x1 => .rxX1 x
  | .k0 => .rxK0 x
  | .k1 => .rxK1 x
  | .k2 => .rxK2 x
  | .k3 => .rxK3 x
  | .pay => .rxPay x

/-- What taking the byte due in a phase makes of the state. -/
def byteOp (p : DecPhase) (x : Byte) (s : State) : State :=
  match p with
  | .b0 => setRegs { s.regs with decPhase := .b1, connState := .readingFrame } (takeRx s)
  | .b1 => byte1Op x s
  | .x0 => setRegs { s.regs with decLen := be16 x 0, decPhase := .x1 } (takeRx s)
  | .x1 =>
    setRegs
      { s.regs with
        decLen := be16 (hiByte s.regs.decLen) x, decRem := be16 (hiByte s.regs.decLen) x, decPhase := .k0 }
      (takeRx s)
  | .k0 => setRegs { s.regs with decKey := { s.regs.decKey with k0 := x }, decPhase := .k1 } (takeRx s)
  | .k1 => setRegs { s.regs with decKey := { s.regs.decKey with k1 := x }, decPhase := .k2 } (takeRx s)
  | .k2 => setRegs { s.regs with decKey := { s.regs.decKey with k2 := x }, decPhase := .k3 } (takeRx s)
  | .k3 => setRegs (k3Regs x s.regs) (emitAi ⟨s.regs.decLen, { s.regs.decKey with k3 := x }⟩ (takeRx s))
  | .pay => setRegs (payRegs s.regs) (emitAp ⟨x, unmClear x s.regs, s.regs.decRem == 1⟩ (takeRx s))

theorem exec_byteInstr (p : DecPhase) (x : Byte) (s : State) :
    exec (byteInstr p x) s = performIf (rxEnabled (decSlot p) x s) s (byteOp p x s) := by
  cases p <;> rfl

theorem DecoderAt.slotOf {r : Regs} {p : DecPhase} (h : DecoderAt r p) : slotOf r = some (decSlot p) := by
  obtain ⟨hc | ⟨hc, rfl⟩, hp⟩ := h
  · cases p <;> simp [Machine.slotOf, hc, hp, decSlot]
  · simp [Machine.slotOf, hc, hp, decSlot]

/-- The byte due, offered on `RX`, is taken when the sink of its phase accepts. -/
theorem exec_byte {p : DecPhase} {x : Byte} {rest : List Byte} {s t : State} (hd : DecoderAt s.regs p)
    (ho : s.io.rx = x :: rest) (hs : sinkAccepts (decSlot p) s.io = true) (ht : byteOp p x s = t) :
    exec (byteInstr p x) s = .next t := by
  rw [exec_byteInstr, rxEnabled_of hd.slotOf ho hs, performIf_true, ht]

/-- With no command to take, a step takes the byte due; at frame byte 1 the form it selects does what the dispatcher
does (log 12). -/
theorem step_byte {p : DecPhase} {x : Byte} {rest : List Byte} {s : State} (hr : s.io.rst = false)
    (hcmd : s.io.cmd = []) (hd : DecoderAt s.regs p) (ho : s.io.rx = x :: rest)
    (hs : sinkAccepts (decSlot p) s.io = true) : step s = .next (byteOp p x s) := by
  have hen : rxEnabled (decSlot p) x s = true := rxEnabled_of hd.slotOf ho hs
  have hrun {i : Instr} := step_of_data_alone (i := i) hr (cmdDue_of_nil hcmd)
  cases p
  case b1 =>
    have hc : s.regs.connState = .readingFrame := by simpa using hd.conn
    exact (hrun (dataDue_b1 hc hd.phase ho)).trans (exec_selectForm hc hd.phase ho)
  all_goals exact (hrun (dataDue_of_rxEnabled hen rfl rfl)).trans (exec_byte hd ho hs rfl)

/-- `Take(RX)` leaves the bytes behind the head. -/
theorem takeRx_of_offered {s : State} {x : Byte} {rest : List Byte} (ho : s.io.rx = x :: rest) :
    takeRx s = { s with io := { s.io with rx := rest } } := by
  simp [takeRx, ho]

/-! ### The branches of the register updates -/

/-- The key's last byte with no payload to come (41 R167, R169). -/
theorem k3Regs_of_zero {r : Regs} (h : r.decLen = 0) (x : Byte) : k3Regs x r = decFrameEnd r :=
  if_pos h

/-- The key's last byte with a payload to come (41 R167, 42 R191). -/
theorem k3Regs_of_ne {r : Regs} (h : r.decLen ≠ 0) (x : Byte) :
    k3Regs x r =
      unmLoad { r.decKey with k3 := x } { r with decKey := { r.decKey with k3 := x }, decPhase := .pay } :=
  if_neg h

/-- The last payload byte (41 R168, R169). -/
theorem payRegs_last {r : Regs} (h : r.decRem = 1) : payRegs r = decFrameEnd r :=
  if_pos h

/-- A payload byte with more to come (41 R168, 42 R192). -/
theorem payRegs_of_ne {r : Regs} (h : r.decRem ≠ 1) :
    payRegs r = { unmAdvance r with decRem := r.decRem - 1 } :=
  if_neg h

/-! ### Numbers of bytes -/

theorem be16_eq_ofNat (hi lo : Byte) : be16 hi lo = BitVec.ofNat 16 (hi.toNat * 256 + lo.toNat) := by
  apply BitVec.eq_of_toNat_eq
  have := hi.isLt
  have hlo := lo.isLt
  rw [be16, BitVec.toNat_append, ← Nat.shiftLeft_add_eq_or_of_lt hlo, Nat.shiftLeft_eq, BitVec.toNat_ofNat]
  omega

theorem hiByte_toNat (n : BitVec 16) : (hiByte n).toNat = n.toNat / 256 := by
  have := n.isLt
  simp only [hiByte, BitVec.extractLsb'_toNat, Nat.shiftRight_eq_div_pow]
  omega

theorem lenMarker_eq_ofNat (x : Byte) : lenMarker x = BitVec.ofNat 7 x.toNat := by
  apply BitVec.eq_of_toNat_eq
  simp [lenMarker, BitVec.extractLsb'_toNat]

/-- `L = byte1[6:0]` as a remainder (30_encoding R98). -/
theorem lenMarker_eq_of_mod {x : Byte} {n : Nat} (h : x.toNat % 128 = n) : lenMarker x = BitVec.ofNat 7 n := by
  rw [lenMarker_eq_ofNat, ← h]
  apply BitVec.eq_of_toNat_eq
  simp

/-- `M` is set from 128 on (30_encoding R98). -/
theorem maskBit_eq_decide (x : Byte) : maskBit x = decide (128 ≤ x.toNat) :=
  (BitVec.msb_eq_getLsbD_last x).symm.trans (BitVec.msb_eq_decide x)

/-! ### The forms of frame byte 1 -/

/-- Byte 1 selects form `i`, whose effect on `s` is `t`. -/
structure Selects (s : State) (x : Byte) (i : Instr) (t : State) : Prop where
  form : selectForm s.params.unmaskedPolicy x = i
  effect : byte1Op x s = t

/-- Byte 1 with the mask bit clear, where that is a fault (41 R165). -/
abbrev isUnmasked (pol : UnmaskedPolicy) (x : Byte) : Prop := pol = .fault ∧ maskBit x = false

section Selection

variable {s : State} {x : Byte}

theorem selects_unmasked (hm : isUnmasked s.params.unmaskedPolicy x) :
    Selects s x (.rxfUnmasked (lenMarker x)) (unmaskedOp s) :=
  ⟨if_pos hm, if_pos hm⟩

theorem selects_len64 (hm : ¬isUnmasked s.params.unmaskedPolicy x) (hl : lenMarker x = 127#7) :
    Selects s x .rxfLen64 (len64Op s) :=
  ⟨(if_neg hm).trans (if_pos hl), (if_neg hm).trans (if_pos hl)⟩

theorem selects_len16 (hm : ¬isUnmasked s.params.unmaskedPolicy x) (hl : lenMarker x = 126#7) :
    Selects s x .rxfLen16 (len16Op s) := by
  have hne : lenMarker x ≠ 127#7 := by simp [hl]
  exact ⟨(if_neg hm).trans ((if_neg hne).trans (if_pos hl)), (if_neg hm).trans ((if_neg hne).trans (if_pos hl))⟩

theorem selects_len7 (hm : ¬isUnmasked s.params.unmaskedPolicy x) (h127 : lenMarker x ≠ 127#7)
    (h126 : lenMarker x ≠ 126#7) : Selects s x (.rxfLen7 (lenMarker x)) (len7Op (lenMarker x) s) :=
  ⟨(if_neg hm).trans ((if_neg h127).trans (if_neg h126)), (if_neg hm).trans ((if_neg h127).trans (if_neg h126))⟩

/-- A marker up to 125 is a length (41 R162). -/
theorem selects_len7_of_le {l : BitVec 7} (hm : ¬isUnmasked s.params.unmaskedPolicy x)
    (hx : x.toNat % 128 = l.toNat) (hl : l.toNat ≤ 125) : Selects s x (.rxfLen7 l) (len7Op l s) := by
  obtain rfl : lenMarker x = l := by rw [lenMarker_eq_of_mod hx, BitVec.ofNat_toNat, BitVec.setWidth_eq]
  exact selects_len7 hm (by bv_omega) (by bv_omega)

/-- At `D_B1` the form selected and the dispatcher both have the form's effect (log 12). -/
theorem Selects.exec {i : Instr} {t t' : State} {rest : List Byte} (h : Selects s x i t)
    (hc : s.regs.connState = .readingFrame) (hp : s.regs.decPhase = .b1) (ho : s.io.rx = x :: rest) (ht : t = t') :
    exec i s = .next t' ∧ exec (.rxB1 x) s = .next t' := by
  obtain ⟨rfl, rfl⟩ := h
  exact ⟨ht ▸ exec_selectForm hc hp ho, exec_byte (p := .b1) ⟨.inl hc, hp⟩ ho rfl ht⟩

end Selection

/-- Under the default policy a set mask bit lets byte 1 go on to its marker. -/
theorem not_isUnmasked_of_le {pol : UnmaskedPolicy} {x : Byte} (hx : 128 ≤ x.toNat) : ¬isUnmasked pol x := by
  simp [isUnmasked, maskBit_eq_decide, hx]

/-- Under the policy `ignore` byte 1 always goes on to its marker (92 D7; log 6). -/
theorem not_isUnmasked_of_ignore {pol : UnmaskedPolicy} (h : pol = .ignore) (x : Byte) : ¬isUnmasked pol x := by
  simp [isUnmasked, h]

/-- `RXF.UNMASKED` is selected only where the mask bit counts and is clear. -/
theorem selectForm_ne_unmasked {pol : UnmaskedPolicy} {x : Byte} (h : ¬isUnmasked pol x) (l : BitVec 7) :
    selectForm pol x ≠ .rxfUnmasked l := by
  unfold selectForm
  rw [if_neg h]
  split
  · nofun
  · split <;> nofun

/-! ### The claims about frame byte 1 -/

/-- The length registers hold the marker (41 R162). -/
theorem len7Op_of_offered {s : State} {x : Byte} {rest : List Byte} (l : BitVec 7) (ho : s.io.rx = x :: rest) :
    len7Op l s = { s with
      regs := { s.regs with
        decLen := BitVec.ofNat 16 l.toNat, decRem := BitVec.ofNat 16 l.toNat, decPhase := .k0 }
      io := { s.io with rx := rest } } := by
  simp only [len7Op, setRegs, takeRx_of_offered ho, BitVec.ofNat_toNat]

/-- The extended length is due (41 R163). -/
theorem len16Op_of_offered {s : State} {x : Byte} {rest : List Byte} (ho : s.io.rx = x :: rest) :
    len16Op s = { s with regs := { s.regs with decPhase := .x0 }, io := { s.io with rx := rest } } := by
  simp only [len16Op, setRegs, takeRx_of_offered ho]

/-- Fault entry after the byte is taken (60_exceptions R255). -/
theorem raise_takeRx_of_offered {s : State} {x : Byte} {rest : List Byte} (e : Err) (ho : s.io.rx = x :: rest) :
    raise e (takeRx s) = { s with
      regs := { State.reset.regs with connState := .terminated, err := e }, io := { s.io with rx := rest } } := by
  rw [takeRx_of_offered ho]; rfl

/-- Settles O22: a byte 1 with the mask bit set selects a length form by its marker. -/
theorem lengthForms : Obligations.LengthForms := by
  intro s x rest _ hc hp ho
  refine ⟨fun l hl hx => ?len7, fun hx => ?len16⟩
  case len7 =>
    have hsel : Selects s x (.rxfLen7 l) (len7Op l s) :=
      selects_len7_of_le (not_isUnmasked_of_le (by omega)) (by omega) hl
    exact hsel.exec hc hp ho (len7Op_of_offered l ho)
  case len16 =>
    have hsel : Selects s x .rxfLen16 (len16Op s) := by
      subst hx
      exact selects_len16 (not_isUnmasked_of_le (by decide)) (by decide)
    exact hsel.exec hc hp ho (len16Op_of_offered ho)

/-- Settles O23: marker 127 under a set mask bit, and any byte with the mask bit clear, enter the fault. -/
theorem faultForms : Obligations.FaultForms := by
  intro s x rest hpol hc hp ho
  refine ⟨fun hx => ?len64, fun l hx => ?unmasked⟩
  case len64 =>
    have hsel : Selects s x .rxfLen64 (len64Op s) := by
      subst hx
      exact selects_len64 (not_isUnmasked_of_le (by decide)) (by decide)
    obtain ⟨hform, hbyte⟩ := hsel.exec hc hp ho (raise_takeRx_of_offered _ ho)
    exact ⟨hform, hbyte, rfl, rfl, rfl⟩
  case unmasked =>
    have hlt : x.toNat < 128 := hx ▸ l.isLt
    have hmarker : lenMarker x = l := by
      rw [lenMarker_eq_ofNat, hx, BitVec.ofNat_toNat, BitVec.setWidth_eq]
    have hsel := selects_unmasked (s := s) (x := x) ⟨hpol, by simp [maskBit_eq_decide, hlt]⟩
    rw [hmarker] at hsel
    obtain ⟨hform, hbyte⟩ := hsel.exec hc hp ho (raise_takeRx_of_offered _ ho)
    exact ⟨hform, hbyte, rfl, rfl, rfl⟩

/-- Settles O24: under `ignore` the marker alone selects the form, so `RXF.UNMASKED` is never enabled. -/
theorem ignorePolicyForms : Obligations.IgnorePolicyForms := by
  intro s x rest hpol hc hp ho
  have hm : ¬isUnmasked s.params.unmaskedPolicy x := not_isUnmasked_of_ignore hpol x
  refine ⟨fun l hl hx => ?len7, fun hx => ?len16, fun hx => ?len64, fun l => ?unmasked⟩
  case len7 => exact (selects_len7_of_le hm hx hl).exec hc hp ho (len7Op_of_offered l ho)
  case len16 => exact (selects_len16 hm (lenMarker_eq_of_mod hx)).exec hc hp ho (len16Op_of_offered ho)
  case len64 => exact (selects_len64 hm (lenMarker_eq_of_mod hx)).exec hc hp ho (raise_takeRx_of_offered _ ho)
  case unmasked =>
    have hoff : formEnabled (.rxfUnmasked l) s = false := by
      simp [formEnabled, ho, selectForm_ne_unmasked hm l]
    simp only [exec, execRxfUnmasked, hoff, performIf_false]

/-! ### The claims about the other bytes -/

/-- Settles O21: the byte is taken, and no register gets its value. -/
theorem byteZeroIsDiscarded : Obligations.ByteZeroIsDiscarded := by
  intro s x rest hc hp ho
  have hd : DecoderAt s.regs .b0 := ⟨hc.symm.imp_right fun hc => ⟨hc, rfl⟩, hp⟩
  exact exec_byte hd ho rfl (by simp only [byteOp, setRegs, takeRx_of_offered ho])

/-- Settles O25: the two bytes of the length, the first one the more significant. -/
theorem extendedLength : Obligations.ExtendedLength := by
  intro s x rest hc ho
  refine ⟨fun hp => ?x0, fun hp => ?x1⟩
  case x0 =>
    have hlen : be16 x 0 = BitVec.ofNat 16 (x.toNat * 256) := by simp [be16_eq_ofNat]
    exact exec_byte (p := .x0) ⟨.inl hc, hp⟩ ho rfl (by simp only [byteOp, setRegs, takeRx_of_offered ho, hlen])
  case x1 =>
    exact exec_byte (p := .x1) ⟨.inl hc, hp⟩ ho rfl
      (by simp only [byteOp, setRegs, takeRx_of_offered ho, be16_eq_ofNat, hiByte_toNat])

/-- Settles O26: each phase writes its own byte of the key. -/
theorem keyBytesAreKept : Obligations.KeyBytesAreKept := by
  intro s x rest hc ho
  refine ⟨fun hp => ?k0, fun hp => ?k1, fun hp => ?k2⟩
  case k0 => exact exec_byte (p := .k0) ⟨.inl hc, hp⟩ ho rfl (by simp only [byteOp, setRegs, takeRx_of_offered ho])
  case k1 => exact exec_byte (p := .k1) ⟨.inl hc, hp⟩ ho rfl (by simp only [byteOp, setRegs, takeRx_of_offered ho])
  case k2 => exact exec_byte (p := .k2) ⟨.inl hc, hp⟩ ho rfl (by simp only [byteOp, setRegs, takeRx_of_offered ho])

/-- Settles O27: the two branches of `RX.K3`. -/
theorem keyEndAnnouncesFrame : Obligations.KeyEndAnnouncesFrame := by
  intro s x rest hc hp ho hr
  refine ⟨fun hlen => exec_byte (p := .k3) ⟨.inl hc, hp⟩ ho hr ?empty,
    fun hlen => exec_byte (p := .k3) ⟨.inl hc, hp⟩ ho hr ?payload⟩
  case empty =>
    simp only [byteOp, k3Regs_of_zero hlen, decFrameEnd, setRegs, emitAi, takeRx_of_offered ho, hlen, Key.zero]
  case payload => simp only [byteOp, k3Regs_of_ne hlen, unmLoad, setRegs, emitAi, takeRx_of_offered ho]

/-- The four values of the key index. -/
theorem unmIdx_cases (j : BitVec 2) : j = 0 ∨ j = 1 ∨ j = 2 ∨ j = 3 := by
  revert j; decide

/-- Settles O28: the two branches of `RX.PAY`, with the key byte at the index. -/
theorem payloadByteIsUnmasked : Obligations.PayloadByteIsUnmasked := by
  intro s x rest hc hp ho hr keyByte
  have hclear : unmClear x s.regs = x ^^^ keyByte := by
    rcases unmIdx_cases s.regs.unmIdx with h | h | h | h <;> simp [unmClear, keyAt, keyByte, h]
  refine ⟨fun hlast => exec_byte (p := .pay) ⟨.inl hc, hp⟩ ho hr ?last,
    fun hmore => exec_byte (p := .pay) ⟨.inl hc, hp⟩ ho hr ?more⟩
  case last =>
    simp only [byteOp, payRegs_last hlast, decFrameEnd, setRegs, emitAp, takeRx_of_offered ho, hclear, hlast,
      beq_self_eq_true, Key.zero]
  case more =>
    simp only [byteOp, payRegs_of_ne hmore, unmAdvance, setRegs, emitAp, takeRx_of_offered ho, hclear,
      beq_eq_false_iff_ne.mpr hmore]

end Sys2Proof.Machine
end

