-- ==== Sys2Proof/Proofs/DecoderFrames.lean ====
section
/-! SUPPORT. A whole frame through the decoder: its steps compute `decode(s)` (41 R172), byte by byte. -/

namespace Sys2Proof.Machine

/-! ### The beats of a payload -/

/-- The `AP` beats of payload bytes behind which more are to come, from payload index `i` on (41 R168). -/
def apMore (k : Key) : Nat → List Byte → List ApBeat
  | _, [] => []
  | i, x :: rest => ⟨x, x ^^^ keyAt k (BitVec.ofNat 2 i), false⟩ :: apMore k (i + 1) rest

theorem apRun_cons (k : Key) (i : Nat) (x : Byte) (rest : List Byte) :
    apRun k i (x :: rest) = ⟨x, x ^^^ keyAt k (BitVec.ofNat 2 i), rest.isEmpty⟩ :: apRun k (i + 1) rest := by
  cases rest <;> rfl

/-- A payload in two parts, the second not empty: no byte of the first is the last. -/
theorem apRun_append (k : Key) (i : Nat) (p : List Byte) {q : List Byte} (hq : q ≠ []) :
    apRun k i (p ++ q) = apMore k i p ++ apRun k (i + p.length) q := by
  induction p generalizing i with
  | nil => rfl
  | cons x p ih =>
    have hmore : (p ++ q).isEmpty = false := by simp [hq]
    rw [List.cons_append, apRun_cons, hmore, ih, apMore, List.cons_append, List.length_cons, Nat.add_right_comm,
      Nat.add_assoc]

theorem map_masked_apRun (k : Key) (i : Nat) (p : List Byte) : (apRun k i p).map ApBeat.masked = p := by
  induction p generalizing i with
  | nil => rfl
  | cons x p ih => rw [apRun_cons, List.map_cons, ih]

theorem map_clear_apRun (k : Key) (i : Nat) (p : List Byte) :
    (apRun k i p).map ApBeat.clear = p.mapIdx fun j x => x ^^^ keyAt k (BitVec.ofNat 2 (i + j)) := by
  induction p generalizing i with
  | nil => rfl
  | cons x p ih =>
    simp only [apRun_cons, List.map_cons, ih, List.mapIdx_cons, Nat.add_zero, Nat.add_right_comm, Nat.add_assoc]

/-- The clear bytes of a frame's beats are its unmasked payload (42 R190). -/
theorem map_clear_apRun_zero (k : Key) (p : List Byte) : (apRun k 0 p).map ApBeat.clear = unmask p k := by
  simp only [map_clear_apRun, Nat.zero_add, unmask]

/-! ### The branches of `decode(s)` -/

/-- The payload's bytes from the length on (41 R172). -/
theorem decodeBody_of_key (len : BitVec 16) (k0 k1 k2 k3 : Byte) (tail : List Byte) :
    decodeBody len (k0 :: k1 :: k2 :: k3 :: tail) =
      if tail.length < len.toNat then .needMore
      else .frame len ⟨k0, k1, k2, k3⟩ (tail.take len.toNat) (tail.drop len.toNat) := rfl

/-- A frame is the length, the key, that many bytes, and what is behind them. -/
theorem decodeBody_eq_frame {len len' : BitVec 16} {k0 k1 k2 k3 : Byte} {tail masked rest : List Byte} {key : Key}
    (h : decodeBody len (k0 :: k1 :: k2 :: k3 :: tail) = .frame len' key masked rest) :
    len' = len ∧ key = ⟨k0, k1, k2, k3⟩ ∧ masked.length = len.toNat ∧ tail = masked ++ rest := by
  rw [decodeBody_of_key] at h
  split at h
  · cases h
  · cases h
    exact ⟨rfl, rfl, by rw [List.length_take]; omega, (List.take_append_drop _ _).symm⟩

theorem decodeBody_ne_fault (len : BitVec 16) (bs : List Byte) (e : Err) : decodeBody len bs ≠ .fault e := by
  unfold decodeBody
  split
  · split <;> nofun
  · nofun

/-- What frame byte 1 makes of the state, and of the bytes behind it (41 R162 to R165, R172). -/
inductive Byte1Effect (b0 x : Byte) (u : State) : Prop where
  | fault (e : Err) (hop : byte1Op x u = raise e (takeRx u))
      (hdec : ∀ tail, decodeFrame u.params.unmaskedPolicy (b0 :: x :: tail) = .fault e)
  | extended (hop : byte1Op x u = len16Op u)
      (hdec : ∀ xh xl body,
        decodeFrame u.params.unmaskedPolicy (b0 :: x :: xh :: xl :: body) = decodeBody (be16 xh xl) body)
      (hshort : ∀ tail, tail.length < 2 → decodeFrame u.params.unmaskedPolicy (b0 :: x :: tail) = .needMore)
  | short (l : BitVec 7) (hop : byte1Op x u = len7Op l u)
      (hdec : ∀ body, decodeFrame u.params.unmaskedPolicy (b0 :: x :: body) = decodeBody (l.setWidth 16) body)

/-- The four forms, as the decoder and `decode(s)` both tell them apart. -/
theorem byte1Effect (b0 x : Byte) (u : State) : Byte1Effect b0 x u := by
  by_cases hm : isUnmasked u.params.unmaskedPolicy x
  · exact .fault _ (selects_unmasked hm).effect fun _ => if_pos hm
  by_cases h127 : lenMarker x = 127#7
  · exact .fault _ (selects_len64 hm h127).effect fun _ => (if_neg hm).trans (if_pos h127)
  by_cases h126 : lenMarker x = 126#7
  · refine .extended (selects_len16 hm h126).effect
      (fun _ _ _ => (if_neg hm).trans ((if_neg h127).trans (if_pos h126))) fun tail htail => ?_
    obtain rfl | ⟨xh, rfl⟩ : tail = [] ∨ ∃ xh, tail = [xh] := by
      rcases tail with _ | ⟨xh, _ | ⟨xl, body⟩⟩ <;> simp_all
    · exact (if_neg hm).trans ((if_neg h127).trans (if_pos h126))
    · exact (if_neg hm).trans ((if_neg h127).trans (if_pos h126))
  · exact .short _ (selects_len7 hm h127 h126).effect
      fun _ => (if_neg hm).trans ((if_neg h127).trans (if_neg h126))

/-! ### States while a frame is read -/

/-- `s` with registers `r`, the bytes `rx` still offered, and these beats emitted since. -/
def decoding (s : State) (r : Regs) (rx : List Byte) (ais : List AiBeat) (aps : List ApBeat) : State :=
  { s with regs := r, io := { s.io with rx := rx, ai := s.io.ai ++ ais, ap := s.io.ap ++ aps } }

theorem decoding_self (s : State) : decoding s s.regs s.io.rx [] [] = s := by
  simp [decoding]

/-- No reset and no command come between the steps of `DEC`, and the host accepts what it emits. -/
structure Undisturbed (s : State) : Prop where
  running : s.io.rst = false
  noCommand : s.io.cmd = []
  aiReady : s.io.aiReady = true
  apReady : s.io.apReady = true

section Decoding

variable {s : State} {r : Regs} {ais : List AiBeat} {aps : List ApBeat}

/-- Undisturbed, a step takes the byte due. -/
theorem Undisturbed.step (hs : Undisturbed s) {p : DecPhase} (hd : DecoderAt r p) (x : Byte) (rest : List Byte) :
    step (decoding s r (x :: rest) ais aps) = .next (byteOp p x (decoding s r (x :: rest) ais aps)) := by
  obtain ⟨hr, hcmd, hai, hap⟩ := hs
  refine step_byte hr hcmd hd rfl ?_
  cases p
  case k3 => exact hai
  case pay => exact hap
  all_goals rfl

/-! #### The payload -/

/-- In the payload: the next byte has index `i`, and `n` are to come. -/
def counting (r : Regs) (i n : Nat) : Regs := { r with unmIdx := BitVec.ofNat 2 i, decRem := BitVec.ofNat 16 n }

theorem DecoderAt.counting {p : DecPhase} (h : DecoderAt r p) (i n : Nat) : DecoderAt (counting r i n) p :=
  ⟨h.conn, h.phase⟩

/-- A payload byte that is not the last (41 R168). -/
theorem byteOp_pay_more {i n : Nat} (hn : 0 < n) (hlt : n + 1 < 65536) (x : Byte) (rest : List Byte) :
    byteOp .pay x (decoding s (counting r i (n + 1)) (x :: rest) ais aps) =
      decoding s (counting r (i + 1) n) rest ais
        (aps ++ [⟨x, x ^^^ keyAt r.unmKey (BitVec.ofNat 2 i), false⟩]) := by
  have hne : BitVec.ofNat 16 (n + 1) ≠ 1 := by bv_omega
  have hrem : BitVec.ofNat 16 (n + 1) - 1 = BitVec.ofNat 16 n := by bv_omega
  have hidx : BitVec.ofNat 2 i + 1 = BitVec.ofNat 2 (i + 1) := by bv_omega
  have hregs : payRegs (counting r i (n + 1)) = counting r (i + 1) n := by
    rw [payRegs_of_ne hne]
    simp only [counting, unmAdvance, hrem, hidx]
  simp only [byteOp, decoding, hregs, setRegs, emitAp, takeRx, List.tail_cons, unmClear, List.append_assoc]
  simp only [counting, beq_eq_false_iff_ne.mpr hne]

/-- The last payload byte ends the frame (41 R168, R169). -/
theorem byteOp_pay_last (i : Nat) (x : Byte) (rest : List Byte) :
    byteOp .pay x (decoding s (counting r i 1) (x :: rest) ais aps) =
      decoding s (decFrameEnd r) rest ais (aps ++ [⟨x, x ^^^ keyAt r.unmKey (BitVec.ofNat 2 i), true⟩]) := by
  simp only [decoding, ← List.append_assoc]
  rfl

/-- Payload bytes behind which `n` are to come pass one by one. -/
theorem Undisturbed.runs_payload (hs : Undisturbed s) (hd : DecoderAt r .pay) {n : Nat} (hn : 0 < n)
    (rest p : List Byte) (i : Nat) (hlt : p.length + n < 65536) :
    runs p.length (decoding s (counting r i (p.length + n)) (p ++ rest) ais aps)
      (decoding s (counting r (i + p.length) n) rest ais (aps ++ apMore r.unmKey i p)) := by
  induction p generalizing i aps with
  | nil => simp [runs, apMore]
  | cons x p ih =>
    simp only [List.length_cons, Nat.add_right_comm _ 1 n] at hlt ⊢
    have hstep := hs.step (ais := ais) (aps := aps) (hd.counting i (p.length + n + 1)) x (p ++ rest)
    rw [byteOp_pay_more (by omega) hlt] at hstep
    refine ⟨_, hstep, ?_⟩
    have htail := ih (aps := aps ++ [⟨x, x ^^^ keyAt r.unmKey (BitVec.ofNat 2 i), false⟩]) (i + 1) (by omega)
    rwa [List.append_assoc, List.singleton_append, Nat.add_assoc, Nat.add_comm 1] at htail

/-- A whole payload passes, and its last byte ends the frame. -/
theorem Undisturbed.runs_whole_payload (hs : Undisturbed s) (hd : DecoderAt r .pay) (rest p : List Byte)
    (hp : p ≠ []) (hlt : p.length < 65536) :
    runs p.length (decoding s (counting r 0 p.length) (p ++ rest) ais aps)
      (decoding s (decFrameEnd r) rest ais (aps ++ apRun r.unmKey 0 p)) := by
  obtain ⟨q, x, rfl⟩ := (List.eq_nil_or_concat' p).resolve_left hp
  rw [List.length_append, List.length_singleton] at hlt ⊢
  have hfirst := hs.runs_payload (ais := ais) (aps := aps) hd Nat.one_pos (x :: rest) q 0 hlt
  have hlast := hs.step (ais := ais) (aps := aps ++ apMore r.unmKey 0 q) (hd.counting (0 + q.length) 1) x rest
  rw [byteOp_pay_last] at hlast
  rw [List.append_assoc, List.singleton_append, apRun_append _ _ _ (List.cons_ne_nil x []), ← List.append_assoc]
  exact runs_trans hfirst (runs_one hlast)

end Decoding

/-! ### What the decoder makes of an input -/

/-- With registers `r` and the bytes `bs` offered, the decoder computes `D`, the part of `decode(s)` still to do, where
it is no fault: a frame is announced, its payload passed and no byte behind it taken; a short input is taken whole,
with a first part of the frame's beats emitted. -/
structure Reads (s : State) (r : Regs) (D : List Byte → FrameResult) (bs : List Byte) : Prop where
  frame : ∀ {len key masked rest}, D bs = .frame len key masked rest →
    ∃ used r', bs = used ++ rest ∧ masked.length = len.toNat ∧
      r'.connState = .processing ∧ r'.err = s.regs.err ∧
      runs used.length (decoding s r bs [] []) (decoding s r' rest [⟨len, key⟩] (apRun key 0 masked))
  needMore : D bs = .needMore →
    ∃ r' ais aps, (r'.connState = .handshaken ∨ r'.connState = .readingFrame) ∧
      runs bs.length (decoding s r bs [] []) (decoding s r' [] ais aps) ∧
      ∀ more len key masked rest, D (bs ++ more) = .frame len key masked rest →
        ais <+: [⟨len, key⟩] ∧ aps <+: apRun key 0 masked

section Reading

variable {D : List Byte → FrameResult} {s : State} {r : Regs}

/-- With no byte offered the decoder holds, where more are needed. -/
theorem Reads.nil (hc : r.connState = .handshaken ∨ r.connState = .readingFrame) (h0 : D [] = .needMore) :
    Reads s r D [] where
  frame h := by rw [h0] at h; cases h
  needMore _ := ⟨r, [], [], hc, rfl, fun _ _ _ _ _ _ => ⟨List.nil_prefix, List.nil_prefix⟩⟩

/-- A fault is neither a frame nor a short input. -/
theorem Reads.of_fault {bs : List Byte} {e : Err} (h : D bs = .fault e) : Reads s r D bs where
  frame hD := by cases h.symm.trans hD
  needMore hD := by cases h.symm.trans hD

/-- A byte is taken and nothing emitted; the rest of the input decides. -/
theorem Reads.cons {r' : Regs} {x : Byte} {tail : List Byte}
    (hstep : step (decoding s r (x :: tail) [] []) = .next (decoding s r' tail [] []))
    (h : Reads s r' (fun bs => D (x :: bs)) tail) : Reads s r D (x :: tail) where
  frame hD := by
    obtain ⟨used, r'', rfl, hlen, hc, he, hrun⟩ := h.frame hD
    exact ⟨x :: used, r'', rfl, hlen, hc, he, ⟨_, hstep, hrun⟩⟩
  needMore hD := by
    obtain ⟨r'', ais, aps, hc, hrun, hmore⟩ := h.needMore hD
    exact ⟨r'', ais, aps, hc, ⟨_, hstep, hrun⟩, hmore⟩

/-- `DEC` at phase `p`, in a frame before which `err` had the value it has in `s`. -/
structure InFrame (s : State) (r : Regs) (p : DecPhase) : Prop where
  due : DecoderAt r p
  err : r.err = s.regs.err

/-- In `READING_FRAME` after a byte that does not write `err`. -/
theorem InFrame.next {p q : DecPhase} {r' : Regs} (h : InFrame s r p) (hc : r'.connState = .readingFrame)
    (hp : r'.decPhase = q) (he : r'.err = r.err) : InFrame s r' q :=
  ⟨⟨.inl hc, hp⟩, he.trans h.err⟩

theorem InFrame.connState {p : DecPhase} (h : InFrame s r p) (hp : p ≠ .b0) : r.connState = .readingFrame :=
  h.due.conn.resolve_right fun hb => hp hb.2

/-- A byte due that emits nothing: with none offered the decoder holds, else it is taken. -/
theorem Reads.byte {p : DecPhase} {bs : List Byte} (hs : Undisturbed s) (h : InFrame s r p)
    (h0 : D [] = .needMore)
    (hop : ∀ x tail, ∃ r', byteOp p x (decoding s r (x :: tail) [] []) = decoding s r' tail [] [] ∧
      Reads s r' (fun bs => D (x :: bs)) tail) : Reads s r D bs := by
  cases bs with
  | nil => exact .nil (h.due.conn.symm.imp_left And.left) h0
  | cons x tail =>
    obtain ⟨r', heq, htail⟩ := hop x tail
    exact .cons (heq ▸ hs.step h.due x tail) htail

/-! #### The key and the payload -/

/-- The key's last byte announces the frame; an empty one ends here (41 R167). -/
theorem byteOp_k3_empty (hlen : r.decLen = 0) (x : Byte) (tail : List Byte) :
    byteOp .k3 x (decoding s r (x :: tail) [] []) =
      decoding s (decFrameEnd r) tail [⟨r.decLen, { r.decKey with k3 := x }⟩] [] := by
  have hregs := k3Regs_of_zero hlen x
  simp only [byteOp, decoding, hregs, setRegs, emitAi, takeRx, List.tail_cons, List.append_assoc, List.nil_append]

/-- The key's last byte announces the frame, and the payload is due (41 R167, 42 R191). -/
theorem byteOp_k3_payload (hlen : r.decLen ≠ 0) (hrem : r.decRem = r.decLen) (x : Byte) (tail : List Byte) :
    byteOp .k3 x (decoding s r (x :: tail) [] []) =
      decoding s (counting (k3Regs x r) 0 r.decLen.toNat) tail [⟨r.decLen, { r.decKey with k3 := x }⟩] [] := by
  have hregs : counting (k3Regs x r) 0 r.decLen.toNat = k3Regs x r := by
    simp only [k3Regs_of_ne hlen, counting, unmLoad, BitVec.ofNat_toNat, BitVec.setWidth_eq, ← hrem]
    rfl
  rw [hregs]
  simp only [byteOp, decoding, setRegs, emitAi, takeRx, List.tail_cons, List.append_assoc, List.nil_append]

/-- After the key the payload is due, and `UNM` holds the key (42 R191). -/
theorem payload_of_k3 (h : InFrame s r .k3) (hlen : r.decLen ≠ 0) (x : Byte) :
    DecoderAt (k3Regs x r) .pay ∧ (k3Regs x r).unmKey = { r.decKey with k3 := x } := by
  rw [k3Regs_of_ne hlen]
  exact ⟨⟨.inl (h.connState nofun), rfl⟩, rfl⟩

/-- From the key's last byte to the end of the frame. -/
theorem runs_k3_frame (hs : Undisturbed s) (h : InFrame s r .k3) (hrem : r.decRem = r.decLen) (x : Byte)
    {masked : List Byte} (rest : List Byte) (hm : masked.length = r.decLen.toNat) :
    ∃ r', r'.connState = .processing ∧ r'.err = s.regs.err ∧
      runs (masked.length + 1) (decoding s r (x :: (masked ++ rest)) [] [])
        (decoding s r' rest [⟨r.decLen, { r.decKey with k3 := x }⟩]
          (apRun { r.decKey with k3 := x } 0 masked)) := by
  have hstep := hs.step (ais := []) (aps := []) h.due x (masked ++ rest)
  by_cases hlen : r.decLen = 0
  · rw [byteOp_k3_empty hlen] at hstep
    obtain rfl := List.eq_nil_of_length_eq_zero (hm.trans (by simp [hlen]))
    exact ⟨decFrameEnd r, rfl, h.err, runs_one hstep⟩
  · obtain ⟨hpay, hkey⟩ := payload_of_k3 h hlen x
    have hlt : masked.length < 65536 := hm ▸ r.decLen.isLt
    have hne : masked ≠ [] := List.ne_nil_of_length_pos (by bv_omega)
    rw [byteOp_k3_payload hlen hrem, ← hm] at hstep
    have hrun := hs.runs_whole_payload (ais := [⟨r.decLen, { r.decKey with k3 := x }⟩]) (aps := []) hpay rest masked
      hne hlt
    rw [hkey, List.nil_append] at hrun
    exact ⟨decFrameEnd (k3Regs x r), rfl, (k3Regs_err x r).trans h.err, ⟨_, hstep, hrun⟩⟩

/-- From the key's last byte to the end of a short input. -/
theorem runs_k3_short (hs : Undisturbed s) (h : InFrame s r .k3) (hrem : r.decRem = r.decLen) (x : Byte)
    {tail : List Byte} (hlt : tail.length < r.decLen.toNat) :
    ∃ r', r'.connState = .readingFrame ∧
      runs (tail.length + 1) (decoding s r (x :: tail) [] [])
        (decoding s r' [] [⟨r.decLen, { r.decKey with k3 := x }⟩] (apMore { r.decKey with k3 := x } 0 tail)) := by
  have hstep := hs.step (ais := []) (aps := []) h.due x tail
  have hlen : r.decLen ≠ 0 := by bv_omega
  obtain ⟨hpay, hkey⟩ := payload_of_k3 h hlen x
  obtain ⟨n, hn, hsum⟩ : ∃ n, 0 < n ∧ r.decLen.toNat = tail.length + n :=
    ⟨r.decLen.toNat - tail.length, by omega, by omega⟩
  rw [byteOp_k3_payload hlen hrem, hsum] at hstep
  have hrun := hs.runs_payload (ais := [⟨r.decLen, { r.decKey with k3 := x }⟩]) (aps := []) hpay hn [] tail 0
    (hsum ▸ r.decLen.isLt)
  rw [hkey, List.nil_append, List.append_nil] at hrun
  exact ⟨counting (k3Regs x r) (0 + tail.length) n, hpay.conn.resolve_right nofun, ⟨_, hstep, hrun⟩⟩

/-- The beats of a short payload are the frame's first ones. -/
theorem apMore_prefix_apRun (k : Key) {p more masked rest : List Byte} (hsplit : p ++ more = masked ++ rest)
    (hlt : p.length < masked.length) : apMore k 0 p <+: apRun k 0 masked := by
  obtain ⟨q, rfl⟩ : p <+: masked :=
    List.prefix_of_prefix_length_le ⟨more, hsplit⟩ (List.prefix_append masked rest) hlt.le
  have hq : q ≠ [] := by rintro rfl; simp at hlt
  exact ⟨_, (apRun_append k 0 p hq).symm⟩

/-- From the key's last byte on (41 R167, R168). -/
theorem reads_k3 (hs : Undisturbed s) (h : InFrame s r .k3) (hrem : r.decRem = r.decLen) {bs : List Byte} :
    Reads s r (fun bs => decodeBody r.decLen (r.decKey.k0 :: r.decKey.k1 :: r.decKey.k2 :: bs)) bs := by
  cases bs with
  | nil => exact .nil (.inr (h.connState nofun)) rfl
  | cons x tail =>
    refine ⟨fun hD => ?frame, fun hD => ?needMore⟩
    case frame =>
      obtain ⟨rfl, rfl, hm, rfl⟩ := decodeBody_eq_frame hD
      obtain ⟨r', hc, he, hrun⟩ := runs_k3_frame hs h hrem x _ hm
      exact ⟨x :: _, r', rfl, hm, hc, he, hrun⟩
    case needMore =>
      have hlt : tail.length < r.decLen.toNat := by
        by_contra hge
        simp [decodeBody_of_key, hge] at hD
      obtain ⟨r', hc, hrun⟩ := runs_k3_short hs h hrem x hlt
      refine ⟨r', _, _, .inr hc, hrun, fun more len key masked rest hD' => ?_⟩
      obtain ⟨rfl, rfl, hm, hsplit⟩ := decodeBody_eq_frame hD'
      exact ⟨List.prefix_rfl, apMore_prefix_apRun _ hsplit (hm ▸ hlt)⟩

/-- From the key's third byte on (41 R166). -/
theorem reads_k2 (hs : Undisturbed s) (h : InFrame s r .k2) (hrem : r.decRem = r.decLen) {bs : List Byte} :
    Reads s r (fun bs => decodeBody r.decLen (r.decKey.k0 :: r.decKey.k1 :: bs)) bs := by
  refine .byte hs h rfl fun _ _ => ⟨_, rfl, reads_k3 hs ?_ ?_⟩
  exacts [h.next (h.connState nofun) rfl rfl, hrem]

/-- From the key's second byte on (41 R166). -/
theorem reads_k1 (hs : Undisturbed s) (h : InFrame s r .k1) (hrem : r.decRem = r.decLen) {bs : List Byte} :
    Reads s r (fun bs => decodeBody r.decLen (r.decKey.k0 :: bs)) bs := by
  refine .byte hs h rfl fun _ _ => ⟨_, rfl, reads_k2 hs ?_ ?_⟩
  exacts [h.next (h.connState nofun) rfl rfl, hrem]

/-- From the key's first byte on, the length known (41 R166). -/
theorem reads_k0 (hs : Undisturbed s) (h : InFrame s r .k0) (hrem : r.decRem = r.decLen) {bs : List Byte}
    (hD : ∀ body, D body = decodeBody r.decLen body) : Reads s r D bs := by
  obtain rfl := funext hD
  refine .byte hs h rfl fun _ _ => ⟨_, rfl, reads_k1 hs ?_ ?_⟩
  exacts [h.next (h.connState nofun) rfl rfl, hrem]

/-! #### The header -/

/-- From the low length byte on (41 R174). -/
theorem reads_x1 (hs : Undisturbed s) (h : InFrame s r .x1) {bs : List Byte} (h0 : D [] = .needMore)
    (hD : ∀ xl body, D (xl :: body) = decodeBody (be16 (hiByte r.decLen) xl) body) : Reads s r D bs := by
  refine .byte hs h h0 fun xl _ => ⟨_, rfl, reads_k0 hs ?_ ?_ ?_⟩
  exacts [h.next (h.connState nofun) rfl rfl, rfl, hD xl]

/-- From the high length byte on (41 R173). -/
theorem reads_x0 (hs : Undisturbed s) (h : InFrame s r .x0) {bs : List Byte}
    (hshort : ∀ bs, bs.length < 2 → D bs = .needMore)
    (hD : ∀ xh xl body, D (xh :: xl :: body) = decodeBody (be16 xh xl) body) : Reads s r D bs := by
  refine .byte hs h (hshort [] (by simp)) fun xh _ => ⟨_, rfl, ?_⟩
  refine reads_x1 hs ?_ (hshort [xh] (by simp)) fun xl body => ?_
  · exact h.next (h.connState nofun) rfl rfl
  · rw [hD, hiByte_be16]

/-- From frame byte 1 on (41 R162 to R165). -/
theorem reads_b1 (hs : Undisturbed s) (h : InFrame s r .b1) (b0 : Byte) {bs : List Byte} :
    Reads s r (fun bs => decodeFrame s.params.unmaskedPolicy (b0 :: bs)) bs := by
  refine .byte hs h rfl fun x tail => ?_
  have hc := h.connState nofun
  cases byte1Effect b0 x (decoding s r (x :: tail) [] []) with
  | fault e hop hdec => exact ⟨_, hop, .of_fault (hdec tail)⟩
  | extended hop hdec hshort =>
    refine ⟨_, hop, reads_x0 hs ?_ hshort hdec⟩
    exact h.next hc rfl rfl
  | short l hop hdec =>
    refine ⟨_, hop, reads_k0 hs ?_ ?_ ?_⟩
    exacts [h.next hc rfl rfl, rfl, hdec]

/-- From frame byte 0 on (41 R161). -/
theorem reads_b0 (hs : Undisturbed s) (h : InFrame s r .b0) {bs : List Byte} :
    Reads s r (decodeFrame s.params.unmaskedPolicy) bs := by
  refine .byte hs h rfl fun b0 _ => ⟨_, rfl, reads_b1 hs ?_ b0⟩
  exact h.next rfl rfl rfl

/-- A faulting frame is terminated with its cause after two bytes (41 R164, R165). -/
theorem runs_fault (hs : Undisturbed s) (h : DecoderAt r .b0) {bs : List Byte} {e : Err}
    (hD : decodeFrame s.params.unmaskedPolicy bs = .fault e) :
    runs 2 (decoding s r bs [] []) (decoding s (terminated e) (bs.drop 2) [] []) := by
  rcases bs with _ | ⟨b0, _ | ⟨x, tail⟩⟩
  · cases hD
  · cases hD
  · obtain ⟨r', hstep0, hd⟩ : ∃ r', step (decoding s r (b0 :: x :: tail) [] []) =
        .next (decoding s r' (x :: tail) [] []) ∧ DecoderAt r' .b1 := ⟨_, hs.step h b0 (x :: tail), .inl rfl, rfl⟩
    have hstep1 := hs.step (ais := []) (aps := []) hd x tail
    cases byte1Effect b0 x (decoding s r' (x :: tail) [] []) with
    | fault e' hop hdec =>
      cases (hdec tail).symm.trans hD
      exact ⟨_, hstep0, runs_one (hstep1.trans (congrArg Host.Outcome.next hop))⟩
    | extended hop hdec hshort =>
      rcases tail with _ | ⟨xh, _ | ⟨xl, body⟩⟩
      · cases (hshort [] (by simp)).symm.trans hD
      · cases (hshort [xh] (by simp)).symm.trans hD
      · exact absurd ((hdec xh xl body).symm.trans hD) (decodeBody_ne_fault _ _ _)
    | short l hop hdec => exact absurd ((hdec tail).symm.trans hD) (decodeBody_ne_fault _ _ _)

end Reading

/-- Settles O33: byte by byte the decoder's registers hold what `decode(s)` has read, and its beats follow. -/
theorem decoderComputesDecode : Obligations.DecoderComputesDecode := by
  rintro s bs hc hp hr hcmd hai hap rfl
  have hs : Undisturbed s := ⟨hr, hcmd, hai, hap⟩
  have hd : DecoderAt s.regs .b0 := ⟨hc.symm.imp_right fun hc => ⟨hc, rfl⟩, hp⟩
  have hreads : Reads s s.regs (decodeFrame s.params.unmaskedPolicy) s.io.rx := reads_b0 hs ⟨hd, rfl⟩
  refine ⟨fun len key masked rest hD => ?frame, fun e hD => ?fault, fun hD => ?needMore⟩
  case frame =>
    obtain ⟨used, r', hrx, hlen, hconn, herr, hrun⟩ := hreads.frame hD
    have hused : s.io.rx.length - rest.length = used.length := by simp [hrx]
    rw [decoding_self] at hrun
    rw [hused]
    refine ⟨_, hrun, hconn, rfl, hlen, rfl, rfl, ?_, ?_, rfl, herr⟩
    · simp only [decoding, List.map_append, map_masked_apRun]
    · simp only [decoding, List.map_append, map_clear_apRun_zero]
  case fault =>
    have hrun := runs_fault hs hd hD
    rw [decoding_self] at hrun
    exact ⟨_, hrun, rfl, rfl, rfl, List.append_nil _, List.append_nil _, rfl⟩
  case needMore =>
    obtain ⟨r', ais, aps, hconn, hrun, hmore⟩ := hreads.needMore hD
    rw [decoding_self] at hrun
    refine ⟨_, ais, aps, hrun, ?_, rfl, hconn, rfl, rfl, rfl, hmore⟩
    have hwaits : waiting (decoding s r' [] ais aps) := .inr (.inr (.inr (.inl ⟨hconn, rfl⟩)))
    have hfetch := fetch_of_waiting (s := decoding s r' [] ais aps) hr (.inl hcmd) hwaits
    rw [holds, hfetch, Option.isNone_none]

end Sys2Proof.Machine
end

