-- ==== Sys2Proof/Proofs/Unmasker.lean ====
section
/-! SUPPORT. The payload unmasker (42_payload_unmasker): `unmask` index by index, and the two stand-alone steps. -/

namespace Sys2Proof.Machine

/-! ### The key byte at an index -/

/-- `K[j]` by the number of the index, as 42 R190 and R192 write it; read at 0 to 3 only. -/
def keyByte (k : Key) : Nat → Byte
  | 0 => k.k0
  | 1 => k.k1
  | 2 => k.k2
  | _ => k.k3

theorem keyAt_eq_keyByte (k : Key) (j : BitVec 2) : keyAt k j = keyByte k j.toNat := by
  rcases unmIdx_cases j with rfl | rfl | rfl | rfl <;> rfl

/-- A 2-bit index counts modulo 4. -/
theorem keyAt_ofNat (k : Key) (i : Nat) : keyAt k (BitVec.ofNat 2 i) = keyByte k (i % 4) := by
  rw [keyAt_eq_keyByte, BitVec.toNat_ofNat]

/-! ### Whole payloads -/

@[simp] theorem length_unmask (p : List Byte) (k : Key) : (unmask p k).length = p.length :=
  List.length_mapIdx

@[simp] theorem getElem_unmask (p : List Byte) (k : Key) (i : Nat) (hi : i < (unmask p k).length) :
    (unmask p k)[i] = p[i]'(length_unmask p k ▸ hi) ^^^ keyByte k (i % 4) := by
  simp only [unmask, List.getElem_mapIdx, keyAt_ofNat]

/-- Settles O31: inside the payload the default of `getD` plays no part. -/
theorem unmaskPointwise : Obligations.UnmaskPointwise := by
  refine fun p k => ⟨length_unmask p k, fun i hi => ?_⟩
  have hi' : i < (unmask p k).length := by rwa [length_unmask]
  rw [List.getD_eq_getElem _ _ hi', List.getD_eq_getElem _ _ hi, getElem_unmask]
  rfl

/-- Settles O32: at each index the same key byte is XORed in twice. -/
theorem unmaskIsItsOwnInverse : Obligations.UnmaskIsItsOwnInverse := by
  refine fun p k => List.ext_getElem (by simp only [length_unmask]) fun i _ _ => ?_
  rw [getElem_unmask, getElem_unmask, BitVec.xor_assoc, BitVec.xor_self, BitVec.xor_zero]

/-! ### The stand-alone steps -/

theorem exec_unmLoad (key : Key) (s : State) : exec (.unmLoad key) s = .next (setRegs (unmLoad key s.regs) s) := rfl

theorem exec_unmByte (x : Byte) (s : State) :
    exec (.unmByte x) s = .next { setRegs (unmAdvance s.regs) s with unmResult := some (unmClear x s.regs) } := rfl

/-- Settles O29: `UNM.LOAD` writes the two registers of `UNM`. -/
theorem unmaskerLoads : Obligations.UnmaskerLoads := by
  intro s key
  rw [exec_unmLoad, unmLoad, setRegs]

/-- Settles O30: the result uses the key byte of the old index, and the index moves on modulo 4. -/
theorem unmaskerXorsOneByte : Obligations.UnmaskerXorsOneByte := by
  intro s x
  have hidx : s.regs.unmIdx + 1 = BitVec.ofNat 2 (s.regs.unmIdx.toNat + 1) := by
    simp [BitVec.ofNat_add]
  rw [exec_unmByte, unmAdvance, hidx, unmClear, keyAt_eq_keyByte]
  rfl

end Sys2Proof.Machine
end

