-- ==== Sys2Proof/Proofs/EncoderBytes.lean ====
section
/-! SUPPORT. The steps of the encoder where they are enabled (43 R201 to R207): `ENCODE`, the four header steps and the
payload step, the state each answers said once, and the claims about each step. -/

namespace Sys2Proof.Machine

/-! ### `ENCODE` -/

/-- Up to 65536 the frame begins (43 R201). -/
theorem encodeOp_of_le {n : BitVec 32} (h : n.toNat ≤ 65536) (s : State) :
    encodeOp n s = setRegs
      { s.regs with encN := n, encRem := n.setWidth 17, encPhase := .h0, connState := .writingFrame } s :=
  if_neg (by omega)

/-- Above 65536 the command is a fault (43 R204). -/
theorem encodeOp_of_gt {n : BitVec 32} (h : 65536 < n.toNat) (s : State) : encodeOp n s = raise .payloadTooLarge s :=
  if_pos h

/-- An `ENCODE` at the head of `CMD` is taken in `PROCESSING` (43 R201). -/
theorem exec_encode {s : State} {n : BitVec 32} {rest : List (BitVec 34)} (hc : s.regs.connState = .processing)
    (ho : s.io.cmd = cmdBeat 2 n :: rest) :
    exec (.encode n) s = .next (encodeOp n { s with io := { s.io with cmd := rest } }) := by
  have hlegal : encodeLegal s = true := by simp [encodeLegal, hc]
  have hoffers : cmdOffers (.encode n) s.io = true := by simp [cmdOffers, ho]
  simp only [exec, execEncode, hlegal, hoffers, Bool.and_self, performIf_true, takeCmd_of_offered ho]

/-- Settles O34: the two branches of `ENCODE`. -/
theorem encodeBeginsFrame : Obligations.EncodeBeginsFrame := by
  intro s n rest hc ho
  rw [exec_encode hc ho]
  refine ⟨fun hn => ?begins, fun hn => ?tooLarge⟩
  case begins => simp only [encodeOp_of_le hn, setRegs, BitVec.ofNat_toNat]
  case tooLarge => rw [encodeOp_of_gt hn]; rfl

/-! ### The length bytes -/

theorem hiByte_eq_ofNat (n : BitVec 16) : hiByte n = BitVec.ofNat 8 (n.toNat / 256) := by
  apply BitVec.eq_of_toNat_eq
  have := n.isLt
  rw [hiByte_toNat, BitVec.toNat_ofNat]
  omega

theorem loByte_eq_ofNat (n : BitVec 16) : loByte n = BitVec.ofNat 8 n.toNat := by
  apply BitVec.eq_of_toNat_eq
  simp [loByte, BitVec.extractLsb'_toNat]

/-- The number in an extended length: `n` up to 65535, else the parameter (30_encoding R99, 43 R205). -/
theorem encLen16_toNat (p : Params) (n : BitVec 32) :
    (encLen16 p n).toNat = if n.toNat ≤ 65535 then n.toNat else p.encLen16At65536.toNat := by
  unfold encLen16
  split
  · rw [BitVec.toNat_setWidth, Nat.mod_eq_of_lt (by omega)]
  · rfl

/-! ### The header steps -/

/-- The second header byte of an empty frame is its last (43 R205, R207). -/
theorem h1Op_of_zero {s : State} (h : s.regs.encN = 0) :
    h1Op s = setRegs (encFrameEnd s.regs) (emitTx ⟨0, true⟩ s) := by
  simp [h1Op, h]

/-- A length of at most 125 is its own header byte (43 R205). -/
theorem h1Op_of_le {s : State} (h0 : s.regs.encN ≠ 0) (h : s.regs.encN.toNat ≤ 125) :
    h1Op s = setRegs { s.regs with encPhase := .pay } (emitTx ⟨BitVec.ofNat 8 s.regs.encN.toNat, false⟩ s) := by
  rw [h1Op, if_pos h, if_neg h0, beq_eq_false_iff_ne.mpr h0, BitVec.ofNat_toNat]

/-- Any other length has the marker 126 (43 R205). -/
theorem h1Op_of_ge {s : State} (h : 126 ≤ s.regs.encN.toNat) :
    h1Op s = setRegs { s.regs with encPhase := .h2 } (emitTx ⟨0x7E, false⟩ s) :=
  if_neg (by omega)

/-- A step that only emits, in the slot due with its sink accepting, is due and is executed (20_memory R62). -/
theorem due_exec_of_emits {slot : Slot} {s t : State} {i : Instr} (hslot : slotOf s.regs = some slot)
    (hs : sinkAccepts slot s.io = true) (ho : operandOf slot s.io = some [])
    (hd : decodeDue s.params.unmaskedPolicy slot [] = some i) (he : exec i s = performIf (emitEnabled slot s) s t) :
    dataDue s = some i ∧ exec i s = .next t :=
  ⟨dataDue_intro hslot hs ho hd, by rw [he, emitEnabled_of hslot hs, performIf_true]⟩

/-- A header step by the phase that makes it due (20_memory R63), and what it makes of the state. -/
inductive HeaderStep (s : State) : Instr → State → Prop where
  | h0 (hp : s.regs.encPhase = .h0) : HeaderStep s .txH0 (h0Op s)
  | h1 (hp : s.regs.encPhase = .h1) : HeaderStep s .txH1 (h1Op s)
  | h2 (hp : s.regs.encPhase = .h2) : HeaderStep s .txH2 (h2Op s)
  | h3 (hp : s.regs.encPhase = .h3) : HeaderStep s .txH3 (h3Op s)

section Writing

variable {s t : State} {i : Instr} (hc : s.regs.connState = .writingFrame) (hx : s.io.txReady = true)
include hc hx

/-- In `WRITING_FRAME` with `TX` accepted the header step of the phase is due, and is executed. -/
theorem HeaderStep.due_exec (h : HeaderStep s i t) : dataDue s = some i ∧ exec i s = .next t := by
  cases h with
  | h0 hp => exact due_exec_of_emits (slot := .h0) (by simp [slotOf, hc, hp]) hx rfl rfl rfl
  | h1 hp => exact due_exec_of_emits (slot := .h1) (by simp [slotOf, hc, hp]) hx rfl rfl rfl
  | h2 hp => exact due_exec_of_emits (slot := .h2) (by simp [slotOf, hc, hp]) hx rfl rfl rfl
  | h3 hp => exact due_exec_of_emits (slot := .h3) (by simp [slotOf, hc, hp]) hx rfl rfl rfl

theorem HeaderStep.exec (h : HeaderStep s i t) : exec i s = .next t := (h.due_exec hc hx).2

/-- With no command to take, the header step of the phase is the machine's step. -/
theorem HeaderStep.step (h : HeaderStep s i t) (hr : s.io.rst = false) (hcmd : s.io.cmd = []) : step s = .next t := by
  obtain ⟨hdue, hexec⟩ := h.due_exec hc hx
  exact (step_of_data_alone hr (cmdDue_of_nil hcmd) hdue).trans hexec

/-- In `E_PAY` the byte at the head of `TXP` may pass (43 R206). -/
theorem txpEnabled_of {x : Byte} {rest : List Byte} (hp : s.regs.encPhase = .pay) (ho : s.io.txp = x :: rest) :
    txpEnabled x s = true := by
  have hen : emitEnabled .txp s = true := emitEnabled_of (by simp [slotOf, hc, hp]) hx
  simp [txpEnabled, hen, txpOffers, ho]

end Writing

/-- Settles O35: each header step is executed in its phase, and the length bytes are those of the number `encLen16`
chooses. -/
theorem headerStepsEmit : Obligations.HeaderStepsEmit := by
  intro s hc hx n len
  have hlen : (encLen16 s.params s.regs.encN).toNat = len := encLen16_toNat _ _
  refine ⟨fun hp => (HeaderStep.h0 hp).exec hc hx, fun hp hn => ?empty, fun hp hpos hn => ?short, fun hp hn => ?long,
    fun hp => ?high, fun hp => ?low⟩
  case empty => rw [(HeaderStep.h1 hp).exec hc hx, h1Op_of_zero (by bv_omega)]; rfl
  case short => rw [(HeaderStep.h1 hp).exec hc hx, h1Op_of_le (by bv_omega) hn]; rfl
  case long => rw [(HeaderStep.h1 hp).exec hc hx, h1Op_of_ge hn]; rfl
  case high => rw [(HeaderStep.h2 hp).exec hc hx, h2Op, hiByte_eq_ofNat, hlen]; rfl
  case low => rw [(HeaderStep.h3 hp).exec hc hx, h3Op, loByte_eq_ofNat, hlen]; rfl

/-! ### The payload step -/

/-- `Take(TXP)` leaves the bytes behind the head. -/
theorem takeTxp_of_offered {s : State} {x : Byte} {rest : List Byte} (ho : s.io.txp = x :: rest) :
    takeTxp s = { s with io := { s.io with txp := rest } } := by
  simp [takeTxp, ho]

/-- The last payload byte carries `last` and ends the frame (43 R206, R207). -/
theorem txpOp_last {s : State} (h : s.regs.encRem = 1) (x : Byte) :
    txpOp x s = setRegs (encFrameEnd s.regs) (emitTx ⟨x, true⟩ (takeTxp s)) := by
  rw [txpOp, txpRegs, if_pos h, h, beq_self_eq_true]

/-- A payload byte with more to come (43 R206). -/
theorem txpOp_of_ne {s : State} (h : s.regs.encRem ≠ 1) (x : Byte) :
    txpOp x s = setRegs { s.regs with encRem := s.regs.encRem - 1 } (emitTx ⟨x, false⟩ (takeTxp s)) := by
  rw [txpOp, txpRegs, if_neg h, beq_eq_false_iff_ne.mpr h]

theorem exec_txpByte {x : Byte} {s : State} (h : txpEnabled x s = true) : exec (.txpByte x) s = .next (txpOp x s) := by
  simp only [exec, execTxpByte, h, performIf_true]

/-- Settles O36: the two branches of `TXP.BYTE`. -/
theorem payloadBytePasses : Obligations.PayloadBytePasses := by
  intro s x rest hc hp ho hx
  rw [exec_txpByte (txpEnabled_of hc hx hp ho)]
  refine ⟨fun hlast => ?last, fun hmore => ?more⟩
  case last => rw [txpOp_last hlast, takeTxp_of_offered ho]; rfl
  case more => rw [txpOp_of_ne hmore, takeTxp_of_offered ho]; rfl

end Sys2Proof.Machine
end

