-- ==== Sys2Proof/Proofs/FrameHeaders.lean ====
section
/-! SUPPORT. The header of an outgoing frame, `enc_header(n)`, and `encode(P)` (43 R200, R209). -/

namespace Sys2Proof.Machine

/-! ### The extended length of a number -/

/-- A length is the number of its two bytes (30_encoding R99). -/
theorem bytes_toNat (n : BitVec 16) : (hiByte n).toNat * 256 + (loByte n).toNat = n.toNat := by
  rw [hiByte_toNat, loByte_eq_ofNat, BitVec.toNat_ofNat]
  omega

theorem be16_hiByte_loByte (n : BitVec 16) : be16 (hiByte n) (loByte n) = n := by
  rw [be16_eq_ofNat, bytes_toNat, BitVec.ofNat_toNat, BitVec.setWidth_eq]

/-- Up to 65535 the extended length is the length (30_encoding R99). -/
theorem encLen16_ofNat {n : Nat} (h : n ≤ 65535) (p : Params) :
    (encLen16 p (BitVec.ofNat 32 n)).toNat = n := by
  have hn : (BitVec.ofNat 32 n).toNat = n := by rw [BitVec.toNat_ofNat, Nat.mod_eq_of_lt (by omega)]
  rw [encLen16_toNat, hn, if_pos h]

/-- At 65536 the extended length is the parameter (92 D11). -/
theorem encLen16_65536 (p : Params) : encLen16 p (BitVec.ofNat 32 65536) = p.encLen16At65536 := rfl

/-! ### The forms of a header -/

/-- The header of `n` bytes as the registers give it: `encHeader` has one up to 65536 only (43 R200). -/
inductive HeaderOf (p : Params) (n : Nat) : List Byte → Prop where
  | short (hn : n ≤ 125) : HeaderOf p n [0x81, BitVec.ofNat 8 n]
  | long (hlo : 126 ≤ n) (hhi : n ≤ 65536) :
      HeaderOf p n [0x81, 0x7E, hiByte (encLen16 p (BitVec.ofNat 32 n)), loByte (encLen16 p (BitVec.ofNat 32 n))]

theorem headerOf_of_encHeader {p : Params} {n : Nat} {header : List Byte} (h : encHeader p n = some header) :
    HeaderOf p n header := by
  unfold encHeader at h
  split at h
  · cases h
    exact .short ‹_›
  split at h
  · cases h
    have hlong := HeaderOf.long (p := p) (n := n) (by omega) (by omega)
    rwa [hiByte_eq_ofNat, loByte_eq_ofNat, encLen16_ofNat ‹_›] at hlong
  split at h
  · cases h
    subst n
    exact .long (by omega) (by omega)
  · cases h

theorem exists_encHeader {n : Nat} (h : n ≤ 65536) (p : Params) : ∃ header, encHeader p n = some header := by
  unfold encHeader
  split
  · exact ⟨_, rfl⟩
  split
  · exact ⟨_, rfl⟩
  · exact ⟨_, if_pos (by omega)⟩

/-- The bytes of `encode(P)` are a header and `P` (43 R200). -/
theorem encodeFrame_eq_some {p : Params} {payload bytes : List Byte} (h : encodeFrame p payload = some bytes) :
    ∃ header, encHeader p payload.length = some header ∧ bytes = header ++ payload := by
  obtain ⟨header, hheader, rfl⟩ := Option.map_eq_some_iff.mp h
  exact ⟨header, hheader, rfl⟩

/-- The shape of a header: two or four bytes, `81` first, then neither the mask bit nor the marker 127; up to 65535 the
length is the second byte or the last two (43 R208). -/
theorem HeaderOf.shape {p : Params} {n : Nat} {header : List Byte} (h : HeaderOf p n header) :
    (header.length = 2 ∨ header.length = 4) ∧ header.getD 0 0 = 0x81 ∧ (header.getD 1 0).toNat < 127 ∧
      (n ≤ 65535 → (header.length = 2 → (header.getD 1 0).toNat = n) ∧
        (header.length = 4 → (header.getD 2 0).toNat * 256 + (header.getD 3 0).toNat = n)) := by
  cases h with
  | short hn =>
    have hbyte : (BitVec.ofNat 8 n).toNat = n := by rw [BitVec.toNat_ofNat, Nat.mod_eq_of_lt (by omega)]
    have hlt : (BitVec.ofNat 8 n).toNat < 127 := by omega
    exact ⟨.inl rfl, rfl, hlt, fun _ => ⟨fun _ => hbyte, nofun⟩⟩
  | long hlo hhi =>
    have hmarker : (0x7E : Byte).toNat < 127 := by decide
    exact ⟨.inr rfl, rfl, hmarker, fun hn => ⟨nofun, fun _ => (bytes_toNat _).trans (encLen16_ofNat hn p)⟩⟩

/-- Settles O40: each row of the table is one branch of `enc_header`. -/
theorem headerBoundaries : Obligations.HeaderBoundaries :=
  ⟨rfl, rfl, rfl, rfl, rfl, rfl, rfl, rfl, rfl, rfl, rfl⟩

end Sys2Proof.Machine
end

