-- ==== Sys2Proof/Proofs/EncoderFrames.lean ====
section
/-! SUPPORT. A whole frame through the encoder: the two forms, and the steps that compute `encode(P)` (43 R202, R203,
R208). -/

namespace Sys2Proof.Machine

/-! ### The beats of one write -/

/-- The `TX` beats of bytes behind which more are to come (20_memory R72). -/
def txMore (l : List Byte) : List TxBeat := l.map fun x => ⟨x, false⟩

/-- A byte behind which more are to come (20_memory R72). -/
theorem txRun_cons {l : List Byte} (hl : l ≠ []) (x : Byte) : txRun (x :: l) = ⟨x, false⟩ :: txRun l := by
  cases l with
  | nil => contradiction
  | cons y l => rfl

/-- A write in two parts, the second not empty: no byte of the first is the last. -/
theorem txRun_append (l : List Byte) {p : List Byte} (hp : p ≠ []) : txRun (l ++ p) = txMore l ++ txRun p := by
  induction l with
  | nil => rfl
  | cons x l ih =>
    rw [List.cons_append, txRun_cons (List.append_ne_nil_of_right_ne_nil l hp), ih]
    rfl

/-! ### States while a frame is written -/

/-- `s` with registers `r`, the bytes `txp` still offered, and these beats emitted since. -/
def encoding (s : State) (r : Regs) (txp : List Byte) (sent : List TxBeat) : State :=
  { s with regs := r, io := { s.io with txp := txp, tx := s.io.tx ++ sent } }

/-- A frame of `payload` is to be written: its first header byte is due, its length is in the registers, and its bytes
are on `TXP`, with `rest` behind them. -/
structure FrameDue (s : State) (payload rest : List Byte) : Prop where
  writing : s.regs.connState = .writingFrame
  phase : s.regs.encPhase = .h0
  accepts : s.io.txReady = true
  encN : s.regs.encN.toNat = payload.length
  encRem : s.regs.encRem.toNat = payload.length
  offered : s.io.txp = payload ++ rest

/-- The frame `bytes` is written and has ended (43 R207), with `rest` left on `TXP`. -/
def written (s : State) (bytes rest : List Byte) : State :=
  encoding s (encFrameEnd s.regs) rest (txRun bytes)

/-! ### The payload -/

/-- The payload bytes pass one by one, each step enabled (43 R206). -/
inductive Passes : List Byte → State → State → Prop where
  | nil (s : State) : Passes [] s s
  | cons {x : Byte} {l : List Byte} {s t : State} (hen : txpEnabled x s = true) (h : Passes l (txpOp x s) t) :
      Passes (x :: l) s t

/-- With no command to take, the bytes pass in as many steps of the machine. -/
theorem Passes.runs {p : List Byte} {s t : State} (h : Passes p s t) (hr : s.io.rst = false) (hcmd : s.io.cmd = []) :
    runs p.length s t := by
  induction h with
  | nil => rfl
  | cons hen _ ih =>
    have hstep := step_of_data_alone hr (cmdDue_of_nil hcmd) (dataDue_of_txpEnabled hen)
    exact ⟨_, hstep.trans (exec_txpByte hen), ih hr hcmd⟩

/-- The compound passes the same bytes, and goes on with those behind them (log 13). -/
theorem Passes.passPayload {p : List Byte} {s t : State} (h : Passes p s t) (rest : List Byte) :
    passPayload (p ++ rest) s = passPayload rest t := by
  induction h with
  | nil => rfl
  | cons hen _ ih => exact (if_pos hen).trans ih

/-- A payload byte passes in `WRITING_FRAME` only (20_memory R63). -/
theorem writing_of_txpEnabled {x : Byte} {s : State} (h : txpEnabled x s = true) :
    s.regs.connState = .writingFrame := by
  simp only [txpEnabled, emitEnabled, due, Bool.and_eq_true, beq_iff_eq] at h
  obtain ⟨⟨hslot, -⟩, -⟩ := h
  rcases slotOf_cases hslot with ⟨-, hsgn⟩ | ⟨-, -, hdec⟩ | ⟨-, hdec⟩ | ⟨hc, -⟩
  · simp at hsgn
  · cases hdec
  · simp at hdec
  · exact hc

/-- Outside `WRITING_FRAME` no byte passes. -/
theorem passPayload_of_not_writing {s : State} (hc : s.regs.connState ≠ .writingFrame) (l : List Byte) :
    passPayload l s = s := by
  cases l with
  | nil => rfl
  | cons x l => exact if_neg fun hen => hc (writing_of_txpEnabled hen)

/-- When the bytes that pass end the frame, they are the compound's payload part. -/
theorem Passes.payloadOp {p rest : List Byte} {s t : State} (h : Passes p s t) (ho : s.io.txp = p ++ rest)
    (hc : t.regs.connState ≠ .writingFrame) : payloadOp s = t := by
  rw [Machine.payloadOp, ho, h.passPayload, passPayload_of_not_writing hc]

section Payload

variable {s : State} {r : Regs} {sent : List TxBeat}

/-- The last byte of a payload ends the frame (43 R206, R207). -/
theorem txpOp_encoding_last (h : r.encRem = 1) (x : Byte) (rest : List Byte) :
    txpOp x (encoding s r (x :: rest) sent) = encoding s (encFrameEnd r) rest (sent ++ [⟨x, true⟩]) := by
  rw [txpOp_last (s := encoding s r (x :: rest) sent) h]
  simp only [encoding, setRegs, emitTx, takeTxp, List.tail_cons, List.append_assoc]

/-- Any other byte counts down (43 R206). -/
theorem txpOp_encoding_more (h : r.encRem ≠ 1) (x : Byte) (rest : List Byte) :
    txpOp x (encoding s r (x :: rest) sent) =
      encoding s { r with encRem := r.encRem - 1 } rest (sent ++ [⟨x, false⟩]) := by
  rw [txpOp_of_ne (s := encoding s r (x :: rest) sent) h]
  simp only [encoding, setRegs, emitTx, takeTxp, List.tail_cons, List.append_assoc]

variable (hx : s.io.txReady = true)
include hx

/-- A whole payload passes, and its last byte ends the frame. -/
theorem passes_payload (hc : r.connState = .writingFrame) (hp : r.encPhase = .pay) {payload : List Byte}
    (hne : payload ≠ []) (hrem : r.encRem.toNat = payload.length) (rest : List Byte) :
    Passes payload (encoding s r (payload ++ rest) sent)
      (encoding s (encFrameEnd r) rest (sent ++ txRun payload)) := by
  induction payload generalizing r sent with
  | nil => contradiction
  | cons x p ih =>
    rw [List.length_cons] at hrem
    refine .cons (txpEnabled_of (s := encoding s r _ sent) hc hx hp rfl) ?_
    rcases eq_or_ne p [] with rfl | hmore
    · have hlast : r.encRem = 1 := BitVec.eq_of_toNat_eq hrem
      rw [List.cons_append, txpOp_encoding_last hlast]
      exact .nil _
    · have hpos := List.length_pos_iff.mpr hmore
      rw [List.cons_append, txpOp_encoding_more (by bv_omega), txRun_cons hmore, List.append_cons sent _ (txRun p)]
      exact ih (r := { r with encRem := r.encRem - 1 }) hc hp hmore (by dsimp only; bv_omega)

/-- Behind a whole header the payload of a frame passes. -/
theorem passes_behind_header (hc : s.regs.connState = .writingFrame) {header payload rest : List Byte}
    (hne : payload ≠ []) (hrem : s.regs.encRem.toNat = payload.length) :
    Passes payload (encoding s { s.regs with encPhase := .pay } (payload ++ rest) (txMore header))
      (written s (header ++ payload) rest) := by
  rw [written, txRun_append header hne]
  exact passes_payload (r := { s.regs with encPhase := .pay }) hx hc rfl hne hrem rest

end Payload

/-! ### The header, and the frame behind it -/

/-- The second header byte moves nothing but `TX` (43 R205). -/
@[simp] theorem h1Op_io_cmd (s : State) : (h1Op s).io.cmd = s.io.cmd := by
  unfold h1Op; split <;> rfl
@[simp] theorem h1Op_io_txp (s : State) : (h1Op s).io.txp = s.io.txp := by
  unfold h1Op; split <;> rfl
@[simp] theorem h1Op_io_rst (s : State) : (h1Op s).io.rst = s.io.rst := by
  unfold h1Op; split <;> rfl

section Frame

variable {s : State} {payload rest : List Byte}

/-- The two bytes of a short header (43 R205). -/
theorem h1Op_h0Op_of_le (h0 : s.regs.encN ≠ 0) (h : s.regs.encN.toNat ≤ 125) :
    h1Op (h0Op s) = encoding s { s.regs with encPhase := .pay } s.io.txp
      (txMore [0x81, BitVec.ofNat 8 s.regs.encN.toNat]) := by
  rw [h1Op_of_le (s := h0Op s) h0 h]
  simp only [h0Op, encoding, setRegs, emitTx, txMore, List.append_assoc]
  rfl

/-- The header of an empty frame is the whole frame (43 R205, R207). -/
theorem h1Op_h0Op_of_zero (h : s.regs.encN = 0) : h1Op (h0Op s) = written s [0x81, 0] s.io.txp := by
  rw [h1Op_of_zero (s := h0Op s) h]
  simp only [h0Op, written, encoding, setRegs, emitTx, List.append_assoc]
  rfl

/-- The four bytes of a long header (43 R205). -/
theorem h3Op_h2Op_h1Op_h0Op (h : 126 ≤ s.regs.encN.toNat) :
    h3Op (h2Op (h1Op (h0Op s))) = encoding s { s.regs with encPhase := .pay } s.io.txp
      (txMore [0x81, 0x7E, hiByte (encLen16 s.params s.regs.encN), loByte (encLen16 s.params s.regs.encN)]) := by
  rw [h1Op_of_ge (s := h0Op s) h]
  simp only [h0Op, h2Op, h3Op, encoding, setRegs, emitTx, txMore, List.append_assoc]
  rfl

/-- After the header `81 nn` the payload ends the frame, and with `nn = 0` the header does. -/
theorem FrameDue.passes_short (h : FrameDue s payload rest) (hn : payload.length ≤ 125) :
    Passes payload (h1Op (h0Op s)) (written s (0x81 :: BitVec.ofNat 8 payload.length :: payload) rest) := by
  obtain ⟨hc, -, hx, hencN, hrem, ho⟩ := h
  rcases eq_or_ne payload [] with rfl | hne
  · have hzero : s.regs.encN = 0 := BitVec.eq_of_toNat_eq hencN
    rw [h1Op_h0Op_of_zero hzero, ho]
    exact .nil _
  · have hpos := List.length_pos_iff.mpr hne
    rw [h1Op_h0Op_of_le (by bv_omega) (by omega), ho, hencN]
    exact passes_behind_header hx hc hne hrem

/-- After the header `81 7E hh ll` the payload ends the frame. -/
theorem FrameDue.passes_long (h : FrameDue s payload rest) (hn : 126 ≤ payload.length) :
    Passes payload (h3Op (h2Op (h1Op (h0Op s))))
      (written s (0x81 :: 0x7E :: hiByte (encLen16 s.params s.regs.encN) ::
        loByte (encLen16 s.params s.regs.encN) :: payload) rest) := by
  obtain ⟨hc, -, hx, hencN, hrem, ho⟩ := h
  have hne : payload ≠ [] := List.ne_nil_of_length_pos (by omega)
  rw [h3Op_h2Op_h1Op_h0Op (by omega), ho]
  exact passes_behind_header hx hc hne hrem

/-- At the start of a frame its first header byte is enabled. -/
theorem FrameDue.enabled (h : FrameDue s payload rest) : emitEnabled .h0 s = true :=
  emitEnabled_of (by simp [slotOf, h.writing, h.phase]) h.accepts

end Frame

/-- Settles O37: behind the short header the payload passes whole. -/
theorem shortFrameGoesOut : Obligations.ShortFrameGoesOut := by
  intro s n payload rest hc hp hx hn hencN hrem hlen ho
  have hdue : FrameDue s payload rest := ⟨hc, hp, hx, hencN.trans hlen.symm, hrem.trans hlen.symm, ho⟩
  have hpasses := hdue.passes_short (by omega)
  have hreg : s.regs.encN = n.setWidth 32 := by bv_omega
  have hexec : exec (.txfLen7 n) s = .next (payloadOp (h1Op (h0Op s))) := by
    simp [exec, execTxfLen7, hdue.enabled, hreg, hn]
  rw [hexec, hpasses.payloadOp ((h1Op_io_txp _).trans ho) nofun, hlen]
  rfl

/-- Settles O38: behind the long header the payload passes whole. -/
theorem longFrameGoesOut : Obligations.LongFrameGoesOut := by
  intro s hh ll payload rest hc hp hx hlo hhi hrem hbytes hlen ho
  have hdue : FrameDue s payload rest := ⟨hc, hp, hx, hlen.symm, hrem.trans hlen.symm, ho⟩
  have hlen16 : encLen16 s.params s.regs.encN = be16 hh ll := by
    rw [be16_eq_ofNat, hbytes, ← encLen16_toNat, BitVec.ofNat_toNat, BitVec.setWidth_eq]
  have hpasses := hdue.passes_long (by omega)
  rw [hlen16, hiByte_be16, loByte_be16] at hpasses
  have hexec : exec (.txfLen16 hh ll) s = .next (payloadOp (h3Op (h2Op (h1Op (h0Op s))))) := by
    simp [exec, execTxfLen16, hdue.enabled, hlo, hhi, hlen16]
  rw [hexec, hpasses.payloadOp ((h1Op_io_txp _).trans ho) nofun]
  rfl

/-! ### `encode(P)` -/

section Runs

variable {s : State} (hc : s.regs.connState = .writingFrame) (hx : s.io.txReady = true) (hr : s.io.rst = false)
  (hcmd : s.io.cmd = [])
include hc hx hr hcmd

/-- The first two header bytes are two steps. -/
theorem runs_h0_h1 (hp : s.regs.encPhase = .h0) : runs 2 s (h1Op (h0Op s)) :=
  ⟨h0Op s, (HeaderStep.h0 hp).step hc hx hr hcmd, runs_one ((HeaderStep.h1 rfl).step hc hx hr hcmd)⟩

/-- The two length bytes are two steps. -/
theorem runs_h2_h3 (hp : s.regs.encPhase = .h2) : runs 2 s (h3Op (h2Op s)) :=
  ⟨h2Op s, (HeaderStep.h2 hp).step hc hx hr hcmd, runs_one ((HeaderStep.h3 rfl).step hc hx hr hcmd)⟩

/-- The four bytes of a long header are four steps. -/
theorem runs_long_header (hp : s.regs.encPhase = .h0) (hn : 126 ≤ s.regs.encN.toNat) :
    runs 4 s (h3Op (h2Op (h1Op (h0Op s)))) := by
  have hfirst := runs_h0_h1 hc hx hr hcmd hp
  rw [h1Op_of_ge (s := h0Op s) hn] at hfirst ⊢
  exact runs_trans hfirst (runs_h2_h3 hc hx hr hcmd rfl)

end Runs

/-- A frame goes out in one step for each of its bytes. -/
theorem FrameDue.runs_frame {s : State} {payload rest header : List Byte} (h : FrameDue s payload rest)
    (hr : s.io.rst = false) (hcmd : s.io.cmd = []) (hheader : HeaderOf s.params payload.length header) :
    runs (header.length + payload.length) s (written s (header ++ payload) rest) := by
  have hencN : BitVec.ofNat 32 payload.length = s.regs.encN := by
    rw [← h.encN, BitVec.ofNat_toNat, BitVec.setWidth_eq]
  cases hheader with
  | short hn =>
    have hhead := runs_h0_h1 h.writing h.accepts hr hcmd h.phase
    exact runs_trans hhead ((h.passes_short hn).runs (by simpa [h0Op] using hr) (by simpa [h0Op] using hcmd))
  | long hlo hhi =>
    have hhead := runs_long_header h.writing h.accepts hr hcmd h.phase (h.encN ▸ hlo)
    rw [hencN]
    exact runs_trans hhead ((h.passes_long hlo).runs (by simpa [h0Op, h2Op, h3Op] using hr)
      (by simpa [h0Op, h2Op, h3Op] using hcmd))

/-- `ENCODE |P|` makes the frame of `P` due (43 R201). -/
theorem step_encode_frameDue {s : State} {payload rest : List Byte} (hc : s.regs.connState = .processing)
    (hr : s.io.rst = false) (hx : s.io.txReady = true) (hn : payload.length ≤ 65536)
    (hcmd : s.io.cmd = [cmdBeat 2 (BitVec.ofNat 32 payload.length)]) (ho : s.io.txp = payload ++ rest) :
    ∃ u, step s = .next u ∧ FrameDue u payload rest ∧ u.params = s.params ∧ u.io.rst = false ∧ u.io.cmd = [] ∧
      u.io.tx = s.io.tx := by
  have hlen : (BitVec.ofNat 32 payload.length).toNat = payload.length := by
    rw [BitVec.toNat_ofNat, Nat.mod_eq_of_lt (by omega)]
  generalize BitVec.ofNat 32 payload.length = n at hcmd hlen
  have hdec : decodeCmd (cmdBeat 2 n) = .encode n := decodeCmd_encode n
  have hdue : cmdDue s = some (.encode n) := by
    rw [← hdec]
    exact cmdDue_of_legal hcmd (by simp [cmdLegal, encodeLegal, hc])
  have hwaits : waiting s := by simp [waiting, hc]
  have hstep := (step_of_cmd_alone hr (dataDue_of_waiting hwaits) hdue).trans (exec_encode hc hcmd)
  rw [encodeOp_of_le (by omega)] at hstep
  have hrem : (n.setWidth 17).toNat = payload.length := by
    rw [BitVec.toNat_setWidth, hlen, Nat.mod_eq_of_lt (by omega)]
  exact ⟨_, hstep, ⟨rfl, rfl, hx, hlen, hrem, ho⟩, rfl, hr, rfl, rfl⟩

/-- Settles O39: `ENCODE`, then a step for each byte of the frame. -/
theorem encoderComputesEncode : Obligations.EncoderComputesEncode := by
  intro s payload rest bytes hc hr hx hn hcmd ho hbytes
  obtain ⟨header, hheader, rfl⟩ := encodeFrame_eq_some hbytes
  have hof := headerOf_of_encHeader hheader
  obtain ⟨hlen, hfirst, hsecond, hlength⟩ := hof.shape
  obtain ⟨u, hstep, hdue, hparams, hr', hcmd', htx⟩ := step_encode_frameDue hc hr hx hn hcmd ho
  have hrun := runs_trans (runs_one hstep) (hdue.runs_frame hr' hcmd' (hparams ▸ hof))
  rw [← List.length_append] at hrun
  exact ⟨_, hrun, rfl, rfl, rfl, rfl, rfl, hcmd', congrArg (· ++ _) htx, header, hheader, rfl, hlen,
    List.length_append, hfirst, hsecond, hlength⟩

end Sys2Proof.Machine
end

