-- ==== Sys2Proof/Proofs/RoundTrip.lean ====
section
/-! SUPPORT. What `decode(s)` makes of the encoder's bytes, masked by a client or fed back as they are (43 R210). -/

namespace Sys2Proof.Machine

/-! ### The branches of `decode(s)` -/

/-- Byte 1 with the mask bit clear (41 R165, R172). -/
theorem decodeFrame_unmasked {pol : UnmaskedPolicy} {x : Byte} (hm : isUnmasked pol x) (b0 : Byte) (tail : List Byte) :
    decodeFrame pol (b0 :: x :: tail) = .fault .maskBitClear :=
  if_pos hm

/-- Byte 1 with a length of its own (41 R162, R172). -/
theorem decodeFrame_short {pol : UnmaskedPolicy} {x : Byte} (hm : ¬isUnmasked pol x) (h127 : lenMarker x ≠ 127#7)
    (h126 : lenMarker x ≠ 126#7) (b0 : Byte) (body : List Byte) :
    decodeFrame pol (b0 :: x :: body) = decodeBody ((lenMarker x).setWidth 16) body :=
  (if_neg hm).trans ((if_neg h127).trans (if_neg h126))

/-- Byte 1 with an extended length (41 R163, R172). -/
theorem decodeFrame_long {pol : UnmaskedPolicy} {x : Byte} (hm : ¬isUnmasked pol x) (h126 : lenMarker x = 126#7)
    (b0 xh xl : Byte) (body : List Byte) :
    decodeFrame pol (b0 :: x :: xh :: xl :: body) = decodeBody (be16 xh xl) body := by
  have h127 : lenMarker x ≠ 127#7 := by simp [h126]
  exact (if_neg hm).trans ((if_neg h127).trans (if_pos h126))

/-- A payload of just the length leaves nothing over (41 R172). -/
theorem decodeBody_whole {len : BitVec 16} (key : Key) {tail : List Byte} (h : tail.length = len.toNat) :
    decodeBody len (key.k0 :: key.k1 :: key.k2 :: key.k3 :: tail) = .frame len key tail [] := by
  rw [decodeBody_of_key, if_neg (by omega), ← h, List.take_length, List.drop_length]

/-! ### The mask bit of a header -/

theorem maskBit_or_0x80 (x : Byte) : maskBit (x ||| 0x80) = true := by
  revert x; decide

theorem lenMarker_or_0x80 (x : Byte) : lenMarker (x ||| 0x80) = lenMarker x := by
  revert x; decide

/-- A byte 1 whose mask bit the client has set is no fault, whatever the policy. -/
theorem not_isUnmasked_or_0x80 (pol : UnmaskedPolicy) (x : Byte) : ¬isUnmasked pol (x ||| 0x80) := by
  rw [isUnmasked, maskBit_or_0x80]
  simp

/-- No header sets the mask bit (43 R208), so the decoder's default policy faults (41 R165). -/
theorem HeaderOf.decodeFrame_fault {p : Params} {n : Nat} {header : List Byte} (h : HeaderOf p n header)
    (tail : List Byte) : decodeFrame .fault (header ++ tail) = .fault .maskBitClear := by
  cases h with
  | short hn =>
    have hclear : maskBit (BitVec.ofNat 8 n) = false :=
      (maskBit_eq_decide _).trans (decide_eq_false (by rw [BitVec.toNat_ofNat]; omega))
    exact decodeFrame_unmasked ⟨rfl, hclear⟩ _ _
  | long => exact decodeFrame_unmasked ⟨rfl, by decide⟩ _ _

/-! ### The client's frame -/

section Client

variable (p : Params) (first : Byte) {text : List Byte} (key : Key)

/-- The client inserts its key behind the header, whose mask bit it sets. -/
theorem clientFrame_of_encHeader {b0 b1 : Byte} {ext : List Byte}
    (h : encHeader p text.length = some (b0 :: b1 :: ext)) :
    clientFrame p first text key =
      some (first :: (b1 ||| 0x80) :: (ext ++ key.k0 :: key.k1 :: key.k2 :: key.k3 :: unmask text key)) := by
  simp [clientFrame, h]

/-- The decoder reads the client's frame with the length the header gives: `text.length` up to 65535, the parameter at
65536. -/
theorem decodeFrame_clientFrame (h : text.length ≤ 65536) :
    ∃ wire, clientFrame p first text key = some wire ∧
      decodeFrame .fault wire = decodeBody (encLen16 p (BitVec.ofNat 32 text.length))
        (key.k0 :: key.k1 :: key.k2 :: key.k3 :: unmask text key) := by
  obtain ⟨header, hheader⟩ := exists_encHeader h p
  cases headerOf_of_encHeader hheader with
  | short hn =>
    refine ⟨_, clientFrame_of_encHeader p first key hheader, ?_⟩
    have hmarker : lenMarker (BitVec.ofNat 8 text.length ||| 0x80) = BitVec.ofNat 7 text.length := by
      rw [lenMarker_or_0x80]
      exact lenMarker_eq_of_mod (by rw [BitVec.toNat_ofNat]; omega)
    have hlen : encLen16 p (BitVec.ofNat 32 text.length) = (BitVec.ofNat 7 text.length).setWidth 16 := by
      apply BitVec.eq_of_toNat_eq
      rw [encLen16_ofNat (by omega), BitVec.toNat_setWidth, BitVec.toNat_ofNat]
      omega
    rw [List.nil_append, decodeFrame_short (not_isUnmasked_or_0x80 _ _) (by rw [hmarker]; bv_omega)
      (by rw [hmarker]; bv_omega), hmarker, hlen]
  | long hlo hhi =>
    refine ⟨_, clientFrame_of_encHeader p first key hheader, ?_⟩
    have hmarker : lenMarker (0x7E ||| 0x80) = 126#7 := by decide
    rw [List.cons_append, List.cons_append, List.nil_append,
      decodeFrame_long (not_isUnmasked_or_0x80 _ _) hmarker, be16_hiByte_loByte]

end Client

/-- Settles O41: the decoder reads a client's frame with the encoder's length; at 65536 no 16-bit length is that of the
text. -/
theorem roundTripThroughClient : Obligations.RoundTripThroughClient := by
  intro p first text key
  refine ⟨fun hn => ?whole, fun hn => ⟨?short, fun hzero => ?empty⟩, fun bytes hbytes => ?unmasked⟩
  case whole =>
    obtain ⟨wire, hwire, hdec⟩ := decodeFrame_clientFrame p first key (text := text) (by omega)
    refine ⟨wire, hwire, hdec.trans ?_, unmaskIsItsOwnInverse text key⟩
    have hlen := encLen16_ofNat hn p
    have hreg : encLen16 p (BitVec.ofNat 32 text.length) = BitVec.ofNat 16 text.length := by bv_omega
    rw [decodeBody_whole key ((length_unmask text key).trans hlen.symm), hreg]
  case short =>
    obtain ⟨wire, hwire, hdec⟩ := decodeFrame_clientFrame p first key hn.le
    refine ⟨wire, hwire, fun len k masked rest hframe => ?_⟩
    obtain ⟨-, -, hm, -⟩ := decodeBody_eq_frame (hdec.symm.trans hframe)
    rw [hm, hn]
    exact BitVec.isLt _
  case empty =>
    obtain ⟨wire, hwire, hdec⟩ := decodeFrame_clientFrame p first key hn.le
    rw [hn, encLen16_65536, hzero] at hdec
    exact ⟨wire, hwire, hdec⟩
  case unmasked =>
    obtain ⟨header, hheader, rfl⟩ := encodeFrame_eq_some hbytes
    exact (headerOf_of_encHeader hheader).decodeFrame_fault text

end Sys2Proof.Machine
end

