-- ==== Sys2Proof/Proofs/OutOfPlace.lean ====
section
/-! SUPPORT. Commands out of place and commands the state permits (44_connection_sequencer R225). -/

namespace Sys2Proof.Machine

/-- A command out of place is none that may be taken (44 R225). -/
theorem not_takesCommand_of_outOfPlace {r : Regs} {beat : BitVec 34} (h : outOfPlace r beat) :
    ¬takesCommand r beat := by
  rintro (⟨hop, hc, hp⟩ | ⟨hop, hc⟩ | hop)
  · rw [outOfPlace, hop] at h
    simp [hc, hp] at h
  · rw [outOfPlace, hop] at h
    simp [hc] at h
  · rw [outOfPlace, hop] at h
    simp at h

/-- A command out of place at the head of `CMD` keeps every step from taking of `CMD` (44 R225). -/
theorem step_io_cmd_of_outOfPlace {s t : State} {beat : BitVec 34} {rest : List (BitVec 34)}
    (ho : s.io.cmd = beat :: rest) (hout : outOfPlace s.regs beat) (h : step s = .next t) :
    t.io.cmd = s.io.cmd := by
  have hm := step_channelMove h
  generalize t.io = io at hm ⊢
  cases hm with
  | cmd ho' hl =>
    obtain ⟨rfl, rfl⟩ := List.cons.inj (ho.symm.trans ho')
    exact absurd hl (not_takesCommand_of_outOfPlace hout)
  | _ => rfl

/-- Settles O44: a step that moves `CMD` takes a command in place; and the states that permit `UPGRADE` or `ENCODE` wait
for a command alone, so no data step competes. -/
theorem outOfPlaceCommandsStay : Obligations.OutOfPlaceCommandsStay := by
  intro s beat rest ho arg
  obtain ⟨-, hupgrade, hencode, -⟩ := commandFields beat
  refine ⟨fun hout _ => step_io_cmd_of_outOfPlace ho hout, fun hr hop hc hp => ?upgrade, fun hr hop hc => ?encode⟩
  case upgrade =>
    have hwaits : waiting s := .inl ⟨hc, hp⟩
    exact (fetch_cmd_of_waiting hr hwaits ho (by simp [hupgrade hop, cmdLegal, upgradeLegal, hc, hp])).trans
      (congrArg some (hupgrade hop))
  case encode =>
    have hwaits : waiting s := by simp [waiting, hc]
    exact (fetch_cmd_of_waiting hr hwaits ho (by simp [hencode hop, cmdLegal, encodeLegal, hc])).trans
      (congrArg some (hencode hop))

end Sys2Proof.Machine
end

