-- ==== Sys2Proof/Proofs/Transitions.lean ====
section
/-! SUPPORT. The transition table of 44_connection_sequencer R221: which steps change `conn_state`, and when. -/

namespace Sys2Proof.Machine

/-- A second header byte that does not end the frame keeps `conn_state` (43 R205). -/
theorem h1Op_connState_of_ne {s : State} (h : s.regs.encN ≠ 0) :
    (h1Op s).regs.connState = s.regs.connState := by
  by_cases hn : s.regs.encN.toNat ≤ 125
  · rw [h1Op_of_le h hn]; rfl
  · rw [h1Op_of_ge (by omega)]; rfl

/-- The last byte of a reply (43 R206, R207). -/
theorem txpRegs_last {r : Regs} (h : r.encRem = 1) : txpRegs r = encFrameEnd r :=
  if_pos h

/-- A byte of a reply before the last (43 R206). -/
theorem txpRegs_of_ne {r : Regs} (h : r.encRem ≠ 1) : txpRegs r = { r with encRem := r.encRem - 1 } :=
  if_neg h

/-- The rows of R221 that are data steps: the registers before, the instruction, the registers after. -/
inductive DataTransition (r : Regs) : Instr → Regs → Prop where
  | handshakeDone {r' : Regs} (hc : r.connState = .awaitingUpgrade) (hlast : r.sgnRidx = 127)
      (hc' : r'.connState = .handshaken) : DataTransition r .respByte r'
  | firstFrame {r' : Regs} (x : Byte) (hc : r.connState = .handshaken) (hc' : r'.connState = .readingFrame) :
      DataTransition r (.rxB0 x) r'
  | emptyFrameRead {r' : Regs} (x : Byte) (hc : r.connState = .readingFrame) (hempty : r.decLen = 0)
      (hc' : r'.connState = .processing) : DataTransition r (.rxK3 x) r'
  | frameRead {r' : Regs} (x : Byte) (hc : r.connState = .readingFrame) (hlast : r.decRem = 1)
      (hc' : r'.connState = .processing) : DataTransition r (.rxPay x) r'
  | longLength (hc : r.connState = .readingFrame) : DataTransition r .rxfLen64 (terminated .unsupportedLength)
  | noMask (l : BitVec 7) (hc : r.connState = .readingFrame) :
      DataTransition r (.rxfUnmasked l) (terminated .maskBitClear)
  | emptyReplyWritten {r' : Regs} (hc : r.connState = .writingFrame) (hempty : r.encN = 0)
      (hc' : r'.connState = .readingFrame) : DataTransition r .txH1 r'
  | replyWritten {r' : Regs} (x : Byte) (hc : r.connState = .writingFrame) (hlast : r.encRem = 1)
      (hc' : r'.connState = .readingFrame) : DataTransition r (.txpByte x) r'

/-- A data step that changes `conn_state` is one of those rows. -/
theorem DataStep.transition {s u t : State} {i : Instr} (h : DataStep s u i t) (hu : u.regs = s.regs)
    (hne : t.regs.connState ≠ s.regs.connState) : DataTransition s.regs i t.regs := by
  cases h with
  | hkByte | rxX0 | rxX1 | rxK0 | rxK1 | rxK2 | txH0 | txH2 | txH3 => simp at hne
  | respByte hc =>
    by_cases hlast : s.regs.sgnRidx = 127
    · exact .handshakeDone hc hlast (by rw [setRegs_regs, respRegs_last hlast]; rfl)
    · simp [respRegs_of_ne hlast] at hne
  | rxB0 x _ hc =>
    rcases hc with hc | hc
    · exact .firstFrame x hc rfl
    · simp [hc] at hne
  | form _ _ _ _ hc _ _ hf =>
    cases hf with
    | unmasked => exact .noMask _ hc
    | len64 => exact .longLength hc
    | len16 | len7 => simp [len16Op, len7Op, hu] at hne
  | rxK3 x _ hc =>
    by_cases hempty : s.regs.decLen = 0
    · exact .emptyFrameRead x hc hempty (by rw [setRegs_regs, k3Regs_of_zero hempty]; rfl)
    · simp [k3Regs_of_ne hempty, unmLoad] at hne
  | rxPay x _ hc =>
    by_cases hlast : s.regs.decRem = 1
    · exact .frameRead x hc hlast (by rw [setRegs_regs, payRegs_last hlast]; rfl)
    · simp [payRegs_of_ne hlast, unmAdvance] at hne
  | txH1 hc =>
    by_cases hempty : s.regs.encN = 0
    · exact .emptyReplyWritten hc hempty (by rw [h1Op_of_zero (hu ▸ hempty)]; rfl)
    · exact absurd ((h1Op_connState_of_ne (hu ▸ hempty)).trans (by rw [hu])) hne
  | txpByte x _ hc =>
    by_cases hlast : s.regs.encRem = 1
    · exact .replyWritten x hc hlast (by rw [setRegs_regs, txpRegs_last hlast]; rfl)
    · simp [txpRegs_of_ne hlast] at hne

/-- Settles O45, by the inversion of `step`: reset, `ENCODE`, `CLOSE` and the data steps make the rows of the table. -/
theorem transitionTable : Obligations.TransitionTable := by
  intro s t h hne
  cases step_cases h with
  | hold => exact absurd rfl hne
  | upgrade => simp at hne
  | reset hf hr => simp [hf, hr, Regs.reset]
  | encode n _ _ hf _ _ _ hc =>
    by_cases hn : n.toNat ≤ 65536
    · simp [hf, hc, hn, encodeOp_of_le hn]
    · have hgt : 65536 < n.toNat := by omega
      simp [hf, hc, hgt, encodeOp_of_gt hgt]
  | close arg _ _ hf =>
    have hlive : s.regs.connState ≠ .terminated := fun hc => hne (by simp [hc])
    simp [hf, hlive]
  | data i _ hf _ _ he =>
    have hrow := he.transition (takeTurn_regs s) hne
    generalize t.regs = r at hrow ⊢
    cases hrow with
    | handshakeDone hc hlast hc' => simp [hf, hc, hlast, hc']
    | firstFrame x hc hc' => simp [hf, hc, hc']
    | emptyFrameRead x hc hempty hc' | emptyReplyWritten hc hempty hc' => simp [hf, hc, hempty, hc']
    | frameRead x hc hlast hc' | replyWritten x hc hlast hc' => simp [hf, hc, hlast, hc']
    | longLength hc | noMask _ hc => simp [hf, hc]

end Sys2Proof.Machine
end

