-- ==== Sys2Proof/Proofs/Sequencer.lean ====
section
/-! SUPPORT. Several instances, reset, `CLOSE`, and what the host's moves leave alone (44_connection_sequencer R224,
R229, R230). -/

namespace Sys2Proof.Machine

/-! ### Instances -/

/-- Stepping an instance that exists replaces it by its step's next state (44 R229). -/
theorem stepAt_instances {y : System} {k : Nat} {s t : State} (hk : y.instances[k]? = some s)
    (h : step s = .next t) : (y.stepAt k).instances = y.instances.set k t := by
  simp [System.stepAt, hk, h]

/-- Stepping an instance that does not exist does nothing. -/
theorem stepAt_of_none {y : System} {k : Nat} (hk : y.instances[k]? = none) : y.stepAt k = y := by
  simp [System.stepAt, hk]

/-- Settles O52: a step of instance `k` writes place `k` of the list, or nothing (the list is the model's form,
log 20). -/
theorem instancesAreIndependent : Obligations.InstancesAreIndependent := by
  intro y j k
  refine ⟨fun hjk => ?others, fun s t hk h => ?own⟩
  case others =>
    cases hk : y.instances[k]? with
    | none => rw [stepAt_of_none hk]
    | some s =>
      obtain ⟨t, h⟩ := step_isNext s
      rw [stepAt_instances hk h, List.getElem?_set_ne hjk.symm]
  case own =>
    obtain ⟨hlt, -⟩ := List.getElem?_eq_some_iff.mp hk
    rw [stepAt_instances hk h, List.getElem?_set_self hlt]

/-! ### Reset -/

/-- `RESET` writes the registers alone (70 R280, R281). -/
theorem exec_reset (s : State) : exec .reset s = .next { s with regs := Regs.reset } := rfl

/-- While `rst` is asserted the step is `RESET`, and no order is chosen (60 R257; log 8). -/
theorem step_of_rst {s : State} (h : s.io.rst = true) : step s = exec .reset s :=
  step_of_fetch_uncontested (by simp [contested, h]) (by simp [fetch, h])

/-- Releasing an asserted `rst` gives every register its reset value and moves no beat (70 R280). -/
theorem driveRst_release {s : State} (h : s.io.rst = true) :
    driveRst false s = { s with regs := Regs.reset, io := { s.io with rst := false } } := by
  simp [driveRst, h, resetRegs, setRegs]

/-- Asserting `rst` writes that level alone (log 8). -/
theorem driveRst_assert (s : State) : driveRst true s = { s with io := { s.io with rst := true } } := by
  simp [driveRst]

/-- Settles O6: `RESET` by a step under `rst`, by the release of `rst`, and by a pulse of it; what holds while `rst` is
asserted is the model's choice (log 8). -/
theorem resetFromAnyState : Obligations.ResetFromAnyState := by
  intro s
  refine ⟨exec_reset s, fun h => (step_of_rst h).trans (exec_reset s), driveRst_release, ?pulse⟩
  calc hostMoves [.setRst true, .setRst false] s
      = driveRst false (driveRst true s) := rfl
    _ = driveRst false { s with io := { s.io with rst := true } } := by rw [driveRst_assert]
    _ = _ := driveRst_release rfl

/-! ### `CLOSE` -/

/-- A `CLOSE` at the head of `CMD` is taken in every state (44 R224). -/
theorem exec_close {s : State} {arg : BitVec 32} {rest : List (BitVec 34)} (ho : s.io.cmd = cmdBeat 3 arg :: rest) :
    exec (.close arg) s = .next (setRegs (closeRegs s.regs) { s with io := { s.io with cmd := rest } }) := by
  have hoffers : cmdOffers (.close arg) s.io = true := by simp [cmdOffers, ho]
  simp only [exec, execClose, hoffers, performIf_true, takeCmd_of_offered ho]

/-- Settles O42: `CLOSE` outside `TERMINATED` and in it. -/
theorem closeTerminates : Obligations.CloseTerminates := by
  intro s arg rest ho
  rw [exec_close ho]
  refine ⟨fun hlive => ?live, fun hdone => ?terminated⟩
  case live => rw [closeRegs_of_live hlive]; rfl
  case terminated => rw [closeRegs_of_terminated hdone]; rfl

/-! ### The host's moves -/

/-- No move of the host writes a build parameter (10_state R32, R35). -/
theorem hostMove_params (m : HostMove) (s : State) : (hostMove m s).params = s.params := by
  cases m with
  | setRst level => exact driveRst_params level s
  | withdraw => rw [hostMove]; split <;> rfl
  | _ => rfl

/-- A move that does not release an asserted `rst` writes no register (44 R230). -/
theorem hostMove_regs {m : HostMove} {s : State} (h : ¬(m = .setRst false ∧ s.io.rst = true)) :
    (hostMove m s).regs = s.regs := by
  cases m with
  | setRst level =>
    cases level with
    | true => exact driveRst_assert_regs s
    | false => simpa [hostMove, driveRst_release_regs] using fun hr => absurd ⟨rfl, hr⟩ h
  | withdraw => rw [hostMove]; split <;> rfl
  | _ => rfl

/-- Settles O51: the release of an asserted `rst` is the one move that writes registers (log 8, log 19). -/
theorem hostWritesNoRegister : Obligations.HostWritesNoRegister := by
  intro m s
  refine ⟨hostMove_params m s, hostMove_regs, ?release⟩
  rintro rfl hr
  rw [hostMove, driveRst_release hr]
  rfl

end Sys2Proof.Machine
end

