-- ==== Sys2Proof/Proofs/Terminated.lean ====
section
/-! SUPPORT. No return from a fault: what a step does in `TERMINATED` (60_exceptions R259, 44_connection_sequencer R227,
R231). -/

namespace Sys2Proof.Machine

/-- In `TERMINATED` no data step is due (20_memory R63). -/
theorem dataDue_of_terminated {s : State} (hc : s.regs.connState = .terminated) : dataDue s = none :=
  dataDue_of_waiting (by simp [waiting, hc])

/-- The one command taken in `TERMINATED` is `CLOSE` (30_encoding R96). -/
theorem eq_close_of_takesCommand_terminated {r : Regs} {beat : BitVec 34} (hc : r.connState = .terminated)
    (h : takesCommand r beat) : ∃ arg, beat = cmdBeat 3 arg := by
  obtain ⟨-, hawaiting, -⟩ | ⟨-, hprocessing⟩ | hop := h
  · simp [hc] at hawaiting
  · simp [hc] at hprocessing
  · exact ⟨_, cmdBeat_of_op hop⟩

/-- Settles O47, by the inversion of `step`: `TERMINATED` with `rst` low leaves a hold or a `CLOSE`, which keeps the
registers there. -/
theorem terminatedIsTerminal : Obligations.TerminatedIsTerminal := by
  intro s t hc hr h
  cases step_cases h with
  | hold => exact ⟨rfl, .inl rfl⟩
  | reset _ hasserted => simp [hr] at hasserted
  | upgrade _ _ _ _ _ _ _ hawaiting => simp [hc] at hawaiting
  | encode _ _ _ _ _ _ _ hprocessing => simp [hc] at hprocessing
  | data _ _ _ _ hd => simp [dataDue_of_terminated hc] at hd
  | close _ beat rest _ _ ho hd =>
    have htaken : takesCommand s.regs beat := takesCommand_of_cmdLegal (by simp [hd, cmdLegal])
    obtain ⟨arg, rfl⟩ := eq_close_of_takesCommand_terminated hc htaken
    exact ⟨closeRegs_of_terminated hc, .inr ⟨arg, rest, ho, by simp [takeCmd, ho]⟩⟩

end Sys2Proof.Machine
end

