-- ==== Sys2Proof/Proofs/Offered.lean ====
section
/-! SUPPORT. What lifts each hold (70_reset_and_hazards R289): the data step due in each row once its beat is offered
and its sink accepts (20_memory R62, R63), and the command in each row that waits for one
(44_connection_sequencer R225). -/

namespace Sys2Proof.Machine

/-- With no command to take, the data step that is due is fetched (20_memory R63, 44 R225). -/
theorem fetch_of_data_alone {s : State} {i : Instr} (hr : s.io.rst = false) (hn : noCommandTaken s)
    (hd : dataDue s = some i) : fetch s = some i :=
  (fetch_of_no_cmd hr (cmdDue_of_noCommandTaken hn)).trans hd

/-- Outside frame byte 1, the byte offered on `RX` makes the decoder phase's instruction due (41 R161 to R168). -/
theorem dataDue_byteInstr {p : DecPhase} {x : Byte} {rest : List Byte} {s : State} (hp : p ≠ .b1)
    (hd : DecoderAt s.regs p) (ho : s.io.rx = x :: rest) (hs : sinkAccepts (decSlot p) s.io = true) :
    dataDue s = some (byteInstr p x) := by
  have hen : rxEnabled (decSlot p) x s = true := rxEnabled_of hd.slotOf ho hs
  cases p with
  | b1 => exact absurd rfl hp
  | _ => exact dataDue_of_rxEnabled hen rfl rfl

/-- In `HANDSHAKEN` or `READING_FRAME`, the byte offered at `D_B0` is due (41 R161). -/
theorem dataDue_b0 {s : State} {x : Byte} {rest : List Byte}
    (hc : s.regs.connState = .handshaken ∨ s.regs.connState = .readingFrame) (hp : s.regs.decPhase = .b0)
    (ho : s.io.rx = x :: rest) : dataDue s = some (.rxB0 x) :=
  dataDue_byteInstr (p := .b0) (by decide) ⟨hc.symm.imp_right fun h => ⟨h, rfl⟩, hp⟩ ho rfl

/-- Settles O9: no command competes with the data step of a row that waits for data, and no data step with the command
of a row that waits. -/
theorem offeredBeatsAreTaken : Obligations.OfferedBeatsAreTaken := by
  intro s hr
  refine ⟨fun hn x rest => ?data, fun beat later ho => ?command⟩
  case data =>
    have lifted {i : Instr} : dataDue s = some i → fetch s = some i := fetch_of_data_alone hr hn
    refine ⟨fun hc hp ho => ?key, fun hc hp hx => ?response, fun hc hp ho => lifted (dataDue_b0 hc hp ho),
      fun hc ho => ?decoder, fun hc hx => ?encoder⟩
    case key => exact lifted (dataDue_of_hkEnabled (by simp [due_hk hc hp, hkOffers, ho]))
    case response => exact lifted (dataDue_of_emitEnabled (emitEnabled_resp hc hp hx) rfl rfl)
    case decoder =>
      have byte (p : DecPhase) (hp1 : p ≠ .b1) (hs : sinkAccepts (decSlot p) s.io = true)
          (hp : s.regs.decPhase = p) : fetch s = some (byteInstr p x) :=
        lifted (dataDue_byteInstr hp1 ⟨.inl hc, hp⟩ ho hs)
      exact ⟨fun hp => lifted (dataDue_b1 hc hp ho), byte .x0 nofun rfl, byte .x1 nofun rfl, byte .k0 nofun rfl,
        byte .k1 nofun rfl, byte .k2 nofun rfl, fun hp ha => byte .k3 nofun ha hp,
        fun hp ha => byte .pay nofun ha hp⟩
    case encoder =>
      have header {i : Instr} {t : State} (h : HeaderStep s i t) : fetch s = some i := lifted (h.due_exec hc hx).1
      exact ⟨fun hp => header (.h0 hp), fun hp => header (.h1 hp), fun hp => header (.h2 hp),
        fun hp => header (.h3 hp), fun hp ho => lifted (dataDue_of_txpEnabled (txpEnabled_of hc hx hp ho))⟩
  case command =>
    obtain ⟨-, hupgrade, hencode⟩ := outOfPlaceCommandsStay s beat later ho
    refine ⟨fun hc hp hop => hupgrade hr hop hc hp, fun hc hop => hencode hr hop hc, fun hw hop => ?close⟩
    case close =>
      obtain ⟨-, -, -, hclose⟩ := commandFields beat
      exact (fetch_cmd_of_waiting hr hw ho (by simp [hclose hop, cmdLegal])).trans (congrArg some (hclose hop))

end Sys2Proof.Machine
end

