-- ==== Sys2Proof/Proofs/RegisterInvariant.lean ====
section
/-! SUPPORT. The register invariant (10_state R36 with what makes it inductive) holds at reset and every step keeps
it. -/

namespace Sys2Proof.Machine

/-- Settles O53: at reset every unit is at rest, which is one of the cases of `UnitsInv`. -/
theorem resetMeetsRegsInv : Obligations.ResetMeetsRegsInv := regsInv_reset

/-- Settles O54: the invariant is equivalent to `UnitsInv`, its form unit by unit, which each case of the inversion of
`step` keeps. -/
theorem stepKeepsRegsInv : Obligations.StepKeepsRegsInv := fun _ _ h hs => step_keeps_regsInv h hs

end Sys2Proof.Machine
end

