-- ==== Sys2Proof/Proofs/Encodings.lean ====
section
/-! SUPPORT. The decoder of each encoding space on the words that stand for its instructions, and the masks and matches
that select the incoming form (30_encoding sections 2 to 5). -/

namespace Sys2Proof.Machine

/-! ### The rows of R92 by the value of byte 1 -/

theorem be16_and_be16 (a b c d : Byte) : be16 a b &&& be16 c d = be16 (a &&& c) (b &&& d) := BitVec.and_append

/-- A row whose mask and match leave byte 0 out looks at byte 1 alone (30_encoding R92, R100). -/
theorem hits_be16 (mask value b0 x : Byte) :
    RxfRow.hits ⟨be16 0#8 mask, be16 0#8 value⟩ (be16 b0 x) = (x &&& mask == value) := by
  have hword : be16 b0 x &&& be16 0#8 mask = be16 0#8 (x &&& mask) := by rw [be16_and_be16, BitVec.and_zero]
  have hlow : be16 0#8 (x &&& mask) = be16 0#8 value ↔ x &&& mask = value := BitVec.append_right_inj 0#8
  rw [RxfRow.hits, hword, Bool.eq_iff_iff, beq_iff_eq, beq_iff_eq, hlow]

theorem hits_rowUnmasked (b0 x : Byte) : rowUnmasked.hits (b0 ++ x) = decide (x.toNat < 128) := by
  refine (hits_be16 0x80 0x00 b0 x).trans ?_
  revert x; decide

theorem hits_rowLen64 (b0 x : Byte) : rowLen64.hits (b0 ++ x) = decide (x.toNat = 255) := by
  refine (hits_be16 0xFF 0xFF b0 x).trans ?_
  revert x; decide

theorem hits_rowLen16 (b0 x : Byte) : rowLen16.hits (b0 ++ x) = decide (x.toNat = 254) := by
  refine (hits_be16 0xFF 0xFE b0 x).trans ?_
  revert x; decide

theorem hits_rowLen7 (b0 x : Byte) : rowLen7.hits (b0 ++ x) = decide (128 ≤ x.toNat) := by
  refine (hits_be16 0x80 0x80 b0 x).trans ?_
  revert x; decide

/-- The selection of R92 under the default policy, by the value of byte 1. -/
theorem selectForm_fault (x : Byte) :
    selectForm .fault x =
      if x.toNat < 128 then .rxfUnmasked (BitVec.ofNat 7 x.toNat)
      else if x.toNat = 255 then .rxfLen64
      else if x.toNat = 254 then .rxfLen16
      else .rxfLen7 (BitVec.ofNat 7 (x.toNat - 128)) := by
  have hunmasked : isUnmasked .fault x ↔ x.toNat < 128 := by simp [isUnmasked, maskBit_eq_decide]
  refine ite_congr (propext hunmasked) (fun _ => by rw [lenMarker_eq_ofNat]) fun hge => ?masked
  case masked =>
    have hx := x.isLt
    have hmarker : lenMarker x = BitVec.ofNat 7 (x.toNat - 128) := lenMarker_eq_of_mod (by omega)
    rw [hmarker]
    exact if_congr (by bv_omega) rfl (if_congr (by bv_omega) rfl rfl)

/-- Settles O3: each row's mask and match are a range of byte 1, and the ranges are those of `selectForm`. -/
theorem formsFollowTheirMasks : Obligations.FormsFollowTheirMasks := by
  intro b0 x rest
  simp only [hits_rowUnmasked, hits_rowLen64, hits_rowLen16, hits_rowLen7, decide_eq_true_eq, decide_eq_false_iff_not]
  refine ⟨?selected, fun hunmasked hlen64 hlen16 => ?exhaustive⟩
  case selected => rw [decodeRxf, selectForm_fault]
  case exhaustive =>
    have hx := x.isLt
    omega

/-! ### Encoded words -/

/-- A marker that is a length is neither of the two others (30_encoding R92, R94). -/
theorem marker_ne_of_le {l : BitVec 7} (h : l.toNat ≤ 125) : l ≠ 127#7 ∧ l ≠ 126#7 := by
  constructor <;> bv_omega

theorem selectForm_clear (l : BitVec 7) : selectForm .fault (frameByte1 false l) = .rxfUnmasked l := by
  simp [selectForm]

theorem selectForm_length {l : BitVec 7} (h : l.toNat ≤ 125) :
    selectForm .fault (frameByte1 true l) = .rxfLen7 l := by
  simp [selectForm, marker_ne_of_le h]

theorem decodeTxf_length {n : BitVec 7} (h : n.toNat ≤ 125) (payload : List Byte) :
    decodeTxf (0x81 :: frameByte1 false n :: payload) = .ok (.txfLen7 n, payload) := by
  simp [decodeTxf, marker_ne_of_le h]

/-- The 28 bytes behind the fixed head of the response are the token's (30_encoding R97). -/
theorem token_of_respBytes (token : Vector Byte 28) : ((respBytes token).drop 96).take 28 = token.toList := by
  rw [respBytes, List.append_assoc, List.drop_left' (by rfl), List.take_left' token.length_toList]

theorem toToken_toList (token : Vector Byte 28) : toToken token.toList = token :=
  Vector.toList_inj.mp (toList_toToken token.length_toList)

theorem decodeResp_respBytes (token : Vector Byte 28) : decodeResp (respBytes token) = .ok (.hsresp token) := by
  rw [decodeResp, token_of_respBytes, toToken_toList, if_pos rfl]

/-- Settles O2, by cases on the instruction: what a word carries of an operand is read back from the marker, the command
beat or the response; a step's word is its operand. That byte 0 of an incoming form is encoded as `0x81` is the model's
choice (log 11). -/
theorem decodeOfEncode : Obligations.DecodeOfEncode := by
  intro i hwf
  cases i with
  | rxfUnmasked l => exact congrArg Except.ok (selectForm_clear l)
  | rxfLen7 l => exact congrArg Except.ok (selectForm_length (of_decide_eq_true hwf))
  | txfLen7 n => exact congrArg (Except.map Prod.fst) (decodeTxf_length (of_decide_eq_true hwf) [])
  | cmdReserved0 arg => exact congrArg Except.ok (decodeCmd_reserved arg)
  | upgrade klen => exact congrArg Except.ok (decodeCmd_upgrade klen)
  | encode n => exact congrArg Except.ok (decodeCmd_encode n)
  | close arg => exact congrArg Except.ok (decodeCmd_close arg)
  | hsresp token => exact decodeResp_respBytes token
  | _ => rfl

/-- Settles O1: each word is a closed term, which the decoder evaluates. -/
theorem writtenWordsDecode : Obligations.WrittenWordsDecode :=
  ⟨rfl, rfl, rfl, rfl, rfl, rfl, rfl, rfl, rfl, rfl, rfl, rfl⟩

end Sys2Proof.Machine
end
